-- ==== Sys2Proof/Word.lean ====
section
/-!
DEFINITION. The two word types of the block: a byte of data (`00_scope.md` R4: every register but PC, and every
bus access, is 8 bits wide) and a 16-bit address or program counter. `+` and `-` on them wrap modulo 256 and
modulo 65536, as the `+8`, `-8`, `+16` and `-16` of R5 do.
-/

namespace Sys2Proof

/-- An 8-bit value: a data register, the status register, a byte of memory (R4, R5). -/
abbrev Byte := BitVec 8

/-- A 16-bit value: the program counter, an address of the CPU-visible space (R4, R5, R50). -/
abbrev Word := BitVec 16

/-- A 14-bit address of the graphics-internal space (R4, R74). -/
abbrev GfxAddr := BitVec 14

end Sys2Proof
end

