-- ==== Sys2Proof/Machine/Bits.lean ====
section
/-!
DEFINITION. The bit-field and byte-order helpers of `00_scope.md` R5 and `20_memory.md` R61.
-/

namespace Sys2Proof

/-- `lo(w) = w[7:0]` (R5). -/
def loByte (w : Word) : Byte := w.extractLsb' 0 8

/-- `hi(w) = w[15:8]` (R5): the page of an address (R144). -/
def hiByte (w : Word) : Byte := w.extractLsb' 8 8

/-- `{h, l}`, the 16-bit value `h * 256 + l` (R5); the byte at the lower address is `l` (R61). -/
def word (h l : Byte) : Word := h ++ l

/-- `zext_16(v)` (R5). -/
def zext16 (v : Byte) : Word := v.setWidth 16

/-- `sext_16(v)` (R5). -/
def sext16 (v : Byte) : Word := v.signExtend 16

end Sys2Proof
end

