-- ==== Sys2Proof/Syntax.lean ====
section
/-!
DEFINITION. The instructions as syntax: addressing modes, operand forms, and `Instr`, which covers all 256 rows of
`spec/opcode_table.json`. A row is a mnemonic with an addressing mode; here the mnemonic is the constructor and the
mode is the operand form it carries, so a row is one constructor at one form (notes/assumptions/18.md). Where the
table gives one mnemonic several bytes with the same mode (ANC, the duplicate NOPs, STP, the sentinel), the
constructor carries the opcode byte. Which forms a mnemonic has is `Instr.wellFormed` (WellFormed.lean).
-/

namespace Sys2Proof

/-- The thirteen addressing-mode tags of `30_encoding.md` R104. -/
inductive Mode where
  | implied | accumulator | immediate
  | zeroPage | zeroPageX | zeroPageY
  | absolute | absoluteX | absoluteY
  | indirect | indirectX | indirectY | relative
deriving DecidableEq, Repr

/-- An operand that is a byte in memory: the eight data modes of `40_addressing.md`, each with its operand bytes.
A 16-bit literal is the word with byte 1 low and byte 2 high (R134). -/
inductive Mem where
  | zeroPage (i : Byte)
  | zeroPageX (i : Byte)
  | zeroPageY (i : Byte)
  | absolute (w : Word)
  | absoluteX (w : Word)
  | absoluteY (w : Word)
  | indirectX (i : Byte)
  | indirectY (i : Byte)
deriving DecidableEq, Repr

/-- A source operand: the shape `Imm(v)` of R9, or a byte in memory. -/
inductive Src where
  | immediate (v : Byte)
  | mem (m : Mem)
deriving DecidableEq, Repr

/-- The operand of a shift or rotate: the shape `Acc` of R9, or a byte in memory (R201). -/
inductive Shiftee where
  | accumulator
  | mem (m : Mem)
deriving DecidableEq, Repr

/-- The operand of JMP (R229). -/
inductive JumpTarget where
  | absolute (w : Word)
  | indirect (ptr : Word)
deriving DecidableEq, Repr

/-- The operand of a duplicate NOP (R264). -/
inductive NopOperand where
  | implied
  | immediate (v : Byte)
  | mem (m : Mem)
deriving DecidableEq, Repr

/-- The instructions. The comment after each group names the rules that give their meaning. -/
inductive Instr where
  -- loads, stores, transfers: R150 to R161
  | lda (o : Src) | ldx (o : Src) | ldy (o : Src)
  | sta (m : Mem) | stx (m : Mem) | sty (m : Mem)
  | tax | tay | txa | tya | tsx | txs
  -- arithmetic, logic, compare, bit test, increment and decrement: R172 to R186
  | adc (o : Src) | sbc (o : Src)
  | and (o : Src) | ora (o : Src) | eor (o : Src)
  | cmp (o : Src) | cpx (o : Src) | cpy (o : Src)
  | bit (m : Mem)
  | inc (m : Mem) | dec (m : Mem)
  | inx | iny | dex | dey
  -- shifts and rotates: R201 to R204
  | asl (o : Shiftee) | lsr (o : Shiftee) | rol (o : Shiftee) | ror (o : Shiftee)
  -- stack: R211 to R214
  | pha | pla | php | plp
  -- control flow: R221 to R233; a branch carries its signed displacement byte
  | bcc (i : Byte) | bcs (i : Byte) | beq (i : Byte) | bne (i : Byte)
  | bmi (i : Byte) | bpl (i : Byte) | bvc (i : Byte) | bvs (i : Byte)
  | jmp (t : JumpTarget) | jsr (w : Word) | rts | rti | brk
  -- flags and the official NOP: R240 to R247
  | clc | sec | cli | sei | cld | sed | clv | nop
  -- unofficial: R251 to R267
  | slo (m : Mem) | rla (m : Mem) | sre (m : Mem) | rra (m : Mem) | dcp (m : Mem) | isc (m : Mem)
  | lax (m : Mem) | sax (m : Mem)
  | alr (v : Byte) | anc (opcode : Byte) (v : Byte) | arr (v : Byte) | axs (v : Byte)
  | sbcDup (v : Byte)
  | nopDup (opcode : Byte) (o : NopOperand)
  | shx (w : Word) | shy (w : Word)
  | stp (opcode : Byte)
  -- the sentinel rows of the table: R108, R281
  | invalid (opcode : Byte)
deriving DecidableEq, Repr

/-- The operation tags of the instruction table (R103): one for each constructor of `Instr`. -/
inductive Op where
  | lda | ldx | ldy | sta | stx | sty | tax | tay | txa | tya | tsx | txs
  | adc | sbc | and | ora | eor | cmp | cpx | cpy | bit | inc | dec | inx | iny | dex | dey
  | asl | lsr | rol | ror | pha | pla | php | plp
  | bcc | bcs | beq | bne | bmi | bpl | bvc | bvs | jmp | jsr | rts | rti | brk
  | clc | sec | cli | sei | cld | sed | clv | nop
  | slo | rla | sre | rra | dcp | isc | lax | sax | alr | anc | arr | axs | sbcDup | nopDup | shx | shy | stp
  | invalid
deriving DecidableEq, Repr

/-- A descriptor of the instruction table (R103): operation tag, addressing-mode tag, instruction length in bytes
(opcode included, R102), base cycle cost and page-cross cycle bonus. STP has no cycle count (R106): its base is
`none`; the sentinel has zero cycles (R103). -/
structure Descriptor where
  op : Op
  mode : Mode
  length : Nat
  baseCycles : Option Nat
  pageCrossBonus : Nat
deriving DecidableEq, Repr

end Sys2Proof
end

