-- ==== Sys2Proof/WellFormed.lean ====
section
/-!
DEFINITION. Which terms of `Instr` are instructions of the hardware: the operand forms each family rule lists
(`41_load_store_transfer.md` to `47_unofficial.md`), and the opcode bytes of the constructors that carry one
(R106, R108). Written from the family rules, not from the decoder's table.
-/

namespace Sys2Proof

/-- The addressing mode of a memory operand. -/
def Mem.mode : Mem → Mode
  | .zeroPage _ => .zeroPage
  | .zeroPageX _ => .zeroPageX
  | .zeroPageY _ => .zeroPageY
  | .absolute _ => .absolute
  | .absoluteX _ => .absoluteX
  | .absoluteY _ => .absoluteY
  | .indirectX _ => .indirectX
  | .indirectY _ => .indirectY

/-- The addressing mode of a source operand. -/
def Src.mode : Src → Mode
  | .immediate _ => .immediate
  | .mem m => m.mode

/-- The addressing mode of a shift's operand. -/
def Shiftee.mode : Shiftee → Mode
  | .accumulator => .accumulator
  | .mem m => m.mode

/-- The addressing mode of JMP's operand. -/
def JumpTarget.mode : JumpTarget → Mode
  | .absolute _ => .absolute
  | .indirect _ => .indirect

/-- The addressing mode of a duplicate NOP's operand. -/
def NopOperand.mode : NopOperand → Mode
  | .implied => .implied
  | .immediate _ => .immediate
  | .mem m => m.mode

/-- The modes of LDA, ADC, SBC, AND, ORA, EOR and CMP (R150, R172 to R177). -/
def accumulatorModes : List Mode :=
  [.immediate, .zeroPage, .zeroPageX, .absolute, .absoluteX, .absoluteY, .indirectX, .indirectY]

/-- The modes of STA (R153) and of the combined read-modify-write instructions (section 1 of `47_unofficial.md`). -/
def storeModes : List Mode :=
  [.zeroPage, .zeroPageX, .absolute, .absoluteX, .absoluteY, .indirectX, .indirectY]

/-- The memory modes of INC and DEC (R181, R182) and of the shifts (R201 to R204). -/
def modifyModes : List Mode := [.zeroPage, .zeroPageX, .absolute, .absoluteX]

/-- The opcode bytes of the duplicate NOPs with the mode of each (R264). -/
def nopDupEncodings : List (Byte × Mode) :=
  [(0x1A, .implied), (0x3A, .implied), (0x5A, .implied), (0x7A, .implied), (0xDA, .implied), (0xFA, .implied),
   (0x80, .immediate), (0x82, .immediate), (0x89, .immediate), (0xC2, .immediate), (0xE2, .immediate),
   (0x04, .zeroPage), (0x44, .zeroPage), (0x64, .zeroPage),
   (0x14, .zeroPageX), (0x34, .zeroPageX), (0x54, .zeroPageX), (0x74, .zeroPageX), (0xD4, .zeroPageX),
   (0xF4, .zeroPageX),
   (0x0C, .absolute),
   (0x1C, .absoluteX), (0x3C, .absoluteX), (0x5C, .absoluteX), (0x7C, .absoluteX), (0xDC, .absoluteX),
   (0xFC, .absoluteX)]

/-- The twelve STP bytes (R109, R267). -/
def stpOpcodes : List Byte := [0x02, 0x12, 0x22, 0x32, 0x42, 0x52, 0x62, 0x72, 0x92, 0xB2, 0xD2, 0xF2]

/-- The two ANC bytes (R260). -/
def ancOpcodes : List Byte := [0x0B, 0x2B]

/-- The six unassigned bytes (R108). -/
def invalidOpcodes : List Byte := [0x8B, 0x93, 0x9B, 0x9F, 0xAB, 0xBB]

/-- An instruction of the hardware: its operand form, and its opcode byte where it carries one, is one the spec lists. -/
def Instr.wellFormed : Instr → Bool
  | .lda o | .adc o | .sbc o | .and o | .ora o | .eor o | .cmp o => accumulatorModes.contains o.mode
  | .ldx o => [Mode.immediate, .zeroPage, .zeroPageY, .absolute, .absoluteY].contains o.mode
  | .ldy o => [Mode.immediate, .zeroPage, .zeroPageX, .absolute, .absoluteX].contains o.mode
  | .cpx o | .cpy o => [Mode.immediate, .zeroPage, .absolute].contains o.mode
  | .sta m | .slo m | .rla m | .sre m | .rra m | .dcp m | .isc m => storeModes.contains m.mode
  | .stx m => [Mode.zeroPage, .zeroPageY, .absolute].contains m.mode
  | .sty m => [Mode.zeroPage, .zeroPageX, .absolute].contains m.mode
  | .bit m => [Mode.zeroPage, .absolute].contains m.mode
  | .inc m | .dec m => modifyModes.contains m.mode
  | .asl o | .lsr o | .rol o | .ror o => (.accumulator :: modifyModes).contains o.mode
  | .lax m => [Mode.zeroPage, .zeroPageY, .absolute, .absoluteY, .indirectX, .indirectY].contains m.mode
  | .sax m => [Mode.zeroPage, .zeroPageY, .absolute, .indirectX].contains m.mode
  | .anc b _ => ancOpcodes.contains b
  | .nopDup b o => nopDupEncodings.contains (b, o.mode)
  | .stp b => stpOpcodes.contains b
  | .invalid b => invalidOpcodes.contains b
  | .tax | .tay | .txa | .tya | .tsx | .txs | .inx | .iny | .dex | .dey
  | .pha | .pla | .php | .plp
  | .bcc _ | .bcs _ | .beq _ | .bne _ | .bmi _ | .bpl _ | .bvc _ | .bvs _
  | .jmp _ | .jsr _ | .rts | .rti | .brk
  | .clc | .sec | .cli | .sei | .cld | .sed | .clv | .nop
  | .alr _ | .arr _ | .axs _ | .sbcDup _ | .shx _ | .shy _ => true

end Sys2Proof
end

