-- ==== Sys2Proof/Decode.lean ====
section
/-!
DEFINITION. The instruction table, the decoder built on it, and the encoder.

The table (R31, R103) is the matrix of R107 with the lengths and cycles of R105 and R106. The decoder reads one
opcode byte, takes the length from its descriptor (R102), and assembles the operand from the one or two bytes that
follow (R101, R104). The encoder is written from the "Encoding" lists of the family rules instead, so that the two
views can be held against each other.
-/

namespace Sys2Proof

/-! ### The instruction table -/

/-- An assigned row of the table: operation, mode, length, base cycles, page-cross bonus (R103). -/
def row (op : Op) (mode : Mode) (length base bonus : Nat) : Descriptor := ⟨op, mode, length, some base, bonus⟩

/-- The sentinel descriptor of an unassigned opcode: zero cycles, mnemonic INVALID (R103, R108, `90_conflicts.md` C9). -/
def sentinel : Descriptor := ⟨.invalid, .implied, 1, some 0, 0⟩

/-- The row of an STP byte: one byte, no cycle count (R106, D24). -/
def stopRow : Descriptor := ⟨.stp, .implied, 1, none, 0⟩

/-- Row 0x of the matrix of R107, with lengths and cycles of R105 and R106. -/
def iTableRow0 : List Descriptor :=
  [row .brk .implied 1 7 0, row .ora .indirectX 2 6 0, stopRow, row .slo .indirectX 2 8 0,
   row .nopDup .zeroPage 2 3 0, row .ora .zeroPage 2 3 0, row .asl .zeroPage 2 5 0, row .slo .zeroPage 2 5 0,
   row .php .implied 1 3 0, row .ora .immediate 2 2 0, row .asl .accumulator 1 2 0, row .anc .immediate 2 2 0,
   row .nopDup .absolute 3 4 0, row .ora .absolute 3 4 0, row .asl .absolute 3 6 0, row .slo .absolute 3 6 0]

/-- Row 1x of the matrix of R107, with lengths and cycles of R105 and R106. -/
def iTableRow1 : List Descriptor :=
  [row .bpl .relative 2 2 0, row .ora .indirectY 2 5 1, stopRow, row .slo .indirectY 2 8 0,
   row .nopDup .zeroPageX 2 4 0, row .ora .zeroPageX 2 4 0, row .asl .zeroPageX 2 6 0, row .slo .zeroPageX 2 6 0,
   row .clc .implied 1 2 0, row .ora .absoluteY 3 4 1, row .nopDup .implied 1 2 0, row .slo .absoluteY 3 7 0,
   row .nopDup .absoluteX 3 4 1, row .ora .absoluteX 3 4 1, row .asl .absoluteX 3 7 0, row .slo .absoluteX 3 7 0]

/-- Row 2x of the matrix of R107, with lengths and cycles of R105 and R106. -/
def iTableRow2 : List Descriptor :=
  [row .jsr .absolute 3 6 0, row .and .indirectX 2 6 0, stopRow, row .rla .indirectX 2 8 0,
   row .bit .zeroPage 2 3 0, row .and .zeroPage 2 3 0, row .rol .zeroPage 2 5 0, row .rla .zeroPage 2 5 0,
   row .plp .implied 1 4 0, row .and .immediate 2 2 0, row .rol .accumulator 1 2 0, row .anc .immediate 2 2 0,
   row .bit .absolute 3 4 0, row .and .absolute 3 4 0, row .rol .absolute 3 6 0, row .rla .absolute 3 6 0]

/-- Row 3x of the matrix of R107, with lengths and cycles of R105 and R106. -/
def iTableRow3 : List Descriptor :=
  [row .bmi .relative 2 2 0, row .and .indirectY 2 5 1, stopRow, row .rla .indirectY 2 8 0,
   row .nopDup .zeroPageX 2 4 0, row .and .zeroPageX 2 4 0, row .rol .zeroPageX 2 6 0, row .rla .zeroPageX 2 6 0,
   row .sec .implied 1 2 0, row .and .absoluteY 3 4 1, row .nopDup .implied 1 2 0, row .rla .absoluteY 3 7 0,
   row .nopDup .absoluteX 3 4 1, row .and .absoluteX 3 4 1, row .rol .absoluteX 3 7 0, row .rla .absoluteX 3 7 0]

/-- Row 4x of the matrix of R107, with lengths and cycles of R105 and R106. -/
def iTableRow4 : List Descriptor :=
  [row .rti .implied 1 6 0, row .eor .indirectX 2 6 0, stopRow, row .sre .indirectX 2 8 0,
   row .nopDup .zeroPage 2 3 0, row .eor .zeroPage 2 3 0, row .lsr .zeroPage 2 5 0, row .sre .zeroPage 2 5 0,
   row .pha .implied 1 3 0, row .eor .immediate 2 2 0, row .lsr .accumulator 1 2 0, row .alr .immediate 2 2 0,
   row .jmp .absolute 3 3 0, row .eor .absolute 3 4 0, row .lsr .absolute 3 6 0, row .sre .absolute 3 6 0]

/-- Row 5x of the matrix of R107, with lengths and cycles of R105 and R106. -/
def iTableRow5 : List Descriptor :=
  [row .bvc .relative 2 2 0, row .eor .indirectY 2 5 1, stopRow, row .sre .indirectY 2 8 0,
   row .nopDup .zeroPageX 2 4 0, row .eor .zeroPageX 2 4 0, row .lsr .zeroPageX 2 6 0, row .sre .zeroPageX 2 6 0,
   row .cli .implied 1 2 0, row .eor .absoluteY 3 4 1, row .nopDup .implied 1 2 0, row .sre .absoluteY 3 7 0,
   row .nopDup .absoluteX 3 4 1, row .eor .absoluteX 3 4 1, row .lsr .absoluteX 3 7 0, row .sre .absoluteX 3 7 0]

/-- Row 6x of the matrix of R107, with lengths and cycles of R105 and R106. -/
def iTableRow6 : List Descriptor :=
  [row .rts .implied 1 6 0, row .adc .indirectX 2 6 0, stopRow, row .rra .indirectX 2 8 0,
   row .nopDup .zeroPage 2 3 0, row .adc .zeroPage 2 3 0, row .ror .zeroPage 2 5 0, row .rra .zeroPage 2 5 0,
   row .pla .implied 1 4 0, row .adc .immediate 2 2 0, row .ror .accumulator 1 2 0, row .arr .immediate 2 2 0,
   row .jmp .indirect 3 5 0, row .adc .absolute 3 4 0, row .ror .absolute 3 6 0, row .rra .absolute 3 6 0]

/-- Row 7x of the matrix of R107, with lengths and cycles of R105 and R106. -/
def iTableRow7 : List Descriptor :=
  [row .bvs .relative 2 2 0, row .adc .indirectY 2 5 1, stopRow, row .rra .indirectY 2 8 0,
   row .nopDup .zeroPageX 2 4 0, row .adc .zeroPageX 2 4 0, row .ror .zeroPageX 2 6 0, row .rra .zeroPageX 2 6 0,
   row .sei .implied 1 2 0, row .adc .absoluteY 3 4 1, row .nopDup .implied 1 2 0, row .rra .absoluteY 3 7 0,
   row .nopDup .absoluteX 3 4 1, row .adc .absoluteX 3 4 1, row .ror .absoluteX 3 7 0, row .rra .absoluteX 3 7 0]

/-- Row 8x of the matrix of R107, with lengths and cycles of R105 and R106. -/
def iTableRow8 : List Descriptor :=
  [row .nopDup .immediate 2 2 0, row .sta .indirectX 2 6 0, row .nopDup .immediate 2 2 0, row .sax .indirectX 2 6 0,
   row .sty .zeroPage 2 3 0, row .sta .zeroPage 2 3 0, row .stx .zeroPage 2 3 0, row .sax .zeroPage 2 3 0,
   row .dey .implied 1 2 0, row .nopDup .immediate 2 2 0, row .txa .implied 1 2 0, sentinel,
   row .sty .absolute 3 4 0, row .sta .absolute 3 4 0, row .stx .absolute 3 4 0, row .sax .absolute 3 4 0]

/-- Row 9x of the matrix of R107, with lengths and cycles of R105 and R106. -/
def iTableRow9 : List Descriptor :=
  [row .bcc .relative 2 2 0, row .sta .indirectY 2 6 0, stopRow, sentinel,
   row .sty .zeroPageX 2 4 0, row .sta .zeroPageX 2 4 0, row .stx .zeroPageY 2 4 0, row .sax .zeroPageY 2 4 0,
   row .tya .implied 1 2 0, row .sta .absoluteY 3 5 0, row .txs .implied 1 2 0, sentinel,
   row .shy .absoluteX 3 5 0, row .sta .absoluteX 3 5 0, row .shx .absoluteY 3 5 0, sentinel]

/-- Row Ax of the matrix of R107, with lengths and cycles of R105 and R106. -/
def iTableRowA : List Descriptor :=
  [row .ldy .immediate 2 2 0, row .lda .indirectX 2 6 0, row .ldx .immediate 2 2 0, row .lax .indirectX 2 6 0,
   row .ldy .zeroPage 2 3 0, row .lda .zeroPage 2 3 0, row .ldx .zeroPage 2 3 0, row .lax .zeroPage 2 3 0,
   row .tay .implied 1 2 0, row .lda .immediate 2 2 0, row .tax .implied 1 2 0, sentinel,
   row .ldy .absolute 3 4 0, row .lda .absolute 3 4 0, row .ldx .absolute 3 4 0, row .lax .absolute 3 4 0]

/-- Row Bx of the matrix of R107, with lengths and cycles of R105 and R106. -/
def iTableRowB : List Descriptor :=
  [row .bcs .relative 2 2 0, row .lda .indirectY 2 5 1, stopRow, row .lax .indirectY 2 5 1,
   row .ldy .zeroPageX 2 4 0, row .lda .zeroPageX 2 4 0, row .ldx .zeroPageY 2 4 0, row .lax .zeroPageY 2 4 0,
   row .clv .implied 1 2 0, row .lda .absoluteY 3 4 1, row .tsx .implied 1 2 0, sentinel,
   row .ldy .absoluteX 3 4 1, row .lda .absoluteX 3 4 1, row .ldx .absoluteY 3 4 1, row .lax .absoluteY 3 4 1]

/-- Row Cx of the matrix of R107, with lengths and cycles of R105 and R106. -/
def iTableRowC : List Descriptor :=
  [row .cpy .immediate 2 2 0, row .cmp .indirectX 2 6 0, row .nopDup .immediate 2 2 0, row .dcp .indirectX 2 8 0,
   row .cpy .zeroPage 2 3 0, row .cmp .zeroPage 2 3 0, row .dec .zeroPage 2 5 0, row .dcp .zeroPage 2 5 0,
   row .iny .implied 1 2 0, row .cmp .immediate 2 2 0, row .dex .implied 1 2 0, row .axs .immediate 2 2 0,
   row .cpy .absolute 3 4 0, row .cmp .absolute 3 4 0, row .dec .absolute 3 6 0, row .dcp .absolute 3 6 0]

/-- Row Dx of the matrix of R107, with lengths and cycles of R105 and R106. -/
def iTableRowD : List Descriptor :=
  [row .bne .relative 2 2 0, row .cmp .indirectY 2 5 1, stopRow, row .dcp .indirectY 2 8 0,
   row .nopDup .zeroPageX 2 4 0, row .cmp .zeroPageX 2 4 0, row .dec .zeroPageX 2 6 0, row .dcp .zeroPageX 2 6 0,
   row .cld .implied 1 2 0, row .cmp .absoluteY 3 4 1, row .nopDup .implied 1 2 0, row .dcp .absoluteY 3 7 0,
   row .nopDup .absoluteX 3 4 1, row .cmp .absoluteX 3 4 1, row .dec .absoluteX 3 7 0, row .dcp .absoluteX 3 7 0]

/-- Row Ex of the matrix of R107, with lengths and cycles of R105 and R106. -/
def iTableRowE : List Descriptor :=
  [row .cpx .immediate 2 2 0, row .sbc .indirectX 2 6 0, row .nopDup .immediate 2 2 0, row .isc .indirectX 2 8 0,
   row .cpx .zeroPage 2 3 0, row .sbc .zeroPage 2 3 0, row .inc .zeroPage 2 5 0, row .isc .zeroPage 2 5 0,
   row .inx .implied 1 2 0, row .sbc .immediate 2 2 0, row .nop .implied 1 2 0, row .sbcDup .immediate 2 2 0,
   row .cpx .absolute 3 4 0, row .sbc .absolute 3 4 0, row .inc .absolute 3 6 0, row .isc .absolute 3 6 0]

/-- Row Fx of the matrix of R107, with lengths and cycles of R105 and R106. -/
def iTableRowF : List Descriptor :=
  [row .beq .relative 2 2 0, row .sbc .indirectY 2 5 1, stopRow, row .isc .indirectY 2 8 0,
   row .nopDup .zeroPageX 2 4 0, row .sbc .zeroPageX 2 4 0, row .inc .zeroPageX 2 6 0, row .isc .zeroPageX 2 6 0,
   row .sed .implied 1 2 0, row .sbc .absoluteY 3 4 1, row .nopDup .implied 1 2 0, row .isc .absoluteY 3 7 0,
   row .nopDup .absoluteX 3 4 1, row .sbc .absoluteX 3 4 1, row .inc .absoluteX 3 7 0, row .isc .absoluteX 3 7 0]

/-- The instruction table (R31, R103): 256 descriptors, in the order of their opcode bytes. -/
def iTable : List Descriptor :=
  iTableRow0 ++ iTableRow1 ++ iTableRow2 ++ iTableRow3 ++ iTableRow4 ++ iTableRow5 ++ iTableRow6 ++ iTableRow7 ++
  iTableRow8 ++ iTableRow9 ++ iTableRowA ++ iTableRowB ++ iTableRowC ++ iTableRowD ++ iTableRowE ++ iTableRowF

/-- `ITable[op]` of R280: the descriptor an opcode byte selects. -/
def descriptor (op : Byte) : Descriptor := iTable.getD op.toNat sentinel

/-! ### The decoder -/

/-- The memory operand of a data mode, from operand bytes `i` and `j` (R104); `none` for a mode that names no byte in memory. -/
def memOperand (mode : Mode) (i j : Byte) : Option Mem :=
  match mode with
  | .zeroPage => some (.zeroPage i)
  | .zeroPageX => some (.zeroPageX i)
  | .zeroPageY => some (.zeroPageY i)
  | .absolute => some (.absolute (word j i))
  | .absoluteX => some (.absoluteX (word j i))
  | .absoluteY => some (.absoluteY (word j i))
  | .indirectX => some (.indirectX i)
  | .indirectY => some (.indirectY i)
  | .implied | .accumulator | .immediate | .indirect | .relative => none

/-- The source operand of a mode (R104, R141). -/
def srcOperand (mode : Mode) (i j : Byte) : Option Src :=
  match mode with
  | .immediate => some (.immediate i)
  | m => (memOperand m i j).map .mem

/-- The operand of a shift (R143, R201). -/
def shiftOperand (mode : Mode) (i j : Byte) : Option Shiftee :=
  match mode with
  | .accumulator => some .accumulator
  | m => (memOperand m i j).map .mem

/-- The operand of JMP (R134, R137, R229). -/
def jumpOperand (mode : Mode) (i j : Byte) : Option JumpTarget :=
  match mode with
  | .absolute => some (.absolute (word j i))
  | .indirect => some (.indirect (word j i))
  | _ => none

/-- The operand of a duplicate NOP (R264). -/
def nopOperand (mode : Mode) (i j : Byte) : Option NopOperand :=
  match mode with
  | .implied => some .implied
  | .immediate => some (.immediate i)
  | m => (memOperand m i j).map .mem

/-- The instruction an operation tag and its operand bytes stand for. `none` where the tag has no form of that
mode; no row of the table is such a pair (R105, R106). -/
def instrOfOp (d : Descriptor) (opcode i j : Byte) : Option Instr :=
  match d.op with
  | .lda => (srcOperand d.mode i j).map .lda
  | .ldx => (srcOperand d.mode i j).map .ldx
  | .ldy => (srcOperand d.mode i j).map .ldy
  | .sta => (memOperand d.mode i j).map .sta
  | .stx => (memOperand d.mode i j).map .stx
  | .sty => (memOperand d.mode i j).map .sty
  | .tax => some .tax
  | .tay => some .tay
  | .txa => some .txa
  | .tya => some .tya
  | .tsx => some .tsx
  | .txs => some .txs
  | .adc => (srcOperand d.mode i j).map .adc
  | .sbc => (srcOperand d.mode i j).map .sbc
  | .and => (srcOperand d.mode i j).map .and
  | .ora => (srcOperand d.mode i j).map .ora
  | .eor => (srcOperand d.mode i j).map .eor
  | .cmp => (srcOperand d.mode i j).map .cmp
  | .cpx => (srcOperand d.mode i j).map .cpx
  | .cpy => (srcOperand d.mode i j).map .cpy
  | .bit => (memOperand d.mode i j).map .bit
  | .inc => (memOperand d.mode i j).map .inc
  | .dec => (memOperand d.mode i j).map .dec
  | .inx => some .inx
  | .iny => some .iny
  | .dex => some .dex
  | .dey => some .dey
  | .asl => (shiftOperand d.mode i j).map .asl
  | .lsr => (shiftOperand d.mode i j).map .lsr
  | .rol => (shiftOperand d.mode i j).map .rol
  | .ror => (shiftOperand d.mode i j).map .ror
  | .pha => some .pha
  | .pla => some .pla
  | .php => some .php
  | .plp => some .plp
  | .bcc => some (.bcc i)
  | .bcs => some (.bcs i)
  | .beq => some (.beq i)
  | .bne => some (.bne i)
  | .bmi => some (.bmi i)
  | .bpl => some (.bpl i)
  | .bvc => some (.bvc i)
  | .bvs => some (.bvs i)
  | .jmp => (jumpOperand d.mode i j).map .jmp
  | .jsr => some (.jsr (word j i))
  | .rts => some .rts
  | .rti => some .rti
  | .brk => some .brk
  | .clc => some .clc
  | .sec => some .sec
  | .cli => some .cli
  | .sei => some .sei
  | .cld => some .cld
  | .sed => some .sed
  | .clv => some .clv
  | .nop => some .nop
  | .slo => (memOperand d.mode i j).map .slo
  | .rla => (memOperand d.mode i j).map .rla
  | .sre => (memOperand d.mode i j).map .sre
  | .rra => (memOperand d.mode i j).map .rra
  | .dcp => (memOperand d.mode i j).map .dcp
  | .isc => (memOperand d.mode i j).map .isc
  | .lax => (memOperand d.mode i j).map .lax
  | .sax => (memOperand d.mode i j).map .sax
  | .alr => some (.alr i)
  | .anc => some (.anc opcode i)
  | .arr => some (.arr i)
  | .axs => some (.axs i)
  | .sbcDup => some (.sbcDup i)
  | .nopDup => (nopOperand d.mode i j).map (.nopDup opcode)
  | .shx => some (.shx (word j i))
  | .shy => some (.shy (word j i))
  | .stp => some (.stp opcode)
  | .invalid => some (.invalid opcode)

/-- The instruction whose bytes are `opcode`, `i`, `j` (the bytes past its length are not looked at). -/
def instrOf (opcode i j : Byte) : Instr := (instrOfOp (descriptor opcode) opcode i j).getD (.invalid opcode)

/-- Why a byte sequence is no instruction. An unassigned opcode byte is not among the reasons: the table has a row
for it, and it decodes to `Instr.invalid` (R103). -/
inductive DecodeReject where
  /-- There is no byte at all. -/
  | empty
  /-- The opcode's descriptor asks for more bytes than there are (R102). -/
  | truncated (opcode : Byte)
deriving DecidableEq, Repr

/-- The decoder: the first instruction of a byte sequence, and the bytes after it. Total, rejecting by name. -/
def decode : List Byte → Except DecodeReject (Instr × List Byte)
  | [] => .error .empty
  | op :: rest =>
    match (descriptor op).length, rest with
    | 1, rest => .ok (instrOf op 0 0, rest)
    | 2, i :: rest => .ok (instrOf op i 0, rest)
    | 3, i :: j :: rest => .ok (instrOf op i j, rest)
    | _, _ => .error (.truncated op)

/-- The instruction of an opcode-table word: bit 0 of `w` is the least significant bit of the first byte, the second
byte is bits 15 to 8, the third bits 23 to 16; the bits from `nbits` on are zero. -/
def decodeTableWord (nbits w : Nat) : Option Instr :=
  let v := w % 2 ^ nbits
  match decode [BitVec.ofNat 8 v, BitVec.ofNat 8 (v / 256), BitVec.ofNat 8 (v / 65536)] with
  | .ok (i, _) => some i
  | .error _ => none

/-! ### Lengths -/

/-- The instruction length a mode implies (R104). -/
def Mode.length : Mode → Nat
  | .implied | .accumulator => 1
  | .immediate | .zeroPage | .zeroPageX | .zeroPageY | .indirectX | .indirectY | .relative => 2
  | .absolute | .absoluteX | .absoluteY | .indirect => 3

/-- The length in bytes of an instruction, opcode included (R102, R104). -/
def Instr.length : Instr → Nat
  | .lda o | .ldx o | .ldy o | .adc o | .sbc o | .and o | .ora o | .eor o | .cmp o | .cpx o | .cpy o => o.mode.length
  | .sta m | .stx m | .sty m | .bit m | .inc m | .dec m
  | .slo m | .rla m | .sre m | .rra m | .dcp m | .isc m | .lax m | .sax m => m.mode.length
  | .asl o | .lsr o | .rol o | .ror o => o.mode.length
  | .nopDup _ o => o.mode.length
  | .jmp t => t.mode.length
  | .jsr _ | .shx _ | .shy _ => 3
  | .bcc _ | .bcs _ | .beq _ | .bne _ | .bmi _ | .bpl _ | .bvc _ | .bvs _
  | .alr _ | .anc _ _ | .arr _ | .axs _ | .sbcDup _ => 2
  | .tax | .tay | .txa | .tya | .tsx | .txs | .inx | .iny | .dex | .dey
  | .pha | .pla | .php | .plp | .rts | .rti | .brk
  | .clc | .sec | .cli | .sei | .cld | .sed | .clv | .nop
  | .stp _ | .invalid _ => 1

/-! ### The encoder -/

/-- The byte an encoding list gives a mode. -/
def encodingOf (encodings : List (Mode × Byte)) (mode : Mode) : Option Byte := encodings.lookup mode

/-- The seven opcodes of a combined read-modify-write instruction from its base (section 1 of `47_unofficial.md`). -/
def combinedEncodings (base : Byte) : List (Mode × Byte) :=
  [(.zeroPage, base + 0x07), (.zeroPageX, base + 0x17), (.absolute, base + 0x0F), (.absoluteX, base + 0x1F),
   (.absoluteY, base + 0x1B), (.indirectX, base + 0x03), (.indirectY, base + 0x13)]

/-- The opcode byte of an instruction, from the "Encoding" list of its family rule; `none` where the rule lists no
such form. -/
def Instr.opcode? : Instr → Option Byte
  | .lda o => encodingOf [(.immediate, 0xA9), (.zeroPage, 0xA5), (.zeroPageX, 0xB5), (.absolute, 0xAD),
      (.absoluteX, 0xBD), (.absoluteY, 0xB9), (.indirectX, 0xA1), (.indirectY, 0xB1)] o.mode
  | .ldx o => encodingOf [(.immediate, 0xA2), (.zeroPage, 0xA6), (.zeroPageY, 0xB6), (.absolute, 0xAE),
      (.absoluteY, 0xBE)] o.mode
  | .ldy o => encodingOf [(.immediate, 0xA0), (.zeroPage, 0xA4), (.zeroPageX, 0xB4), (.absolute, 0xAC),
      (.absoluteX, 0xBC)] o.mode
  | .sta m => encodingOf [(.zeroPage, 0x85), (.zeroPageX, 0x95), (.absolute, 0x8D), (.absoluteX, 0x9D),
      (.absoluteY, 0x99), (.indirectX, 0x81), (.indirectY, 0x91)] m.mode
  | .stx m => encodingOf [(.zeroPage, 0x86), (.zeroPageY, 0x96), (.absolute, 0x8E)] m.mode
  | .sty m => encodingOf [(.zeroPage, 0x84), (.zeroPageX, 0x94), (.absolute, 0x8C)] m.mode
  | .tax => some 0xAA
  | .tay => some 0xA8
  | .txa => some 0x8A
  | .tya => some 0x98
  | .tsx => some 0xBA
  | .txs => some 0x9A
  | .adc o => encodingOf [(.immediate, 0x69), (.zeroPage, 0x65), (.zeroPageX, 0x75), (.absolute, 0x6D),
      (.absoluteX, 0x7D), (.absoluteY, 0x79), (.indirectX, 0x61), (.indirectY, 0x71)] o.mode
  | .sbc o => encodingOf [(.immediate, 0xE9), (.zeroPage, 0xE5), (.zeroPageX, 0xF5), (.absolute, 0xED),
      (.absoluteX, 0xFD), (.absoluteY, 0xF9), (.indirectX, 0xE1), (.indirectY, 0xF1)] o.mode
  | .and o => encodingOf [(.immediate, 0x29), (.zeroPage, 0x25), (.zeroPageX, 0x35), (.absolute, 0x2D),
      (.absoluteX, 0x3D), (.absoluteY, 0x39), (.indirectX, 0x21), (.indirectY, 0x31)] o.mode
  | .ora o => encodingOf [(.immediate, 0x09), (.zeroPage, 0x05), (.zeroPageX, 0x15), (.absolute, 0x0D),
      (.absoluteX, 0x1D), (.absoluteY, 0x19), (.indirectX, 0x01), (.indirectY, 0x11)] o.mode
  | .eor o => encodingOf [(.immediate, 0x49), (.zeroPage, 0x45), (.zeroPageX, 0x55), (.absolute, 0x4D),
      (.absoluteX, 0x5D), (.absoluteY, 0x59), (.indirectX, 0x41), (.indirectY, 0x51)] o.mode
  | .cmp o => encodingOf [(.immediate, 0xC9), (.zeroPage, 0xC5), (.zeroPageX, 0xD5), (.absolute, 0xCD),
      (.absoluteX, 0xDD), (.absoluteY, 0xD9), (.indirectX, 0xC1), (.indirectY, 0xD1)] o.mode
  | .cpx o => encodingOf [(.immediate, 0xE0), (.zeroPage, 0xE4), (.absolute, 0xEC)] o.mode
  | .cpy o => encodingOf [(.immediate, 0xC0), (.zeroPage, 0xC4), (.absolute, 0xCC)] o.mode
  | .bit m => encodingOf [(.zeroPage, 0x24), (.absolute, 0x2C)] m.mode
  | .inc m => encodingOf [(.zeroPage, 0xE6), (.zeroPageX, 0xF6), (.absolute, 0xEE), (.absoluteX, 0xFE)] m.mode
  | .dec m => encodingOf [(.zeroPage, 0xC6), (.zeroPageX, 0xD6), (.absolute, 0xCE), (.absoluteX, 0xDE)] m.mode
  | .inx => some 0xE8
  | .iny => some 0xC8
  | .dex => some 0xCA
  | .dey => some 0x88
  | .asl o => encodingOf [(.accumulator, 0x0A), (.zeroPage, 0x06), (.zeroPageX, 0x16), (.absolute, 0x0E),
      (.absoluteX, 0x1E)] o.mode
  | .lsr o => encodingOf [(.accumulator, 0x4A), (.zeroPage, 0x46), (.zeroPageX, 0x56), (.absolute, 0x4E),
      (.absoluteX, 0x5E)] o.mode
  | .rol o => encodingOf [(.accumulator, 0x2A), (.zeroPage, 0x26), (.zeroPageX, 0x36), (.absolute, 0x2E),
      (.absoluteX, 0x3E)] o.mode
  | .ror o => encodingOf [(.accumulator, 0x6A), (.zeroPage, 0x66), (.zeroPageX, 0x76), (.absolute, 0x6E),
      (.absoluteX, 0x7E)] o.mode
  | .pha => some 0x48
  | .pla => some 0x68
  | .php => some 0x08
  | .plp => some 0x28
  | .bcc _ => some 0x90
  | .bcs _ => some 0xB0
  | .beq _ => some 0xF0
  | .bne _ => some 0xD0
  | .bmi _ => some 0x30
  | .bpl _ => some 0x10
  | .bvc _ => some 0x50
  | .bvs _ => some 0x70
  | .jmp t => encodingOf [(.absolute, 0x4C), (.indirect, 0x6C)] t.mode
  | .jsr _ => some 0x20
  | .rts => some 0x60
  | .rti => some 0x40
  | .brk => some 0x00
  | .clc => some 0x18
  | .sec => some 0x38
  | .cli => some 0x58
  | .sei => some 0x78
  | .cld => some 0xD8
  | .sed => some 0xF8
  | .clv => some 0xB8
  | .nop => some 0xEA
  | .slo m => encodingOf (combinedEncodings 0x00) m.mode
  | .rla m => encodingOf (combinedEncodings 0x20) m.mode
  | .sre m => encodingOf (combinedEncodings 0x40) m.mode
  | .rra m => encodingOf (combinedEncodings 0x60) m.mode
  | .dcp m => encodingOf (combinedEncodings 0xC0) m.mode
  | .isc m => encodingOf (combinedEncodings 0xE0) m.mode
  | .lax m => encodingOf [(.zeroPage, 0xA7), (.zeroPageY, 0xB7), (.absolute, 0xAF), (.absoluteY, 0xBF),
      (.indirectX, 0xA3), (.indirectY, 0xB3)] m.mode
  | .sax m => encodingOf [(.zeroPage, 0x87), (.zeroPageY, 0x97), (.absolute, 0x8F), (.indirectX, 0x83)] m.mode
  | .alr _ => some 0x4B
  | .anc b _ => some b
  | .arr _ => some 0x6B
  | .axs _ => some 0xCB
  | .sbcDup _ => some 0xEB
  | .nopDup b _ => some b
  | .shx _ => some 0x9E
  | .shy _ => some 0x9C
  | .stp b => some b
  | .invalid b => some b

/-- A 16-bit literal as instruction bytes: low byte first (R101, R134). -/
def literalBytes (w : Word) : List Byte := [loByte w, hiByte w]

/-- The operand bytes of a memory operand. -/
def Mem.bytes : Mem → List Byte
  | .zeroPage i | .zeroPageX i | .zeroPageY i | .indirectX i | .indirectY i => [i]
  | .absolute w | .absoluteX w | .absoluteY w => literalBytes w

/-- The operand bytes of a source operand. -/
def Src.bytes : Src → List Byte
  | .immediate v => [v]
  | .mem m => m.bytes

/-- The operand bytes of an instruction (R101). -/
def Instr.operandBytes : Instr → List Byte
  | .lda o | .ldx o | .ldy o | .adc o | .sbc o | .and o | .ora o | .eor o | .cmp o | .cpx o | .cpy o => o.bytes
  | .sta m | .stx m | .sty m | .bit m | .inc m | .dec m
  | .slo m | .rla m | .sre m | .rra m | .dcp m | .isc m | .lax m | .sax m => m.bytes
  | .asl o | .lsr o | .rol o | .ror o =>
    match o with
    | .accumulator => []
    | .mem m => m.bytes
  | .nopDup _ o =>
    match o with
    | .implied => []
    | .immediate v => [v]
    | .mem m => m.bytes
  | .jmp (.absolute w) | .jmp (.indirect w) | .jsr w | .shx w | .shy w => literalBytes w
  | .bcc i | .bcs i | .beq i | .bne i | .bmi i | .bpl i | .bvc i | .bvs i => [i]
  | .alr v | .anc _ v | .arr v | .axs v | .sbcDup v => [v]
  | .tax | .tay | .txa | .tya | .tsx | .txs | .inx | .iny | .dex | .dey
  | .pha | .pla | .php | .plp | .rts | .rti | .brk
  | .clc | .sec | .cli | .sei | .cld | .sed | .clv | .nop
  | .stp _ | .invalid _ => []

/-- The bytes of a well-formed instruction, the opcode first (R100, R101); no bytes for a term that is none. -/
def encode (i : Instr) : List Byte :=
  match i.opcode? with
  | some b => b :: i.operandBytes
  | none => []

/-- The descriptor of an instruction (R103): the table's row for its opcode. -/
def Instr.descriptor (i : Instr) : Descriptor :=
  match i.opcode? with
  | some b => Sys2Proof.descriptor b
  | none => sentinel

end Sys2Proof
end

