-- ==== Sys2Proof/Config.lean ====
section
/-!
DEFINITION. What is fixed for the machine, and its free values.

The graphics-register collaborator is outside the block (`20_memory.md` R57, `10_state.md` R33): the byte its
`read_register` answers is arbitrary, drawn anew at each read, and a read or a write may change the collaborator's
own state. So its answer is an OPAQUE function of everything the block has ever sent it (the history of calls that
`State` holds) and of the register asked for: nothing can evaluate it, and no proof can know a value of it
(notes/assumptions/2.md). What the collaborator writes into the graphics-internal space while it serves a call
(R66: its accesses happen "between steps or inside a graphics-register access") is free in the same form
(notes/assumptions/3.md).
-/

namespace Sys2Proof

/-- One transaction of interface (c) of R54, bus to graphics-register collaborator:
`read_register(index 0..=7) -> byte` or `write_register(index, byte)`. -/
inductive GfxCall where
  /-- The register `index` was read and the collaborator answered `answer`. -/
  | read (index : BitVec 3) (answer : Byte)
  /-- The byte `value` was written to the register `index`. -/
  | write (index : BitVec 3) (value : Byte)
deriving DecidableEq, Repr

namespace Config

/-- FREE VALUE (R57, D35, U8): what the collaborator answers to a read of register `index` after the calls `history`. -/
opaque gfxAnswer (history : List GfxCall) (index : BitVec 3) : Byte

/-- FREE VALUE (R66): the writes the collaborator makes in the graphics-internal space while it serves the last call
of `history`, in order, as pairs of a 14-bit address and a byte. -/
opaque gfxInternalWrites (history : List GfxCall) : List (GfxAddr × Byte)

/-- Size of the internal RAM in bytes (R4, R32). -/
def ramSize : Nat := 0x0800

/-- Size of the NROM cartridge RAM in bytes (R4, R32, R70). -/
def prgRamSize : Nat := 0x2000

/-- Size of the video RAM in bytes (R32, D23). -/
def vramSize : Nat := 0x0800

/-- Size of the palette table in bytes (R32, D30). -/
def paletteSize : Nat := 32

/-- The right size of the character ROM in bytes (R73, D29). -/
def chrRomSize : Nat := 8192

end Config

end Sys2Proof
end

