-- ==== Sys2Proof/Machine/Memory.lean ====
section
/-!
DEFINITION. A memory array as plain data: the listed bytes by index, in one canonical form (indexes strictly
rising, no entry equal to what an unlisted index reads as), so that equal memories are equal lists. The arrays of
`10_state.md` R32 and the ROMs are each one `Memory`.
-/

namespace Sys2Proof.Machine

/-- The listed bytes of an array, by index. -/
abbrev Memory := List Host.Cell

namespace Memory

/-- What an index that nothing lists reads as. DESIGN CHOICE, unsafe (notes/assumptions/5.md): the spec makes the
initial contents of every memory a parameter (D6, U3). -/
def unlisted : Byte := 0

/-- The byte at an index. -/
def read : Memory → Nat → Byte
  | [], _ => unlisted
  | (k, v) :: rest, n => if k = n then v else read rest n

/-- The array without an entry for `n`. -/
def erase (m : Memory) (n : Nat) : Memory := m.filter fun c => c.1 != n

/-- The array with an entry placed before the first greater index. -/
def place : Memory → Nat → Byte → Memory
  | [], n, v => [(n, v)]
  | (k, w) :: rest, n, v => if n < k then (n, v) :: (k, w) :: rest else (k, w) :: place rest n v

/-- The array with the byte at `n` set to `v`: writing what an unlisted index reads as removes the entry. -/
def write (m : Memory) (n : Nat) (v : Byte) : Memory :=
  if v = unlisted then erase m n else place (erase m n) n v

/-- Every index is at least `low`, the indexes rise strictly, and no entry is one an unlisted index would give. -/
def canonicalFrom (low : Nat) : Memory → Bool
  | [] => true
  | (k, v) :: rest => decide (low ≤ k) && v != unlisted && canonicalFrom (k + 1) rest

/-- The canonical form. -/
def wf (m : Memory) : Bool := canonicalFrom 0 m

/-- Every listed index lies in an array of `size` bytes. -/
def within (size : Nat) (m : Memory) : Bool := m.all fun c => decide (c.1 < size)

/-- The bytes of an image, from index `start` on, in canonical form. -/
def ofBytesFrom (start : Nat) : List Byte → Memory
  | [] => []
  | v :: rest => if v = unlisted then ofBytesFrom (start + 1) rest else (start, v) :: ofBytesFrom (start + 1) rest

/-- An image, its first byte at index 0 (R310: what the loader passes). -/
def ofBytes (image : List Byte) : Memory := ofBytesFrom 0 image

end Memory

end Sys2Proof.Machine
end

