-- ==== Sys2Proof/Machine/State.lean ====
section
/-!
DEFINITION. The state of the block (`10_state.md` R20), the constants fixed at construction (`00_scope.md` R4), the
record of what crosses the block's interfaces, the reasons a step can stop, and the state after reset (R34).
-/

namespace Sys2Proof.Machine

/-- The run state `RUN` (R29). -/
inductive RunState where
  | running
  | stopped
deriving DecidableEq, Repr

/-- `MAPPER_TYPE` (R4, R71): the mapper variants. -/
inductive Mapper where
  /-- The construction-time guard (R72): a call of it is a fault. -/
  | noMapper
  | nrom
deriving DecidableEq, Repr

/-- The two legal lengths of `PRG_ROM` (R4, R70, R73). -/
inductive PrgSize where
  | kib16
  | kib32
deriving DecidableEq, Repr

/-- `NT_MIRRORING` (R4, R78, D23). -/
inductive Mirroring where
  | vertical
  | horizontal
deriving DecidableEq, Repr

/-- The named diagnostic events (D22). They change no architectural state. -/
inductive Diag where
  | expansionAccess
  | romWrite
  | belowRamWindowWrite
  | stackWrap
  | unusedGfxAccess
deriving DecidableEq, Repr

/-- What a step is seen to do on the CPU-visible bus, in order (R7, R54(a)), and the diagnostic events it raises. -/
inductive Event where
  | read (addr : Word) (value : Byte)
  | write (addr : Word) (value : Byte)
  | diag (d : Diag)
deriving DecidableEq, Repr

/-- The outcomes of a step (R284). -/
inductive StepOutcome where
  | ok (cycles : Nat)
  | decodeError (opcode : Byte)
  | halt
deriving DecidableEq, Repr

/-- Why a step stops with no next state. -/
inductive Fault where
  /-- Raised by every access of cartridge space while the mapper is `noMapper`: "guard that fails loudly if ever
  invoked" (R72), treated as a fault that is never a final state (`93_implementation_defined.md` U9). Safe: no
  machine that `construct` builds holds `noMapper`. -/
  | noMapperInvoked
deriving DecidableEq, Repr

/-- Why the model gives an instruction no meaning. -/
inductive Refusal where
  /-- Raised by an arm of `exec` whose instruction has no meaning yet; there is no such arm. Safe. -/
  | notModelled (mnemonic : String)
deriving DecidableEq, Repr

/-- The state. `a` to `palette` are the spec's state (R20); `mapper` to `mirroring` are the constants fixed at
construction (R4, R20), which no step writes; `gfx`, `events` and `outcome` record what crosses the block's
interfaces and are the model's own (notes/assumptions/1.md, 2.md, 4.md). -/
structure State where
  /-- The accumulator (R21). -/
  a : Byte
  /-- Index register X (R22). -/
  x : Byte
  /-- Index register Y (R23). -/
  y : Byte
  /-- The stack pointer (R24). -/
  sp : Byte
  /-- The status register, bits C Z I D B U V N from bit 0 (R26). -/
  p : Byte
  /-- The program counter (R25): between steps, the address of the next opcode byte. -/
  pc : Word
  /-- The run state (R29). -/
  run : RunState
  /-- The internal RAM, by index 0 to 0x07FF (R32, R55). -/
  ram : Memory
  /-- The NROM cartridge RAM, by index 0 to 0x1FFF (R32, R70). -/
  prgRam : Memory
  /-- The video RAM, by index 0 to 0x07FF (R32, R78). -/
  vram : Memory
  /-- The palette table, by index 0 to 31 (R32, R80). -/
  palette : Memory
  /-- `MAPPER_TYPE` (R4). -/
  mapper : Mapper
  /-- The length of `PRG_ROM` (R4, R70). -/
  prgSize : PrgSize
  /-- `PRG_ROM` (R4, R70). -/
  prgRom : Memory
  /-- `CHR_ROM` (R4, R77). -/
  chrRom : Memory
  /-- `NT_MIRRORING` (R4, R78). -/
  mirroring : Mirroring
  /-- Every call of the graphics-register interface so far, oldest first (R54(c)); the free answers are applied to it. -/
  gfx : List GfxCall
  /-- The bus accesses and diagnostic events of the current or last step, in order (R7). -/
  events : List Event
  /-- What the last step returned (R284); `none` before the first one. -/
  outcome : Option StepOutcome
deriving DecidableEq, Repr

/-- The state after reset (R34): the registers at the values of D4, `RUN` at `Running` (D12), and, as DESIGN CHOICES
where the spec has parameters, memories with nothing listed (notes/assumptions/5.md), NROM with an empty 32 KiB
program ROM (7.md), and so `PC` at the default `RESET_PC`, the word at 0xFFFC, which reads 0x0000 there (R311, 8.md). -/
def State.reset : State where
  a := 0x00
  x := 0x00
  y := 0x00
  sp := 0xFD
  p := 0x24
  pc := 0x0000
  run := .running
  ram := []
  prgRam := []
  vram := []
  palette := []
  mapper := .nrom
  prgSize := .kib32
  prgRom := []
  chrRom := []
  mirroring := .vertical
  gfx := []
  events := []
  outcome := none

end Sys2Proof.Machine
end

