-- ==== Sys2Proof/Machine/Flags.lean ====
section
/-!
DEFINITION. The flags of the status register `P` (`10_state.md` R26) and every flag computation the spec gives:
`SetZN` (R27), the adder (`42_arith_logic.md` R170), the comparator (R171), BIT (R180), the shifts
(`43_shift_rotate.md` R200), and the pushed and pulled status bytes (`44_stack.md` R213, R214).
-/

namespace Sys2Proof.Machine

/-- The eight flags of `P`, in the order of R26. -/
inductive Flag where
  | c | z | i | d | b | u | v | n
deriving DecidableEq, Repr

/-- The bit of a flag in `P` (R26). -/
def Flag.bit : Flag → Nat
  | .c => 0
  | .z => 1
  | .i => 2
  | .d => 3
  | .b => 4
  | .u => 5
  | .v => 6
  | .n => 7

/-- The byte with only the flag's bit set. -/
def Flag.mask (f : Flag) : Byte := BitVec.twoPow 8 f.bit

/-- `P.f` as a truth value (R6). -/
def Flag.read (f : Flag) (p : Byte) : Bool := p.getLsbD f.bit

/-- `P.f <- b`: one bit written, the others left (R6). -/
def Flag.write (f : Flag) (b : Bool) (p : Byte) : Byte := if b then p ||| f.mask else p &&& ~~~f.mask

/-- A truth value as the number R170 adds. -/
def carryIn (c : Bool) : Nat := if c then 1 else 0

/-- `SetZN(r)` (R27). -/
def setZN (r p : Byte) : Byte := Flag.n.write r.msb (Flag.z.write (r == 0) p)

/-! ### The adder (R170) -/

/-- The unbounded sum `s` of R170. -/
def addSum (a m : Byte) (c : Bool) : Nat := a.toNat + m.toNat + carryIn c

/-- The result byte `r = s[7:0]` of R170. -/
def addResult (a m : Byte) (c : Bool) : Byte := BitVec.ofNat 8 (addSum a m c)

/-- Signed overflow as R170 computes it: the operands share a sign and the result's sign differs. -/
def addOverflow (a m r : Byte) : Bool := (a ^^^ r) &&& (m ^^^ r) &&& 0x80 != 0

/-- The status after `AddCore(m)` from accumulator `a` and status `p` (R170). -/
def addFlags (a m p : Byte) : Byte :=
  let r := addResult a m (Flag.c.read p)
  setZN r (Flag.v.write (addOverflow a m r) (Flag.c.write (decide (addSum a m (Flag.c.read p) > 255)) p))

/-! ### The comparator (R171) and BIT (R180) -/

/-- The status after `CompareCore(reg, m)` (R171). -/
def compareFlags (reg m p : Byte) : Byte := setZN (reg - m) (Flag.c.write (decide (m ≤ reg)) p)

/-- The status after BIT of the operand `m` (R180). -/
def bitFlags (a m p : Byte) : Byte :=
  Flag.v.write (m.getLsbD 6) (Flag.n.write (m.getLsbD 7) (Flag.z.write (a &&& m == 0) p))

/-! ### The shift cores (R200): each gives the result byte and the carry out -/

/-- `AslCore`: bit 7 out, 0 in. -/
def aslCore (v : Byte) : Byte × Bool := (v <<< 1, v.getLsbD 7)

/-- `LsrCore`: bit 0 out, 0 in. -/
def lsrCore (v : Byte) : Byte × Bool := (v >>> 1, v.getLsbD 0)

/-- `RolCore`: bit 7 out, the previous carry in. -/
def rolCore (c : Bool) (v : Byte) : Byte × Bool := (v <<< 1 ||| (if c then 0x01 else 0x00), v.getLsbD 7)

/-- `RorCore`: bit 0 out, the previous carry in. -/
def rorCore (c : Bool) (v : Byte) : Byte × Bool := (v >>> 1 ||| (if c then 0x80 else 0x00), v.getLsbD 0)

/-- The status after a shift core that gave `rc` (R200). -/
def shiftFlags (rc : Byte × Bool) (p : Byte) : Byte := setZN rc.1 (Flag.c.write rc.2 p)

/-! ### ANC and ARR (R260, R261) -/

/-- The status ANC leaves for the result `r`: Carry takes the value of Negative (R260). -/
def ancFlags (r p : Byte) : Byte := Flag.c.write (r.getLsbD 7) (setZN r p)

/-- The status ARR leaves for the rotated result `r`: C is bit 6, V is bit 6 xor bit 5 (R261). -/
def arrFlags (r p : Byte) : Byte :=
  Flag.v.write (r.getLsbD 6 ^^ r.getLsbD 5) (Flag.c.write (r.getLsbD 6) (setZN r p))

/-! ### Pushed and pulled status -/

/-- The byte PHP and BRK push: Unused and Break set (R213, R233). -/
def pushedStatus (p : Byte) : Byte := p ||| 0x30

/-- The status PLP and RTI load: Break cleared, Unused set (R214, R232). -/
def pulledStatus (v : Byte) : Byte := (v &&& 0xEF) ||| 0x20

end Sys2Proof.Machine
end

