-- ==== Sys2Proof/Machine/Ops.lean ====
section
/-!
DEFINITION. The named operations every meaning is built from: the bus decoder (`20_memory.md` R51 to R53), the mapper
(R70 to R72), the graphics-register interface (R56, R57), the address decoding of the graphics-internal space
(R74 to R80), the stack primitives (`44_stack.md` R210), the register cores, and taking an exception.

A read is a value (`State.readByte`) and a state after it (`State.afterRead`), because a read of a graphics register
changes the collaborator and every access is recorded; `memRead` and `memWrite` put the two together and fault where
the access would invoke `NoMapper`. Zero-page pointers and the stack are always RAM, so they use the pure forms.
-/

namespace Sys2Proof.Machine

/-- A step's outcome in the host's form. -/
abbrev Result := Host.Outcome State Fault Refusal

/-- The host's form of a computation that can only fault. -/
def toResult : Except Fault State → Result
  | .ok s => .next s
  | .error f => .fault f

/-! ### Constants of the address map -/

/-- The byte read from the stubbed ranges (R58, R59, D16; notes/assumptions/11.md). -/
def stubReadValue : Byte := 0x00

/-- The stack page (R24, D3). -/
def stackPage : Byte := 0x01

/-- Where BRK's vector lies: low byte here, high byte at the next address (R233, D11). -/
def brkVector : Word := 0xFFFE

/-- Where the default `RESET_PC` lies (R311, D5). -/
def resetVector : Word := 0xFFFC

/-! ### The address decoder (R51) -/

/-- The seven ranges of R51. -/
inductive Region where
  | cartridge
  | expansion
  | audioIo
  | gfxMirror
  | gfxRegister
  | ramMirror
  | ram
deriving DecidableEq, Repr

/-- The range an address falls in, tested from the highest boundary downward (R51). -/
def region (addr : Word) : Region :=
  if 0x6000 ≤ addr then .cartridge
  else if 0x4020 ≤ addr then .expansion
  else if 0x4000 ≤ addr then .audioIo
  else if 0x2008 ≤ addr then .gfxMirror
  else if 0x2000 ≤ addr then .gfxRegister
  else if 0x0800 ≤ addr then .ramMirror
  else .ram

/-- Whether an address selects a graphics register (R56). -/
def isGfx (addr : Word) : Bool :=
  match region addr with
  | .gfxMirror | .gfxRegister => true
  | .cartridge | .expansion | .audioIo | .ramMirror | .ram => false

/-- Whether an address selects the internal RAM (R55). -/
def isRam (addr : Word) : Bool :=
  match region addr with
  | .ramMirror | .ram => true
  | .cartridge | .expansion | .audioIo | .gfxMirror | .gfxRegister => false

/-- The graphics register an address of that range selects, `addr mod 8` (R52, R56). -/
def gfxIndex (addr : Word) : BitVec 3 := addr.extractLsb' 0 3

/-- The index into `RAM` of an address of that range, `addr[10:0]` (R52, R55). -/
def ramIndex (addr : Word) : Nat := addr.toNat % 0x0800

/-! ### The mapper (R70 to R72) -/

/-- The length in bytes of `PRG_ROM` (R70). -/
def PrgSize.bytes : PrgSize → Nat
  | .kib16 => 16384
  | .kib32 => 32768

/-- The index into `PRG_ROM` of an address from 0x8000 on: 16 KiB are mirrored in both halves (R70). -/
def prgRomIndex (size : PrgSize) (addr : Word) : Nat := (addr.toNat - 0x8000) % size.bytes

/-- The index into the cartridge RAM of an address of its window (R70). -/
def prgRamIndex (addr : Word) : Nat := addr.toNat - 0x6000

/-- Whether an address lies in the cartridge RAM window 0x6000 to 0x7FFF (R70). -/
def isPrgRam (addr : Word) : Bool := decide (0x6000 ≤ addr) && decide (addr < 0x8000)

/-- `NROM.read(addr)` (R70). The last branch is unreachable from the bus (D17). -/
def State.nromRead (s : State) (addr : Word) : Byte :=
  if 0x8000 ≤ addr then s.prgRom.read (prgRomIndex s.prgSize addr)
  else if 0x6000 ≤ addr then s.prgRam.read (prgRamIndex addr)
  else 0x00

/-- The cartridge RAM after `NROM.write(addr, v)`: writes outside the window are dropped (R70). -/
def State.nromWrite (s : State) (addr : Word) (v : Byte) : Memory :=
  if isPrgRam addr then s.prgRam.write (prgRamIndex addr) v else s.prgRam

/-- The diagnostic events of `NROM.write(addr, v)` (R70). -/
def nromWriteDiags (addr : Word) : List Event :=
  if 0x8000 ≤ addr then [.diag .romWrite]
  else if 0x6000 ≤ addr then []
  else [.diag .belowRamWindowWrite]

/-- Whether an access of `addr` reaches a mapper that answers: false exactly where it would invoke `NoMapper` (R60, R72). -/
def State.busOk (s : State) (addr : Word) : Bool :=
  match region addr, s.mapper with
  | .cartridge, .noMapper => false
  | _, _ => true

/-! ### The graphics-internal space (R74 to R80) -/

/-- The four ranges of the graphics-internal space (R75). -/
inductive GfxRegion where
  | pattern
  | nameTable
  | unused
  | palette
deriving DecidableEq, Repr

/-- The range a graphics-internal address falls in (R75). -/
def gfxRegion (addr : GfxAddr) : GfxRegion :=
  if addr ≤ 0x1FFF then .pattern
  else if addr ≤ 0x2FFF then .nameTable
  else if addr ≤ 0x3EFF then .unused
  else .palette

/-- The index into `VRAM` of a name-table address: table `n`, offset `o`, page by the mirroring mode (R78). -/
def vramIndex (mirroring : Mirroring) (addr : GfxAddr) : Nat :=
  let n := (addr.toNat - 0x2000) / 0x0400 % 4
  let o := addr.toNat % 0x0400
  let page := match mirroring with
    | .vertical => n % 2
    | .horizontal => n / 2
  page * 0x0400 + o

/-- The index into `PALETTE` of a palette address (R80). -/
def paletteIndex (addr : GfxAddr) : Nat := (addr.toNat - 0x3F00) % 32

/-- The video RAM after a graphics-internal write (R76, R78). -/
def vramWrite (mirroring : Mirroring) (vram : Memory) (w : GfxAddr × Byte) : Memory :=
  match gfxRegion w.1 with
  | .nameTable => vram.write (vramIndex mirroring w.1) w.2
  | .pattern | .unused | .palette => vram

/-- The palette table after a graphics-internal write (R76, R80). -/
def paletteWrite (palette : Memory) (w : GfxAddr × Byte) : Memory :=
  match gfxRegion w.1 with
  | .palette => palette.write (paletteIndex w.1) w.2
  | .pattern | .nameTable | .unused => palette

/-! ### The graphics-register interface (R56, R57) -/

/-- What the collaborator answers to a read of `addr` in this state: a free value (R57, D35). -/
def State.gfxAnswer (s : State) (addr : Word) : Byte := Config.gfxAnswer s.gfx (gfxIndex addr)

/-- The state after a call of the graphics-register interface: the call is recorded, and the collaborator has made its
own (free) writes in the graphics-internal space while serving it (R57, R66). -/
def State.gfxCall (s : State) (c : GfxCall) : State :=
  let history := s.gfx ++ [c]
  let writes := Config.gfxInternalWrites history
  { s with
    gfx := history
    vram := writes.foldl (vramWrite s.mirroring) s.vram
    palette := writes.foldl paletteWrite s.palette }

/-! ### The bus: one byte read and one byte written (R52, R53) -/

/-- Record bus events (R7). -/
def State.log (s : State) (es : List Event) : State := { s with events := s.events ++ es }

/-- The byte a read of `addr` returns in this state (R52), the cartridge being NROM. -/
def State.readByte (s : State) (addr : Word) : Byte :=
  match region addr with
  | .cartridge => s.nromRead addr
  | .expansion | .audioIo => stubReadValue
  | .gfxMirror | .gfxRegister => s.gfxAnswer addr
  | .ramMirror | .ram => s.ram.read (ramIndex addr)

/-- The diagnostic events of a read (R52, R59). -/
def readDiags (addr : Word) : List Event :=
  match region addr with
  | .expansion => [.diag .expansionAccess]
  | .cartridge | .audioIo | .gfxMirror | .gfxRegister | .ramMirror | .ram => []

/-- The state after the interface call a read makes, if it makes one (R56, R57). -/
def State.gfxAfterRead (s : State) (addr : Word) : State :=
  if isGfx addr then s.gfxCall (.read (gfxIndex addr) (s.gfxAnswer addr)) else s

/-- The state after a read of `addr` (R52): the read is recorded, and a graphics register's read is a call. -/
def State.afterRead (s : State) (addr : Word) : State :=
  { s with
    gfx := (s.gfxAfterRead addr).gfx
    vram := (s.gfxAfterRead addr).vram
    palette := (s.gfxAfterRead addr).palette
    events := s.events ++ .read addr (s.readByte addr) :: readDiags addr }

/-- The diagnostic events of a write (R53, R59, R70). -/
def writeDiags (addr : Word) : List Event :=
  match region addr with
  | .cartridge => nromWriteDiags addr
  | .expansion => [.diag .expansionAccess]
  | .audioIo | .gfxMirror | .gfxRegister | .ramMirror | .ram => []

/-- The state after the interface call a write makes, if it makes one (R56, R57). -/
def State.gfxAfterWrite (s : State) (addr : Word) (v : Byte) : State :=
  if isGfx addr then s.gfxCall (.write (gfxIndex addr) v) else s

/-- The state after a write of `v` to `addr` (R53), the cartridge being NROM. -/
def State.afterWrite (s : State) (addr : Word) (v : Byte) : State :=
  { s with
    ram := if isRam addr then s.ram.write (ramIndex addr) v else s.ram
    prgRam := s.nromWrite addr v
    gfx := (s.gfxAfterWrite addr v).gfx
    vram := (s.gfxAfterWrite addr v).vram
    palette := (s.gfxAfterWrite addr v).palette
    events := s.events ++ .write addr v :: writeDiags addr }

/-- `MemRead(addr, 1)` (R52): the byte and the state after the read. -/
def memRead (addr : Word) (s : State) : Except Fault (Byte × State) :=
  if s.busOk addr then .ok (s.readByte addr, s.afterRead addr) else .error .noMapperInvoked

/-- `MemWrite(addr, 1, v)` (R53): the state after the write. -/
def memWrite (addr : Word) (v : Byte) (s : State) : Except Fault State :=
  if s.busOk addr then .ok (s.afterWrite addr v) else .error .noMapperInvoked

/-- Two reads that make a 16-bit value, the low byte's first (R61). -/
def memReadWord (lo hi : Word) (s : State) : Except Fault (Word × State) := do
  let (l, t) ← memRead lo s
  let (h, u) ← memRead hi t
  pure (word h l, u)

/-! ### Storage bytes -/

/-- The byte of storage an address names, mirroring taken into account (R66: "same storage byte"): which array, and
the index in it. Device registers and stubs are no storage. -/
inductive Storage where
  | ram (index : Nat)
  | prgRam (index : Nat)
  | prgRom (index : Nat)
deriving DecidableEq, Repr

/-- The storage byte of an address (R55, R66, R70). -/
def storageOf (size : PrgSize) (addr : Word) : Option Storage :=
  match region addr with
  | .ramMirror | .ram => some (.ram (ramIndex addr))
  | .cartridge =>
    if 0x8000 ≤ addr then some (.prgRom (prgRomIndex size addr)) else some (.prgRam (prgRamIndex addr))
  | .expansion | .audioIo | .gfxMirror | .gfxRegister => none

/-- Whether a write to an address changes storage: RAM and the cartridge RAM window; every other write is dropped or
goes to a device (R53, R70). -/
def isWritable (addr : Word) : Bool := isRam addr || isPrgRam addr

/-! ### The program counter and the stack -/

/-- `PC <- PC +16 n` (R25, R280). -/
def State.advance (s : State) (n : Nat) : State := { s with pc := s.pc + BitVec.ofNat 16 n }

/-- `PC <- target` (R25, R229). -/
def State.jump (s : State) (target : Word) : State := { s with pc := target }

/-- The stack location `{0x01, SP}` (R24, R210). -/
def stackAddr (sp : Byte) : Word := word stackPage sp

/-- The diagnostic event of a stack pointer that wraps (R210, D22). -/
def wrapDiags (wraps : Bool) : List Event := if wraps then [.diag .stackWrap] else []

/-- `Push(v)` (R210): write at `{0x01, SP}`, then decrement. The stack page is RAM, so no mapper is involved. -/
def State.push (s : State) (v : Byte) : State :=
  let t := (s.afterWrite (stackAddr s.sp) v).log (wrapDiags (s.sp == 0x00))
  { t with sp := s.sp - 1 }

/-- The byte `Pull()` returns (R210): the one above the stack pointer. -/
def State.pullByte (s : State) : Byte := s.readByte (stackAddr (s.sp + 1))

/-- The state after `Pull()` (R210): increment, then read. -/
def State.afterPull (s : State) : State :=
  let t := (s.afterRead (stackAddr (s.sp + 1))).log (wrapDiags (s.sp == 0xFF))
  { t with sp := s.sp + 1 }

/-! ### Register cores -/

/-- A register written from a result, with `SetZN` (R27). -/
def State.loadA (s : State) (v : Byte) : State := { s with a := v, p := setZN v s.p }

/-- As `loadA`, for X. -/
def State.loadX (s : State) (v : Byte) : State := { s with x := v, p := setZN v s.p }

/-- As `loadA`, for Y. -/
def State.loadY (s : State) (v : Byte) : State := { s with y := v, p := setZN v s.p }

/-- The whole status register written. -/
def State.loadStatus (s : State) (p : Byte) : State := { s with p := p }

/-- One flag written (R6). -/
def State.setFlag (s : State) (f : Flag) (b : Bool) : State := s.loadStatus (f.write b s.p)

/-- `AddCore(m)` (R170). `P.D` is not read (D8). -/
def State.addCore (s : State) (m : Byte) : State :=
  { s with a := addResult s.a m (Flag.c.read s.p), p := addFlags s.a m s.p }

/-- `CompareCore(reg, m)` (R171). -/
def State.compareCore (s : State) (reg m : Byte) : State := s.loadStatus (compareFlags reg m s.p)

/-! ### Taking an exception, and returning -/

/-- What BRK saves and masks, from a state whose PC is past the opcode: push the address after the byte that follows
BRK, high byte first, push the status with Unused and Break set, and set I (R233, D11). -/
def State.saveForBreak (s : State) : State :=
  let ret := s.pc + 1
  (((s.push (hiByte ret)).push (loByte ret)).push (pushedStatus s.p)).setFlag .i true

/-- BRK's entry, the only vectored transfer of the hardware (R233, R287), from a state whose PC is past the opcode:
save and mask, then load PC from the vector, low byte first. -/
def takeBreak (s : State) : Except Fault State := do
  let (target, t) ← memReadWord brkVector (brkVector + 1) s.saveForBreak
  pure (t.jump target)

/-- RTI (R232, R288): pull the status, then PC low and high, adding nothing. -/
def State.returnFromInterrupt (s : State) : State :=
  let u := s.afterPull.loadStatus (pulledStatus s.pullByte)
  let v := u.afterPull
  v.afterPull.jump (word v.pullByte u.pullByte)

/-- The step's outcome is `DecodeError(op)`; nothing else changes (R281). -/
def State.raiseDecodeError (s : State) (opcode : Byte) : State := { s with outcome := some (.decodeError opcode) }

/-- The step's outcome is `Halt` (R282, R283). -/
def State.raiseHalt (s : State) : State := { s with outcome := some .halt }

/-- The step's outcome is `Ok(cycles)` (R280, R284). -/
def State.finishOk (s : State) (cycles : Nat) : State := { s with outcome := some (.ok cycles) }

end Sys2Proof.Machine
end

