-- ==== Sys2Proof/Machine/Timing.lean ====
section
/-!
DEFINITION. The cycle count a step returns (`60_exceptions.md` R291, `70_reset_and_hazards.md` R331, R332). It is an
output: no register or memory value depends on it (notes/assumptions/16.md).
-/

namespace Sys2Proof.Machine

/-- The base cycle cost of an instruction's descriptor (R103, R331); STP has none and returns no count. -/
def baseCycles (i : Instr) : Nat := i.descriptor.baseCycles.getD 0

/-- The count of an instruction that is no branch: the base cost, plus the descriptor's page-cross bonus if the
resolver reported a crossing (R144, R291). -/
def cycles (i : Instr) (crossed : Bool) : Nat :=
  baseCycles i + if crossed then i.descriptor.pageCrossBonus else 0

/-- The count of a branch: the base cost, 1 more if taken, and 1 more again if taken to another page than that of the
byte after the branch (R220, R332, D13). -/
def branchCycles (i : Instr) (taken crossed : Bool) : Nat :=
  baseCycles i + if taken then (if crossed then 2 else 1) else 0

end Sys2Proof.Machine
end

