-- ==== Sys2Proof/Machine/Operands.lean ====
section
/-!
DEFINITION. The addressing-mode resolver (`40_addressing.md`) and the shapes of instruction built on it: what R280
does around a handler (resolve, advance PC, execute, return the count), once for each shape of operand.

`exec` is entered with PC at the opcode byte, and the shapes below advance it by the whole length after resolving;
nothing can see the two moves of R280 apart (notes/assumptions/10.md).
-/

namespace Sys2Proof.Machine

/-! ### The resolver -/

/-- The shape `Addr(ea, crossed)` of R9. The other shapes are the operand forms themselves: `Imm(v)` is
`Src.immediate v`, `Acc` is `Shiftee.accumulator`, `None` is an instruction with no operand field. -/
structure Resolved where
  ea : Word
  crossed : Bool
deriving DecidableEq, Repr

/-- Page cross: the computation changes the high byte (R144). -/
def pageCrossed (base ea : Word) : Bool := hiByte ea != hiByte base

/-- A base address plus an index register, modulo 65536, with the page-cross bit (R135, R136, R139). -/
def indexed (base : Word) (index : Byte) : Resolved :=
  let ea := base + zext16 index
  ⟨ea, pageCrossed base ea⟩

/-- The two reads of a zero-page pointer, low byte first: the high byte's address wraps inside page zero (R138, R139). -/
def State.zeroPagePointer (s : State) (z : Byte) : Word × State :=
  let t := s.afterRead (zext16 z)
  (word (t.readByte (zext16 (z + 1))) (s.readByte (zext16 z)), t.afterRead (zext16 (z + 1)))

/-- `Resolve` for the data modes: the effective address and page-cross bit, and the state after the pointer reads the
mode makes (R131 to R136, R138, R139, R145). -/
def State.resolve (s : State) : Mem → Resolved × State
  | .zeroPage i => (⟨zext16 i, false⟩, s)
  | .zeroPageX i => (⟨zext16 (i + s.x), false⟩, s)
  | .zeroPageY i => (⟨zext16 (i + s.y), false⟩, s)
  | .absolute w => (⟨w, false⟩, s)
  | .absoluteX w => (indexed w s.x, s)
  | .absoluteY w => (indexed w s.y, s)
  | .indirectX i =>
    let r := s.zeroPagePointer (i + s.x)
    (⟨r.1, false⟩, r.2)
  | .indirectY i =>
    let r := s.zeroPagePointer i
    (indexed r.1 s.y, r.2)

/-- The effective address of a memory operand in a state. -/
def State.effAddr (s : State) (m : Mem) : Word := (s.resolve m).1.ea

/-- The page-cross bit of a memory operand in a state. -/
def State.crosses (s : State) (m : Mem) : Bool := (s.resolve m).1.crossed

/-- The state in which a handler with a memory operand runs: pointer reads made, PC past the instruction (R280). -/
def State.resolved (s : State) (m : Mem) : State := (s.resolve m).2.advance m.mode.length

/-- The address of the high byte of JMP's pointer: only the low byte is incremented (R137). -/
def pointerHigh (ptr : Word) : Word := word (hiByte ptr) (loByte ptr + 1)

/-- Relative (R140): the displacement added to the address after the branch at `pc`, which is two bytes long. -/
def relativeTarget (pc : Word) (i : Byte) : Resolved :=
  let next := pc + 2
  let ea := next + sext16 i
  ⟨ea, pageCrossed next ea⟩

/-! ### `Operand()` (R9), for a state and a source operand -/

/-- The value of the operand, the cartridge being NROM. -/
def State.operand (s : State) : Src → Byte
  | .immediate v => v
  | .mem m => (s.resolved m).readByte (s.effAddr m)

/-- The state after the operand is read, PC past the instruction. -/
def State.afterOperand (s : State) : Src → State
  | .immediate _ => s.advance 2
  | .mem m => (s.resolved m).afterRead (s.effAddr m)

/-- The page-cross bit of the operand. -/
def State.operandCrosses (s : State) : Src → Bool
  | .immediate _ => false
  | .mem m => s.crosses m

/-- Whether reading the operand invokes no `NoMapper` (R72). -/
def State.operandOk (s : State) : Src → Bool
  | .immediate _ => true
  | .mem m => s.busOk (s.effAddr m)

/-! ### The shapes of instruction -/

/-- An instruction that reads its operand and then works on registers alone: `handler` is given the operand. -/
def readInstr (i : Instr) (o : Src) (handler : Byte → State → State) (s : State) : Result :=
  if s.operandOk o then
    .next ((handler (s.operand o) (s.afterOperand o)).finishOk (cycles i (s.operandCrosses o)))
  else .fault .noMapperInvoked

/-- An instruction that writes one byte, computed from the registers, to its effective address (R153 to R155, R258). -/
def storeInstr (i : Instr) (m : Mem) (value : State → Byte) (s : State) : Result :=
  toResult do
    let t ← memWrite (s.effAddr m) (value s) (s.resolved m)
    pure (t.finishOk (cycles i (s.crosses m)))

/-- A read-modify-write instruction: one read, one write of the produced byte, then a second half on the registers
that is given that byte (R63, R181, R201, R250). `modify` gives the produced byte and the state with its flags. -/
def modifyInstr (i : Instr) (m : Mem) (modify : Byte → State → Byte × State) (second : Byte → State → State)
    (s : State) : Result :=
  toResult do
    let (v, t) ← memRead (s.effAddr m) (s.resolved m)
    let (r, u) := modify v t
    let w ← memWrite (s.effAddr m) r u
    pure ((second r w).finishOk (cycles i (s.crosses m)))

/-- An instruction of one byte with no operand, working on registers and the stack. -/
def impliedInstr (i : Instr) (handler : State → State) (s : State) : Result :=
  .next ((handler (s.advance 1)).finishOk (cycles i false))

/-- A shift core as a `modify` (R200): the result byte, and the state with C, Z and N written. `core` is given the
previous carry. -/
def shiftModify (core : Bool → Byte → Byte × Bool) (v : Byte) (s : State) : Byte × State :=
  let rc := core (Flag.c.read s.p) v
  (rc.1, s.loadStatus (shiftFlags rc s.p))

/-- A shift or rotate: on the accumulator, or read-modify-write (R201). -/
def shiftInstr (i : Instr) (o : Shiftee) (core : Bool → Byte → Byte × Bool) (s : State) : Result :=
  match o with
  | .accumulator => impliedInstr i (fun t => { (shiftModify core t.a t).2 with a := (shiftModify core t.a t).1 }) s
  | .mem m => modifyInstr i m (shiftModify core) (fun _ t => t) s

/-- INC and DEC as a `modify`: the stepped byte, with `SetZN` (R181, R182). -/
def stepModify (f : Byte → Byte) (v : Byte) (s : State) : Byte × State := (f v, s.loadStatus (setZN (f v) s.p))

/-- A branch (R220): PC to the target if the flag has the polarity, else past the branch. -/
def branchInstr (i : Instr) (flag : Flag) (polarity : Bool) (displacement : Byte) (s : State) : Result :=
  let target := relativeTarget s.pc displacement
  let taken := flag.read s.p == polarity
  let t := s.advance 2
  .next ((t.jump (if taken then target.ea else t.pc)).finishOk (branchCycles i taken target.crossed))

end Sys2Proof.Machine
end

