-- ==== Sys2Proof/Machine/Arith.lean ====
section
/-!
DEFINITION. Arithmetic, logic, compare, bit test, increment and decrement (`42_arith_logic.md`).
-/

namespace Sys2Proof.Machine

/-- ADC (R172). -/
def execAdc (o : Src) (s : State) : Result := readInstr (.adc o) o (fun m t => t.addCore m) s

/-- SBC (R173): the adder on the one's complement of the operand. -/
def execSbc (o : Src) (s : State) : Result := readInstr (.sbc o) o (fun m t => t.addCore (~~~m)) s

/-- AND (R174). -/
def execAnd (o : Src) (s : State) : Result := readInstr (.and o) o (fun m t => t.loadA (t.a &&& m)) s

/-- ORA (R175). -/
def execOra (o : Src) (s : State) : Result := readInstr (.ora o) o (fun m t => t.loadA (t.a ||| m)) s

/-- EOR (R176). -/
def execEor (o : Src) (s : State) : Result := readInstr (.eor o) o (fun m t => t.loadA (t.a ^^^ m)) s

/-- CMP (R177). -/
def execCmp (o : Src) (s : State) : Result := readInstr (.cmp o) o (fun m t => t.compareCore t.a m) s

/-- CPX (R178). -/
def execCpx (o : Src) (s : State) : Result := readInstr (.cpx o) o (fun m t => t.compareCore t.x m) s

/-- CPY (R179). -/
def execCpy (o : Src) (s : State) : Result := readInstr (.cpy o) o (fun m t => t.compareCore t.y m) s

/-- BIT (R180): N and V from the operand, Z from the AND. -/
def execBit (m : Mem) (s : State) : Result :=
  readInstr (.bit m) (.mem m) (fun v t => t.loadStatus (bitFlags t.a v t.p)) s

/-- INC (R181): one read, one write. -/
def execInc (m : Mem) (s : State) : Result := modifyInstr (.inc m) m (stepModify (· + 1)) (fun _ t => t) s

/-- DEC (R182). -/
def execDec (m : Mem) (s : State) : Result := modifyInstr (.dec m) m (stepModify (· - 1)) (fun _ t => t) s

/-- INX (R183). -/
def execInx (s : State) : Result := impliedInstr .inx (fun t => t.loadX (t.x + 1)) s

/-- INY (R184). -/
def execIny (s : State) : Result := impliedInstr .iny (fun t => t.loadY (t.y + 1)) s

/-- DEX (R185). -/
def execDex (s : State) : Result := impliedInstr .dex (fun t => t.loadX (t.x - 1)) s

/-- DEY (R186). -/
def execDey (s : State) : Result := impliedInstr .dey (fun t => t.loadY (t.y - 1)) s

end Sys2Proof.Machine
end

