-- ==== Sys2Proof/Machine/Control.lean ====
section
/-!
DEFINITION. Branches, jumps, calls, returns and BRK (`45_control_flow.md`). Which flag and polarity a branch tests is
the table of R220.
-/

namespace Sys2Proof.Machine

/-- BCC (R221). -/
def execBcc (i : Byte) (s : State) : Result := branchInstr (.bcc i) .c false i s

/-- BCS (R222). -/
def execBcs (i : Byte) (s : State) : Result := branchInstr (.bcs i) .c true i s

/-- BEQ (R223). -/
def execBeq (i : Byte) (s : State) : Result := branchInstr (.beq i) .z true i s

/-- BNE (R224). -/
def execBne (i : Byte) (s : State) : Result := branchInstr (.bne i) .z false i s

/-- BMI (R225). -/
def execBmi (i : Byte) (s : State) : Result := branchInstr (.bmi i) .n true i s

/-- BPL (R226). -/
def execBpl (i : Byte) (s : State) : Result := branchInstr (.bpl i) .n false i s

/-- BVC (R227). -/
def execBvc (i : Byte) (s : State) : Result := branchInstr (.bvc i) .v false i s

/-- BVS (R228). -/
def execBvs (i : Byte) (s : State) : Result := branchInstr (.bvs i) .v true i s

/-- JMP (R229): to the literal, or through a pointer whose high byte never leaves the pointer's page (R137). -/
def execJmp (t : JumpTarget) (s : State) : Result :=
  match t with
  | .absolute w => .next ((s.jump w).finishOk (cycles (.jmp t) false))
  | .indirect ptr =>
    toResult do
      let (target, u) ← memReadWord ptr (pointerHigh ptr) s
      pure ((u.jump target).finishOk (cycles (.jmp t) false))

/-- JSR (R230): push the address of its own last byte, high byte first. -/
def execJsr (w : Word) (s : State) : Result :=
  let t := s.advance 3
  let ret := t.pc - 1
  .next ((((t.push (hiByte ret)).push (loByte ret)).jump w).finishOk (cycles (.jsr w) false))

/-- RTS (R231): pull the address, low byte first, and add 1. -/
def execRts (s : State) : Result :=
  let t := s.afterPull
  .next ((t.afterPull.jump (word t.pullByte s.pullByte + 1)).finishOk (cycles .rts false))

/-- RTI (R232). -/
def execRti (s : State) : Result := .next (s.returnFromInterrupt.finishOk (cycles .rti false))

/-- BRK (R233): the exception entry of the hardware, from the byte after the opcode. -/
def execBrk (s : State) : Result :=
  toResult do
    let t ← takeBreak (s.advance 1)
    pure (t.finishOk (cycles .brk false))

end Sys2Proof.Machine
end

