-- ==== Sys2Proof/Machine/FlagOps.lean ====
section
/-!
DEFINITION. The flag instructions and the official NOP (`46_flags_nop.md`).
-/

namespace Sys2Proof.Machine

/-- CLC (R240). -/
def execClc (s : State) : Result := impliedInstr .clc (fun t => t.setFlag .c false) s

/-- SEC (R241). -/
def execSec (s : State) : Result := impliedInstr .sec (fun t => t.setFlag .c true) s

/-- CLI (R242). -/
def execCli (s : State) : Result := impliedInstr .cli (fun t => t.setFlag .i false) s

/-- SEI (R243). -/
def execSei (s : State) : Result := impliedInstr .sei (fun t => t.setFlag .i true) s

/-- CLD (R244). -/
def execCld (s : State) : Result := impliedInstr .cld (fun t => t.setFlag .d false) s

/-- SED (R245). -/
def execSed (s : State) : Result := impliedInstr .sed (fun t => t.setFlag .d true) s

/-- CLV (R246). -/
def execClv (s : State) : Result := impliedInstr .clv (fun t => t.setFlag .v false) s

/-- NOP (R247): only PC advances. -/
def execNop (s : State) : Result := impliedInstr .nop (fun t => t) s

end Sys2Proof.Machine
end

