-- ==== Sys2Proof/Machine/LoadStore.lean ====
section
/-!
DEFINITION. Loads, stores and register transfers (`41_load_store_transfer.md`).
-/

namespace Sys2Proof.Machine

/-- LDA (R150). -/
def execLda (o : Src) (s : State) : Result := readInstr (.lda o) o (fun v t => t.loadA v) s

/-- LDX (R151). -/
def execLdx (o : Src) (s : State) : Result := readInstr (.ldx o) o (fun v t => t.loadX v) s

/-- LDY (R152). -/
def execLdy (o : Src) (s : State) : Result := readInstr (.ldy o) o (fun v t => t.loadY v) s

/-- STA (R153): one write, no read of the address, no flag. -/
def execSta (m : Mem) (s : State) : Result := storeInstr (.sta m) m (fun t => t.a) s

/-- STX (R154). -/
def execStx (m : Mem) (s : State) : Result := storeInstr (.stx m) m (fun t => t.x) s

/-- STY (R155). -/
def execSty (m : Mem) (s : State) : Result := storeInstr (.sty m) m (fun t => t.y) s

/-- TAX (R156). -/
def execTax (s : State) : Result := impliedInstr .tax (fun t => t.loadX t.a) s

/-- TAY (R157). -/
def execTay (s : State) : Result := impliedInstr .tay (fun t => t.loadY t.a) s

/-- TXA (R158). -/
def execTxa (s : State) : Result := impliedInstr .txa (fun t => t.loadA t.x) s

/-- TYA (R159). -/
def execTya (s : State) : Result := impliedInstr .tya (fun t => t.loadA t.y) s

/-- TSX (R160). -/
def execTsx (s : State) : Result := impliedInstr .tsx (fun t => t.loadX t.sp) s

/-- TXS (R161): the one transfer that writes no flag. -/
def execTxs (s : State) : Result := impliedInstr .txs (fun t => { t with sp := t.x }) s

end Sys2Proof.Machine
end

