-- ==== Sys2Proof/Machine/Shift.lean ====
section
/-!
DEFINITION. Shifts and rotates (`43_shift_rotate.md`), on the accumulator or on a byte in memory.
-/

namespace Sys2Proof.Machine

/-- ASL (R201). -/
def execAsl (o : Shiftee) (s : State) : Result := shiftInstr (.asl o) o (fun _ => aslCore) s

/-- LSR (R202). -/
def execLsr (o : Shiftee) (s : State) : Result := shiftInstr (.lsr o) o (fun _ => lsrCore) s

/-- ROL (R203). -/
def execRol (o : Shiftee) (s : State) : Result := shiftInstr (.rol o) o rolCore s

/-- ROR (R204). -/
def execRor (o : Shiftee) (s : State) : Result := shiftInstr (.ror o) o rorCore s

end Sys2Proof.Machine
end

