-- ==== Sys2Proof/Machine/Stack.lean ====
section
/-!
DEFINITION. The stack instructions (`44_stack.md`).
-/

namespace Sys2Proof.Machine

/-- PHA (R211). -/
def execPha (s : State) : Result := impliedInstr .pha (fun t => t.push t.a) s

/-- PLA (R212). -/
def execPla (s : State) : Result := impliedInstr .pla (fun t => t.afterPull.loadA t.pullByte) s

/-- PHP (R213): the pushed byte has Unused and Break set; `P` is not changed. -/
def execPhp (s : State) : Result := impliedInstr .php (fun t => t.push (pushedStatus t.p)) s

/-- PLP (R214). -/
def execPlp (s : State) : Result := impliedInstr .plp (fun t => t.afterPull.loadStatus (pulledStatus t.pullByte)) s

end Sys2Proof.Machine
end

