-- ==== Sys2Proof/Machine/Unofficial.lean ====
section
/-!
DEFINITION. The unofficial instructions (`47_unofficial.md`), each built from the cores of the official ones (R250),
and the sentinel's decode error (`60_exceptions.md` R281).
-/

namespace Sys2Proof.Machine

/-- SLO, ASL then ORA (R251). -/
def execSlo (m : Mem) (s : State) : Result :=
  modifyInstr (.slo m) m (shiftModify fun _ => aslCore) (fun r t => t.loadA (t.a ||| r)) s

/-- RLA, ROL then AND (R252). -/
def execRla (m : Mem) (s : State) : Result :=
  modifyInstr (.rla m) m (shiftModify rolCore) (fun r t => t.loadA (t.a &&& r)) s

/-- SRE, LSR then EOR (R253). -/
def execSre (m : Mem) (s : State) : Result :=
  modifyInstr (.sre m) m (shiftModify fun _ => lsrCore) (fun r t => t.loadA (t.a ^^^ r)) s

/-- RRA, ROR then ADC (R254): the carry the rotate shifts out is the carry in of the addition. -/
def execRra (m : Mem) (s : State) : Result :=
  modifyInstr (.rra m) m (shiftModify rorCore) (fun r t => t.addCore r) s

/-- DCP, DEC then CMP (R255). -/
def execDcp (m : Mem) (s : State) : Result :=
  modifyInstr (.dcp m) m (stepModify (· - 1)) (fun r t => t.compareCore t.a r) s

/-- ISC, INC then SBC (R256). -/
def execIsc (m : Mem) (s : State) : Result :=
  modifyInstr (.isc m) m (stepModify (· + 1)) (fun r t => t.addCore (~~~r)) s

/-- LAX, LDA then LDX of the one byte read (R257). -/
def execLax (m : Mem) (s : State) : Result :=
  readInstr (.lax m) (.mem m) (fun v t => { t.loadA v with x := v }) s

/-- SAX, store `A & X` (R258). -/
def execSax (m : Mem) (s : State) : Result := storeInstr (.sax m) m (fun t => t.a &&& t.x) s

/-- ALR, AND then LSR of the accumulator (R259). -/
def execAlr (v : Byte) (s : State) : Result :=
  readInstr (.alr v) (.immediate v)
    (fun m t => let rc := lsrCore (t.a &&& m); { t with a := rc.1, p := shiftFlags rc t.p }) s

/-- ANC, AND with Carry from Negative (R260); both opcodes do the same. -/
def execAnc (opcode v : Byte) (s : State) : Result :=
  readInstr (.anc opcode v) (.immediate v) (fun m t => { t with a := t.a &&& m, p := ancFlags (t.a &&& m) t.p }) s

/-- ARR, AND then ROR of the accumulator, with its own Carry and Overflow (R261). -/
def execArr (v : Byte) (s : State) : Result :=
  readInstr (.arr v) (.immediate v)
    (fun m t => let r := (rorCore (Flag.c.read t.p) (t.a &&& m)).1; { t with a := r, p := arrFlags r t.p }) s

/-- AXS, `(A & X) - m` into X with the flags of a compare (R262). -/
def execAxs (v : Byte) (s : State) : Result :=
  readInstr (.axs v) (.immediate v) (fun m t => { t.compareCore (t.a &&& t.x) m with x := (t.a &&& t.x) - m }) s

/-- The duplicate SBC, 0xEB (R263). -/
def execSbcDup (v : Byte) (s : State) : Result :=
  readInstr (.sbcDup v) (.immediate v) (fun m t => t.addCore (~~~m)) s

/-- The duplicate NOPs (R264): the operand is fetched and resolved, never read. -/
def execNopDup (opcode : Byte) (o : NopOperand) (s : State) : Result :=
  match o with
  | .implied => impliedInstr (.nopDup opcode o) (fun t => t) s
  | .immediate _ => .next ((s.advance 2).finishOk (cycles (.nopDup opcode o) false))
  | .mem m => .next ((s.resolved m).finishOk (cycles (.nopDup opcode o) (s.crosses m)))

/-- The byte SHX and SHY store: the register and the base address's high byte plus 1 (R265, R266). -/
def highAnd (register : Byte) (base : Word) : Byte := register &&& (hiByte base + 1)

/-- Where SHX and SHY store: at the effective address, its high byte replaced by the stored byte on a page cross (R265). -/
def highAndAddr (r : Resolved) (v : Byte) : Word := if r.crossed then word v (loByte r.ea) else r.ea

/-- SHX (R265, D20; notes/assumptions/12.md). -/
def execShx (w : Word) (s : State) : Result :=
  let v := highAnd s.x w
  toResult do
    let t ← memWrite (highAndAddr (indexed w s.y) v) v (s.advance 3)
    pure (t.finishOk (cycles (.shx w) (indexed w s.y).crossed))

/-- SHY (R266): as SHX with X and Y exchanged. -/
def execShy (w : Word) (s : State) : Result :=
  let v := highAnd s.y w
  toResult do
    let t ← memWrite (highAndAddr (indexed w s.x) v) v (s.advance 3)
    pure (t.finishOk (cycles (.shy w) (indexed w s.x).crossed))

/-- STP (R267, R282): RUN becomes Stopped, PC is past the opcode, the outcome is `Halt`. All twelve opcodes do the same. -/
def execStp (_opcode : Byte) (s : State) : Result := .next { s.advance 1 with run := .stopped }.raiseHalt

/-- The sentinel rows (R281): the outcome is `DecodeError(op)`, PC stays at the opcode, nothing else changes. -/
def execInvalid (opcode : Byte) (s : State) : Result := .next (s.raiseDecodeError opcode)

end Sys2Proof.Machine
end

