-- ==== Sys2Proof/Machine/Step.lean ====
section
/-!
DEFINITION. One step of the execution engine (`60_exceptions.md` R280): fetch, decode, then `exec`.
-/

namespace Sys2Proof.Machine

/-- The state a step starts in: the record of the step before is cleared. -/
def State.beginStep (s : State) : State := { s with events := [], outcome := none }

/-- The fetch of R280: the opcode at PC, then as many operand bytes as its descriptor asks for (R101, R102), each one
read through the bus (R69). PC is not moved here. -/
def fetch (s : State) : Except Fault (Instr × State) := do
  let (op, t) ← memRead s.pc s
  match (descriptor op).length with
  | 1 => pure (instrOf op 0 0, t)
  | 2 =>
    let (i, u) ← memRead (s.pc + 1) t
    pure (instrOf op i 0, u)
  | _ =>
    let (i, u) ← memRead (s.pc + 1) t
    let (j, v) ← memRead (s.pc + 2) u
    pure (instrOf op i j, v)

/-- One step (R280): a stopped machine returns `Halt` and makes no bus access (R283); a running one fetches the
instruction at PC and executes it. -/
def step (s : State) : Host.Outcome State Fault Refusal :=
  match s.run with
  | .stopped => .next s.beginStep.raiseHalt
  | .running =>
    match fetch s.beginStep with
    | .ok (i, t) => exec i t
    | .error f => .fault f

/-! ### Placing an instruction where the next step fetches it -/

/-- Whether an address is backed by storage a loader can fill: RAM, cartridge RAM or program ROM. -/
def isBacked (addr : Word) : Bool :=
  match region addr with
  | .cartridge | .ramMirror | .ram => true
  | .expansion | .audioIo | .gfxMirror | .gfxRegister => false

/-- The state with the storage byte behind `addr` set to `v`, as a loader sets it: program ROM included, no bus access. -/
def State.loadByte (s : State) (addr : Word) (v : Byte) : State :=
  match region addr with
  | .ramMirror | .ram => { s with ram := s.ram.write (ramIndex addr) v }
  | .cartridge =>
    if 0x8000 ≤ addr then { s with prgRom := s.prgRom.write (prgRomIndex s.prgSize addr) v }
    else { s with prgRam := s.prgRam.write (prgRamIndex addr) v }
  | .expansion | .audioIo | .gfxMirror | .gfxRegister => s

/-- Where `withFetchWord` puts the program when PC does not point at storage: RAM outside pages zero and one
(notes/assumptions/9.md). -/
def loadAddress : Word := 0x0200

/-- Whether an instruction can be placed at `addr` and fetched from there: its three bytes are storage the bus reaches. -/
def State.canHold (s : State) (addr : Word) : Bool :=
  isBacked addr && isBacked (addr + 1) && isBacked (addr + 2)
    && s.busOk addr && s.busOk (addr + 1) && s.busOk (addr + 2)

/-- The address of the instruction `withFetchWord` places: PC if an instruction can be placed there, else `loadAddress`. -/
def State.fetchAddress (s : State) : Word := if s.canHold s.pc then s.pc else loadAddress

/-- `s` with the instruction of an opcode-table word (bit 0 of `w` the least significant bit of its first byte, the
bits from `nbits` on zero) stored where the next step fetches: at PC where that is storage, and running. -/
def State.withFetchWord (s : State) (nbits w : Nat) : State :=
  let v := w % 2 ^ nbits
  let addr := s.fetchAddress
  let t := { s with pc := addr, run := .running }
  ((t.loadByte addr (BitVec.ofNat 8 v)).loadByte (addr + 1) (BitVec.ofNat 8 (v / 256))).loadByte (addr + 2)
    (BitVec.ofNat 8 (v / 65536))

end Sys2Proof.Machine
end

