-- ==== Sys2Proof/Machine/Graphics.lean ====
section
/-!
DEFINITION. The graphics-internal space as the same bus serves it to the graphics collaborator (`20_memory.md` R74 to
R80). No instruction calls these; the collaborator does, between steps or inside a graphics-register access
(notes/assumptions/3.md, 15.md).
-/

namespace Sys2Proof.Machine

/-- `MapperReadGraphics(addr14)` (R70, R71, R77). -/
def State.mapperReadGraphics (s : State) (addr : GfxAddr) : Except Fault Byte :=
  match s.mapper with
  | .nrom => .ok (s.chrRom.read addr.toNat)
  | .noMapper => .error .noMapperInvoked

/-- `PpuMemRead(addr14)` (R75, R77 to R80). -/
def ppuMemRead (addr : GfxAddr) (s : State) : Except Fault (Byte × State) :=
  match gfxRegion addr with
  | .pattern => (s.mapperReadGraphics addr).map fun v => (v, s)
  | .nameTable => .ok (s.vram.read (vramIndex s.mirroring addr), s)
  | .unused => .ok (0x00, s.log [.diag .unusedGfxAccess])
  | .palette => .ok (s.palette.read (paletteIndex addr), s)

/-- The diagnostic events of a graphics-internal write: the pattern and unused ranges drop it (R76, D30). -/
def ppuWriteDiags (addr : GfxAddr) : List Event :=
  match gfxRegion addr with
  | .pattern => [.diag .romWrite]
  | .unused => [.diag .unusedGfxAccess]
  | .nameTable | .palette => []

/-- `PpuMemWrite(addr14, v)` (R76). The mapper has no graphics write capability, so it is never invoked. -/
def ppuMemWrite (addr : GfxAddr) (v : Byte) (s : State) : State :=
  { s with
    vram := vramWrite s.mirroring s.vram (addr, v)
    palette := paletteWrite s.palette (addr, v)
    events := s.events ++ ppuWriteDiags addr }

end Sys2Proof.Machine
end

