-- ==== Sys2Proof/Machine/HostInterface.lean ====
section
/-!
DEFINITION. What the host can do besides calling the step (`60_exceptions.md` R299): construct the machine
(`70_reset_and_hazards.md` R310), read the accessors (R35, R295), set PC (R35), and call the trace variant of the step
(R294).
-/

namespace Sys2Proof.Machine

/-! ### Construction -/

/-- The parameters of the block (R4): what the loader passes to `construct`, and the contents the spec leaves open.
`resetPc` absent means the default of R311. Of a content longer than its array the surplus is dropped, of a shorter one
the rest reads as any unlisted byte does (notes/assumptions/5.md). -/
structure Params where
  mapperCode : Nat
  prgRom : List Byte
  chrRom : List Byte
  mirroring : Mirroring
  ramInit : List Byte
  prgRamInit : List Byte
  vramInit : List Byte
  paletteInit : List Byte
  resetPc : Option Word
deriving DecidableEq, Repr

/-- The construction errors (R73, R298). -/
inductive ConstructError where
  | wrongSizeProgramRom
  | wrongSizeCharacterRom
  /-- The type code selects no mapper: `construct` fails instead of building a machine with the guard (U17; notes/assumptions/14.md). -/
  | noMapper
deriving DecidableEq, Repr

/-- The mapper variant of a header's type code (R71, D28). -/
def mapperOfCode (code : Nat) : Mapper := if code = 0 then .nrom else .noMapper

/-- The legal program-ROM lengths (R73). -/
def prgSizeOf (length : Nat) : Option PrgSize :=
  if length = 16384 then some .kib16 else if length = 32768 then some .kib32 else none

/-- The default `RESET_PC`: the little-endian word at 0xFFFC, read through the bus (R311, D5). -/
def State.defaultResetPc (s : State) : Word := word (s.readByte (resetVector + 1)) (s.readByte resetVector)

/-- The machine `construct` builds once its checks have passed (R34, R310, R313). -/
def constructed (q : Params) (size : PrgSize) : State :=
  let s : State :=
    { State.reset with
      ram := .ofBytes (q.ramInit.take Config.ramSize)
      prgRam := .ofBytes (q.prgRamInit.take Config.prgRamSize)
      vram := .ofBytes (q.vramInit.take Config.vramSize)
      palette := .ofBytes (q.paletteInit.take Config.paletteSize)
      prgSize := size
      prgRom := .ofBytes q.prgRom
      chrRom := .ofBytes q.chrRom
      mirroring := q.mirroring }
  { s with pc := q.resetPc.getD s.defaultResetPc }

/-- `construct(mapper_type, program_rom, character_rom)` with the parameters of R4 (R73, R310).
DESIGN CHOICE (notes/assumptions/14.md): where both ROM sizes are wrong the spec gives no order of the two checks; the
program ROM is checked first, so the error is `wrongSizeProgramRom`. -/
def construct (q : Params) : Except ConstructError State :=
  match mapperOfCode q.mapperCode, prgSizeOf q.prgRom.length with
  | .noMapper, _ => .error .noMapper
  | .nrom, none => .error .wrongSizeProgramRom
  | .nrom, some size =>
    if q.chrRom.length = Config.chrRomSize then .ok (constructed q size) else .error .wrongSizeCharacterRom

/-! ### Accessors (R35, R295) -/

/-- `program_counter()`. -/
def State.programCounter (s : State) : Word := s.pc

/-- `registers() -> (A, X, Y)`. -/
def State.registers (s : State) : Byte × Byte × Byte := (s.a, s.x, s.y)

/-- `status()`. -/
def State.status (s : State) : Byte := s.p

/-- `stack_pointer()`. -/
def State.stackPointer (s : State) : Byte := s.sp

/-- The host sets PC between steps (R35, D32); it can write nothing else, and a stopped machine stays stopped (R283). -/
def State.hostSetPc (s : State) (pc : Word) : State := { s with pc := pc }

/-! ### The trace variant (R294, R297) -/

/-- What the trace variant returns (R284, R294). -/
inductive TraceOutcome where
  | ok (descriptor : Descriptor) (fetched : List Byte)
  | decodeError (opcode : Byte)
  | halt
deriving DecidableEq, Repr

/-- The bytes the bus reads of a step returned, in order. -/
def readValues (es : List Event) : List Byte :=
  es.filterMap fun e =>
    match e with
    | .read _ v => some v
    | .write _ _ | .diag _ => none

/-- The bytes the fetch of a step that ended in `t` returned: of its bus reads the first `length`, by the descriptor of
the first (R102, R294); none for a step that read nothing, as one begun stopped does (R283). -/
def fetchedBytes (t : State) : List Byte :=
  match readValues t.events with
  | op :: rest => (op :: rest).take (descriptor op).length
  | [] => []

/-- The trace outcome of a step that ended in `t`: for `Ok`, the opcode's descriptor and the fetched bytes (R294). -/
def traceOutcome (t : State) : Option TraceOutcome :=
  match t.outcome with
  | some (.ok _) => (fetchedBytes t).head?.map fun op => .ok (descriptor op) (fetchedBytes t)
  | some (.decodeError op) => some (.decodeError op)
  | some .halt => some .halt
  | none => none

/-- The trace variant of the step: exactly the same step, with its trace outcome (R294). -/
def traceStep (s : State) : Host.Outcome (State × Option TraceOutcome) Fault Refusal :=
  match step s with
  | .next t => .next (t, traceOutcome t)
  | .fault f => .fault f
  | .refused r => .refused r

/-- The fields of a trace line (R297): the registers in which the instruction starts, and its fetched bytes. -/
structure TraceLine where
  pc : Word
  fetched : List Byte
  a : Byte
  x : Byte
  y : Byte
  p : Byte
  sp : Byte
deriving DecidableEq, Repr

/-- The trace line of a step from `s` that ended in `t`: the accessors before the step, and the bytes its fetch
returned, whatever its outcome (R295, R297; a step that executes STP shows its byte, `95_test_vectors.md` section 3). -/
def traceLine (s t : State) : TraceLine where
  pc := s.programCounter
  fetched := fetchedBytes t
  a := s.registers.1
  x := s.registers.2.1
  y := s.registers.2.2
  p := s.status
  sp := s.stackPointer

end Sys2Proof.Machine
end

