-- ==== Sys2Proof/Safety.lean ====
section
/-!
DEFINITION. What claims about a run are stated in: the well-formed states every step keeps, how a run stands, and the
frame predicates ("everything but ... is as before").
-/

namespace Sys2Proof.Machine

/-! ### Well-formed states -/

/-- `P.U = 1` and `P.B = 0`, which hold in the register at all times after reset (R26, D10). -/
def State.statusOk (s : State) : Bool := Flag.u.read s.p && !Flag.b.read s.p

/-- Every memory is in canonical form and no larger than the spec makes it (R32, R70, D29). -/
def State.memoriesOk (s : State) : Bool :=
  (s.ram.wf && s.ram.within Config.ramSize) && (s.prgRam.wf && s.prgRam.within Config.prgRamSize)
    && (s.vram.wf && s.vram.within Config.vramSize) && (s.palette.wf && s.palette.within Config.paletteSize)
    && (s.prgRom.wf && s.prgRom.within s.prgSize.bytes) && (s.chrRom.wf && s.chrRom.within Config.chrRomSize)

/-- The machine is one `construct` can have built: its mapper is NROM (R72, R314). -/
def State.mapperOk (s : State) : Bool := s.mapper == .nrom

/-- A well-formed state. -/
def State.wellFormed (s : State) : Bool := s.statusOk && s.memoriesOk && s.mapperOk

/-! ### How a run stands -/

/-- The last step completed its instruction (R284: `Ok`). -/
def State.completed (s : State) : Bool :=
  match s.outcome with
  | some (.ok _) => true
  | some (.decodeError _) | some .halt | none => false

/-- The machine has stopped for good (R29, R283). -/
def State.halted (s : State) : Bool := s.run == .stopped

/-- A safe run of `k` steps: no fault, and every step completed its instruction. -/
def safeRun : Nat → State → Bool
  | 0, _ => true
  | k + 1, s =>
    match step s with
    | .next t => t.completed && safeRun k t
    | .fault _ | .refused _ => false

/-! ### Fetching -/

/-- The state after the step has started and the first `k` bytes at PC are fetched (R101, R280). -/
def State.afterFetch (s : State) : Nat → State
  | 0 => s.beginStep
  | k + 1 => (s.afterFetch k).afterRead (s.pc + BitVec.ofNat 16 k)

/-- The byte the step fetches at PC plus `k`. -/
def State.fetchedByte (s : State) (k : Nat) : Byte := (s.afterFetch k).readByte (s.pc + BitVec.ofNat 16 k)

/-! ### Frames -/

/-- The 8-bit registers other than the status register (R21 to R24). -/
inductive Reg where
  | a | x | y | sp
deriving DecidableEq, Repr

/-- The value of a register. -/
def Reg.read : Reg → State → Byte
  | .a, s => s.a
  | .x, s => s.x
  | .y, s => s.y
  | .sp, s => s.sp

/-- Every register but the listed ones is as before. -/
def KeepsRegs (changed : List Reg) (s t : State) : Prop := ∀ r, r ∉ changed → r.read t = r.read s

/-- Every bit of the status register but the listed flags is as before. -/
def KeepsFlags (changed : List Flag) (s t : State) : Prop := ∀ f, f ∉ changed → f.read t.p = f.read s.p

/-- The flags Z and N are `SetZN(r)` (R27). -/
def FlagsZN (r : Byte) (t : State) : Prop := Flag.z.read t.p = (r == 0) ∧ Flag.n.read t.p = r.getLsbD 7

/-- The writes among bus events, in order, as addresses and bytes. -/
def writesOf (es : List Event) : List (Word × Byte) :=
  es.filterMap fun e =>
    match e with
    | .write c v => some (c, v)
    | .read _ _ | .diag _ => none

/-- The calls of the graphics-register interface that bus events make: one for each access of 0x2000 to 0x3FFF, of
register `addr mod 8` (R56). -/
def callsOf (es : List Event) : List GfxCall :=
  es.filterMap fun e =>
    match e with
    | .read c v => if isGfx c then some (.read (gfxIndex c) v) else none
    | .write c v => if isGfx c then some (.write (gfxIndex c) v) else none
    | .diag _ => none

/-- What the byte at `b`, `old` before, reads as after one write: the byte written if the write is to storage that
takes writes and is the same storage byte, mirroring taken into account; else `old` (R66). -/
def writeSeen (size : PrgSize) (b : Word) (old : Byte) (w : Word × Byte) : Byte :=
  if isWritable w.1 = true ∧ storageOf size b = storageOf size w.1 then w.2 else old

/-- The whole CPU-visible space after the writes `ws`, made in that order: every byte of it reads as the latest of
those writes to the same storage byte, or as before if there was none. The graphics registers are devices, not
memory: their answers are free values (R57). -/
def BytesAfter (ws : List (Word × Byte)) (s t : State) : Prop :=
  ∀ b, isGfx b = false → t.readByte b = ws.foldl (writeSeen s.prgSize b) (s.readByte b)

/-- Every read among the bus events `es`, made from `s` on, returned the latest write to the same storage byte, or the
byte of `s` if there was none (R66). -/
def ReadsLatest (s : State) (es : List Event) : Prop :=
  ∀ before c v after, es = before ++ .read c v :: after → isGfx c = false →
    v = (writesOf before).foldl (writeSeen s.prgSize c) (s.readByte c)

/-- What `t` shares with a state `u` built from the bus operations alone: the same accesses and diagnostic events in
the same order, the same calls of the graphics-register interface, and so the same graphics-internal memories. -/
def SameBus (u t : State) : Prop :=
  t.events = u.events ∧ t.gfx = u.gfx ∧ t.vram = u.vram ∧ t.palette = u.palette

/-- The constants fixed at construction are as before (R4, R20). -/
def KeepsConstants (s t : State) : Prop :=
  t.mapper = s.mapper ∧ t.prgSize = s.prgSize ∧ t.prgRom = s.prgRom ∧ t.chrRom = s.chrRom ∧ t.mirroring = s.mirroring

/-- The state the instruction leaves alone whatever it is: the constants and the run state. -/
def KeepsMachine (s t : State) : Prop := KeepsConstants s t ∧ t.run = s.run

/-- The frame of an instruction: from `s` to `t` nothing changes but the registers `regs`, the flags `flags`, the
program counter, the outcome, and the bytes the writes `ws` store to; and the bus did what it did in `u`. -/
structure Frame (regs : List Reg) (flags : List Flag) (ws : List (Word × Byte)) (s u t : State) : Prop where
  registers : KeepsRegs regs s t
  status : KeepsFlags flags s t
  memory : BytesAfter ws s t
  machine : KeepsMachine s t
  bus : SameBus u t

/-- The instruction completed: PC is `pc`, and the step's outcome is `Ok(n)` (R280, R284). -/
def Finished (pc : Word) (n : Nat) (t : State) : Prop := t.pc = pc ∧ t.outcome = some (.ok n)

/-! ### Frames of the shapes of instruction -/

/-- The address after the instruction `i` at PC. -/
def State.afterInstr (s : State) (i : Instr) : Word := s.pc + BitVec.ofNat 16 i.length

/-- An instruction that only reads its operand: nothing but `regs` and `flags` changes, and the bus does what reading
the operand does. -/
def ReadFrame (i : Instr) (o : Src) (regs : List Reg) (flags : List Flag) (s t : State) : Prop :=
  Frame regs flags [] s (s.afterOperand o) t ∧ Finished (s.afterInstr i) (cycles i (s.operandCrosses o)) t

/-- An instruction that stores `v` to its effective address and changes no register and no flag. -/
def StoreFrame (i : Instr) (m : Mem) (v : Byte) (s t : State) : Prop :=
  Frame [] [] [(s.effAddr m, v)] s ((s.resolved m).afterWrite (s.effAddr m) v) t
    ∧ Finished (s.afterInstr i) (cycles i (s.crosses m)) t

/-- A read-modify-write instruction: one read of the effective address, one write of `r` to it, and nothing else
changes but `regs` and `flags`. -/
def ModifyFrame (i : Instr) (m : Mem) (r : Byte) (regs : List Reg) (flags : List Flag) (s t : State) : Prop :=
  Frame regs flags [(s.effAddr m, r)] s (((s.resolved m).afterRead (s.effAddr m)).afterWrite (s.effAddr m) r) t
    ∧ Finished (s.afterInstr i) (cycles i (s.crosses m)) t

/-- A one-byte instruction that makes no bus access of its own: nothing but `regs` and `flags` changes. -/
def ImpliedFrame (i : Instr) (regs : List Reg) (flags : List Flag) (s t : State) : Prop :=
  Frame regs flags [] s s t ∧ Finished (s.pc + 1) (cycles i false) t

/-! ### Arithmetic results, in numbers -/

/-- A sum fits in a signed byte. -/
def FitsSigned (n : Int) : Prop := -128 ≤ n ∧ n ≤ 127

/-- `A` and the flags hold the sum of `a`, `m` and the carry `c` (R170): the byte modulo 256, Carry where the unsigned
sum exceeds 255, Overflow where the signed sum does not fit. -/
def HoldsSum (a m : Byte) (c : Bool) (t : State) : Prop :=
  t.a.toNat = (a.toNat + m.toNat + carryIn c) % 256 ∧ FlagsZN t.a t
    ∧ (Flag.c.read t.p = true ↔ 255 < a.toNat + m.toNat + carryIn c)
    ∧ (Flag.v.read t.p = true ↔ ¬FitsSigned (a.toInt + m.toInt + carryIn c))

/-- `A` and the flags hold `a - m - (1 - c)` (R173): the byte modulo 256, Carry where there is no borrow, Overflow
where the signed difference does not fit. -/
def HoldsDifference (a m : Byte) (c : Bool) (t : State) : Prop :=
  (t.a.toNat : Int) = ((a.toNat : Int) - m.toNat - (1 - carryIn c)) % 256 ∧ FlagsZN t.a t
    ∧ (Flag.c.read t.p = true ↔ m.toNat + (1 - carryIn c) ≤ a.toNat)
    ∧ (Flag.v.read t.p = true ↔ ¬FitsSigned (a.toInt - m.toInt - (1 - carryIn c)))

/-- The flags hold the comparison of `reg` with `m` (R171). -/
def HoldsComparison (reg m : Byte) (t : State) : Prop :=
  FlagsZN (reg - m) t ∧ (Flag.c.read t.p = true ↔ m.toNat ≤ reg.toNat)

/-! ### The stack -/

/-- The state after pushing the bytes of a list, the first one first. -/
def State.pushAll (s : State) (vs : List Byte) : State := vs.foldl State.push s

/-- The bytes `n` pulls return, in order. -/
def State.pulledBytes : Nat → State → List Byte
  | 0, _ => []
  | n + 1, s => s.pullByte :: State.pulledBytes n s.afterPull

/-- The state after `n` pulls. -/
def State.afterPulls : Nat → State → State
  | 0, s => s
  | n + 1, s => State.afterPulls n s.afterPull

/-- The stack frames on top of `s` are as `t` left them: the stack pointer of `t`, and its next `n` stack bytes. -/
def SameStackTop (n : Nat) (t s : State) : Prop :=
  s.sp = t.sp ∧ ∀ k : Nat, 1 ≤ k → k ≤ n →
    s.readByte (stackAddr (t.sp + BitVec.ofNat 8 k)) = t.readByte (stackAddr (t.sp + BitVec.ofNat 8 k))

end Sys2Proof.Machine
end

