-- ==== Sys2Proof/Certificates/Slice0/Obligations.lean ====
section
/-!
DEFINITION. The statements for the provers. Each docstring names the rules of `spec/` it formalises. Where a clause
rests on the spec's own decision D<n> or on general knowledge (its families' operations and encodings), that is log
entry notes/assumptions/17.md; other entries are named where they apply. In every clause that mentions them, that a
step's outcome stands in the next state is log entry 1, and that the record of bus events holds an access before the
diagnostic event it raises is log entry 4 (both DESIGN CHOICE).
-/

open Sys2Proof Sys2Proof.Machine

/-! ### Encoding -/

/-- Every well-formed instruction, at every operand value, decodes from its own encoding, whatever bytes follow it
(R100 to R104; the encodings of R105 and R106 are general knowledge, log entry 17). -/
def Obligations.DecodeOfEncode : Prop :=
  ∀ (i : Instr) (bytes : List Byte), i.wellFormed = true → decode (encode i ++ bytes) = .ok (i, bytes)

/-- What the decoder accepts is the encoding of a well-formed instruction followed by the rest (R102). That it rejects
no bytes at all and fewer bytes than the opcode's descriptor asks for, and nothing else, is the model's choice (log
entry 18, DESIGN CHOICE): the spec has no such byte sequences. -/
def Obligations.EncodeOfDecode : Prop :=
  (∀ bs i rest, decode bs = .ok (i, rest) → i.wellFormed = true ∧ encode i ++ rest = bs) ∧
  (decode [] = .error .empty) ∧
  (∀ op rest, decode (op :: rest) = .error (.truncated op) ↔ rest.length + 1 < (descriptor op).length)

/-- The table has 256 rows, 250 of them assigned; the sentinel rows are the six bytes of R108; a row's length is the
one its mode implies (R102 to R104). Words written out from the spec's encodings decode to what they stand for. -/
def Obligations.TableAndWords : Prop :=
  iTable.length = 256 ∧ (iTable.filter (· ≠ sentinel)).length = 250 ∧
  (∀ op : Byte, descriptor op = sentinel ↔ op ∈ [0x8B, 0x93, 0x9B, 0x9F, 0xAB, 0xBB]) ∧
  (∀ op : Byte, (descriptor op).length = (descriptor op).mode.length) ∧
  decode [0xA5, 0x10] = .ok (.lda (.mem (.zeroPage 0x10)), []) ∧
  decode [0xBD, 0xFF, 0x12] = .ok (.lda (.mem (.absoluteX 0x12FF)), []) ∧
  decode [0x91, 0xFE] = .ok (.sta (.indirectY 0xFE), []) ∧
  decode [0xB6, 0xFF] = .ok (.ldx (.mem (.zeroPageY 0xFF)), []) ∧
  decode [0xE9, 0x01] = .ok (.sbc (.immediate 0x01), []) ∧
  decode [0x6A] = .ok (.ror .accumulator, []) ∧
  decode [0x6C, 0xFF, 0x02] = .ok (.jmp (.indirect 0x02FF), []) ∧
  decode [0xD0, 0xFB] = .ok (.bne 0xFB, []) ∧
  decode [0x00] = .ok (.brk, []) ∧
  decode [0x1F, 0x34, 0x12] = .ok (.slo (.absoluteX 0x1234), []) ∧
  decode [0x9E, 0x00, 0x02] = .ok (.shx 0x0200, []) ∧
  decode [0xF2] = .ok (.stp 0xF2, []) ∧
  decode [0x8B] = .ok (.invalid 0x8B, [])

/-! ### The step -/

/-- When the bytes at PC decode to `i`, a step of a running machine is `exec` of `i` in the state after its bytes are
fetched (R101, R102, R280). PC still stands at the opcode byte there (log entry 10). -/
def Obligations.StepRunsDecodedInstruction : Prop :=
  ∀ (s : State) (i : Instr) (rest : List Byte), s.run = .running →
    decode [s.fetchedByte 0, s.fetchedByte 1, s.fetchedByte 2] = .ok (i, rest) →
    (∀ k < i.length, s.busOk (s.pc + BitVec.ofNat 16 k) = true) →
    step s = exec i (s.afterFetch i.length)

/-- Fetching `n` bytes changes no register, flag, memory byte or PC: it makes `n` reads, at PC, PC + 1 and so on
modulo 65536, and no other bus access (R25, R69, R280). That the record holds each read before its diagnostic event is
the model's choice (log entry 4, DESIGN CHOICE). -/
def Obligations.FetchOnlyReads : Prop :=
  ∀ (s : State) (n : Nat), n ≤ 3 →
    KeepsRegs [] s (s.afterFetch n) ∧ (s.afterFetch n).p = s.p ∧ (s.afterFetch n).pc = s.pc ∧
    BytesAfter [] s (s.afterFetch n) ∧ KeepsMachine s (s.afterFetch n) ∧ (s.afterFetch n).outcome = none ∧
    (s.afterFetch n).events = (List.range n).flatMap
      (fun k => .read (s.pc + BitVec.ofNat 16 k) (s.fetchedByte k) :: readDiags (s.pc + BitVec.ofNat 16 k))

/-- Every step keeps the well-formed states: Unused is 1 and Break is 0 in the status register, every memory is in
canonical form and no larger than the spec makes it, and the mapper is NROM (R26, R32, R72). -/
def Obligations.StepKeepsWellFormed : Prop :=
  ∀ s t : State, s.wellFormed = true → step s = .next t → t.wellFormed = true

/-- The reset state is well formed and holds the register values of R34, which are the spec's decision D4 (log entry
6); `RUN` is `Running` (D12). PC, the memories and the cartridge are the model's choices (log entries 5, 7, 8). -/
def Obligations.ResetIsWellFormed : Prop :=
  State.reset.wellFormed = true ∧ State.reset.registers = (0x00, 0x00, 0x00) ∧ State.reset.stackPointer = 0xFD ∧
  State.reset.status = 0x24 ∧ State.reset.run = .running ∧ State.reset.pc = State.reset.defaultResetPc

/-- With the mapper NROM no access fails and no instruction stops the model: every step answers a next state, with
one of the three outcomes (R52, R53, R284; that the outcome stands in the next state is log entry 1). -/
def Obligations.StepAlwaysAnswers : Prop :=
  ∀ s : State, s.mapper = .nrom → ∃ t, step s = .next t ∧ t.mapper = .nrom ∧ ∃ o, t.outcome = some o

/-- With the guard mapper `NoMapper` every access of cartridge space faults and every other access is as usual; an
instruction that must make such an access faults, in each of its forms, and so does the fetch (R60, R72). -/
def Obligations.NoMapperFaults : Prop :=
  (∀ (s : State) (b : Word) (v : Byte), s.mapper = .noMapper →
    (0x6000 ≤ b.toNat → memRead b s = .error .noMapperInvoked ∧ memWrite b v s = .error .noMapperInvoked) ∧
    (b.toNat < 0x6000 → memRead b s = .ok (s.readByte b, s.afterRead b) ∧ memWrite b v s = .ok (s.afterWrite b v))) ∧
  (∀ (o : Src) (s : State), s.operandOk o = false → ∀ i ∈ [Instr.lda o, .ldx o, .ldy o, .adc o, .sbc o, .and o, .ora o,
    .eor o, .cmp o, .cpx o, .cpy o], exec i s = .fault .noMapperInvoked) ∧
  (∀ (m : Mem) (s : State), s.busOk (s.effAddr m) = false → ∀ i ∈ [Instr.sta m, .stx m, .sty m, .sax m, .bit m, .lax m,
    .inc m, .dec m, .asl (.mem m), .lsr (.mem m), .rol (.mem m), .ror (.mem m), .slo m, .rla m, .sre m, .rra m, .dcp m,
    .isc m], exec i s = .fault .noMapperInvoked) ∧
  (∀ (ptr : Word) (s : State), s.busOk ptr = false → exec (.jmp (.indirect ptr)) s = .fault .noMapperInvoked) ∧
  (∀ s : State, s.mapper = .noMapper → exec .brk s = .fault .noMapperInvoked) ∧
  (∀ (w : Word) (s : State), s.busOk (highAndAddr (indexed w s.y) (highAnd s.x w)) = false →
    exec (.shx w) s = .fault .noMapperInvoked) ∧
  (∀ (w : Word) (s : State), s.busOk (highAndAddr (indexed w s.x) (highAnd s.y w)) = false →
    exec (.shy w) s = .fault .noMapperInvoked) ∧
  (∀ s : State, s.run = .running → s.busOk s.pc = false → step s = .fault .noMapperInvoked)

/-- A stopped machine stays as it is for any number of steps: each makes no bus access, changes nothing and returns
`Halt` (R283, the spec's decision D12, log entry 17). That such a step answers a next state with the outcome `Halt`,
where R283 names a stuck state to the modeller, is the model's choice (log entry 1, DESIGN CHOICE). -/
def Obligations.StoppedIsTerminal : Prop :=
  ∀ (s : State) (n : Nat), s.run = .stopped →
    core.run (n + 1) s = .next { s with events := [], outcome := some .halt }

/-- A running machine stops in a step exactly when the opcode fetched is one of the twelve STP bytes (R29, R267). -/
def Obligations.OnlyStpStops : Prop :=
  ∀ s t : State, s.run = .running → step s = .next t →
    (t.run = .stopped ↔
      s.fetchedByte 0 ∈ [0x02, 0x12, 0x22, 0x32, 0x42, 0x52, 0x62, 0x72, 0x92, 0xB2, 0xD2, 0xF2])

/-- The sentinel: its execution answers the outcome `DecodeError(op)` and changes nothing; a step that fetches an
unassigned opcode has made that one read and nothing else, PC at the opcode (R281; the six bytes are the spec's
decision D7, the single read D25; that the outcome stands in a next state is log entry 1). -/
def Obligations.DecodeErrorChangesNothing : Prop :=
  (∀ (b : Byte) (s : State), exec (.invalid b) s = .next { s with outcome := some (.decodeError b) }) ∧
  (∀ s : State, s.run = .running → s.busOk s.pc = true →
    s.fetchedByte 0 ∈ [0x8B, 0x93, 0x9B, 0x9F, 0xAB, 0xBB] →
    step s = .next { s.beginStep.afterRead s.pc with outcome := some (.decodeError (s.fetchedByte 0)) })

/-- STP stops the machine, PC past its byte, with the outcome `Halt` and nothing else changed (R267, R282; that the
outcome stands in a next state is log entry 1). -/
def Obligations.StpHalts : Prop :=
  ∀ (b : Byte) (s : State),
    exec (.stp b) s = .next { s with pc := s.pc + 1, run := .stopped, outcome := some .halt }

/-- A step is sequentially consistent, mirroring taken into account: every read of it outside the graphics registers
returned the latest write of the step to the same storage byte, or the byte as it was before the step; and after it
every byte is what its writes, in their order, made it (R66, R69). -/
def Obligations.StepIsSequentiallyConsistent : Prop :=
  ∀ s t : State, step s = .next t → BytesAfter (writesOf t.events) s t ∧ ReadsLatest s t.events

/-- Each access of 0x2000 to 0x3FFF makes exactly one call of the graphics-register interface, in order, and nothing
else does; without a call the graphics-internal memories stay; the constants of construction always stay
(R20, R56, R74; log entries 2 and 3 for what the collaborator does in a call). -/
def Obligations.StepCallsOncePerAccess : Prop :=
  ∀ s t : State, step s = .next t →
    t.gfx = s.gfx ++ callsOf t.events ∧
    (callsOf t.events = [] → t.vram = s.vram ∧ t.palette = s.palette) ∧ KeepsConstants s t

/-! ### Memory -/

/-- What any byte reads as after a write, in numbers: the byte written at every RAM mirror of a RAM address and at
the very address of cartridge RAM; as before everywhere else, so also after a write to a stub or to ROM
(R53, R55, R66, R70). `writeSeen`, the word the frames are stated in, says the same. -/
def Obligations.ReadAfterWrite : Prop :=
  ∀ (s : State) (c : Word) (v : Byte) (b : Word), isGfx b = false →
    let hit := (c.toNat < 0x2000 ∧ b.toNat < 0x2000 ∧ b.toNat % 0x800 = c.toNat % 0x800) ∨
      (0x6000 ≤ c.toNat ∧ c.toNat < 0x8000 ∧ b = c)
    (∀ t, memWrite c v s = .ok t → t.readByte b = if hit then v else s.readByte b) ∧
    writeSeen s.prgSize b (s.readByte b) (c, v) = if hit then v else s.readByte b

/-- RAM: every address from 0x0000 to 0x1FFF reads and writes `RAM[addr mod 0x0800]`, so that an address and its
mirror below 0x0800 cannot be told apart; a read has no side effect, a write replaces the one byte (R55). -/
def Obligations.RamIsMirrored : Prop :=
  ∀ (s : State) (b : Word) (v : Byte), b.toNat < 0x2000 →
    (∃ t, memRead b s = .ok (s.ram.read (b.toNat % 0x800), t) ∧ { t with events := s.events } = s) ∧
    (∃ t, memWrite b v s = .ok t ∧ { t with ram := s.ram, events := s.events } = s ∧
      ∀ k, t.ram.read k = if k = b.toNat % 0x800 then v else s.ram.read k) ∧
    (let c : Word := BitVec.ofNat 16 (b.toNat % 0x800)
     s.readByte b = s.readByte c ∧ ∀ t u, memWrite b v s = .ok t → memWrite c v s = .ok u →
       { t with events := [] } = { u with events := [] })

/-- The decoder is exhaustive and mutually exclusive: the seven ranges and the region of each (R51). -/
def Obligations.RegionsAreExclusive : Prop :=
  ∀ b : Word,
    (region b = .cartridge ↔ 0x6000 ≤ b.toNat ∧ b.toNat ≤ 0xFFFF) ∧
    (region b = .expansion ↔ 0x4020 ≤ b.toNat ∧ b.toNat ≤ 0x5FFF) ∧
    (region b = .audioIo ↔ 0x4000 ≤ b.toNat ∧ b.toNat ≤ 0x401F) ∧
    (region b = .gfxMirror ↔ 0x2008 ≤ b.toNat ∧ b.toNat ≤ 0x3FFF) ∧
    (region b = .gfxRegister ↔ 0x2000 ≤ b.toNat ∧ b.toNat ≤ 0x2007) ∧
    (region b = .ramMirror ↔ 0x0800 ≤ b.toNat ∧ b.toNat ≤ 0x1FFF) ∧
    (region b = .ram ↔ b.toNat ≤ 0x07FF)

/-- Graphics registers: every address from 0x2000 to 0x3FFF selects the register `addr mod 8`; a read is one
`read_register` call that returns its answer, a write one `write_register` call (R56). -/
def Obligations.GraphicsRegistersAreCalls : Prop :=
  ∀ (s : State) (b : Word) (v : Byte), 0x2000 ≤ b.toNat → b.toNat ≤ 0x3FFF →
    (gfxIndex b).toNat = b.toNat % 8 ∧
    (∃ a t, memRead b s = .ok (a, t) ∧ t.gfx = s.gfx ++ [.read (gfxIndex b) a]) ∧
    (∃ t, memWrite b v s = .ok t ∧ t.gfx = s.gfx ++ [.write (gfxIndex b) v])

/-- The stubs and the cartridge under NROM: the stubs read as 0x00 (D16, log entry 11) and drop writes; cartridge RAM
is read and written at `addr - 0x6000` (D36); ROM is read at `(addr - 0x8000) mod L`, so that 16 KiB appear in both
halves, and drops writes with a diagnostic event (R58, R59, R70). That the record holds a write before its diagnostic
event is the model's choice (log entry 4, DESIGN CHOICE). -/
def Obligations.StubsAndCartridge : Prop :=
  ∀ (s : State) (b : Word) (v : Byte), s.mapper = .nrom →
    (0x4000 ≤ b.toNat → b.toNat < 0x6000 → s.readByte b = 0x00 ∧
      memWrite b v s = .ok (s.log (.write b v :: if 0x4020 ≤ b.toNat then [.diag .expansionAccess] else []))) ∧
    (0x6000 ≤ b.toNat → b.toNat < 0x8000 → s.readByte b = s.prgRam.read (b.toNat - 0x6000) ∧
      memWrite b v s = .ok { s.log [.write b v] with prgRam := s.prgRam.write (b.toNat - 0x6000) v }) ∧
    (0x8000 ≤ b.toNat → s.readByte b = s.prgRom.read ((b.toNat - 0x8000) % s.prgSize.bytes) ∧
      memWrite b v s = .ok (s.log [.write b v, .diag .romWrite])) ∧
    (0x8000 ≤ b.toNat → b.toNat < 0xC000 → s.prgSize = .kib16 → s.readByte (b + 0x4000) = s.readByte b)

/-! ### Addressing modes -/

/-- The zero-page modes: the address is the operand byte, plus X or Y modulo 256, with no read and no page cross; no
opcode with such a mode carries a page-cross bonus, and the Y form is used by LDX, STX, LAX and SAX only
(R131, R132, R133). -/
def Obligations.ZeroPageModes : Prop :=
  (∀ (s : State) (i : Byte),
    (s.effAddr (.zeroPage i)).toNat = i.toNat ∧
    (s.effAddr (.zeroPageX i)).toNat = (i.toNat + s.x.toNat) % 256 ∧
    (s.effAddr (.zeroPageY i)).toNat = (i.toNat + s.y.toNat) % 256 ∧
    ∀ m ∈ [Mem.zeroPage i, .zeroPageX i, .zeroPageY i], s.crosses m = false ∧ (s.resolve m).2 = s) ∧
  (∀ op : Byte, (descriptor op).mode ∈ [Mode.zeroPage, .zeroPageX, .zeroPageY] → (descriptor op).pageCrossBonus = 0) ∧
  (∀ op : Byte, (descriptor op).mode = .zeroPageY → (descriptor op).op ∈ [Op.ldx, .stx, .lax, .sax])

/-- The absolute modes: the literal, plus X or Y modulo 65536, with no read; a page cross is a changed high byte
(R134, R135, R136, R144; that no dummy read is made is the spec's decision D14, log entry 20). -/
def Obligations.AbsoluteModes : Prop :=
  ∀ (s : State) (w : Word),
    s.effAddr (.absolute w) = w ∧ s.crosses (.absolute w) = false ∧
    (s.effAddr (.absoluteX w)).toNat = (w.toNat + s.x.toNat) % 65536 ∧
    (s.crosses (.absoluteX w) = true ↔ (w.toNat + s.x.toNat) % 65536 / 256 ≠ w.toNat / 256) ∧
    (s.effAddr (.absoluteY w)).toNat = (w.toNat + s.y.toNat) % 65536 ∧
    (s.crosses (.absoluteY w) = true ↔ (w.toNat + s.y.toNat) % 65536 / 256 ≠ w.toNat / 256) ∧
    ∀ m ∈ [Mem.absolute w, .absoluteX w, .absoluteY w], (s.resolve m).2 = s

/-- The indirect modes: the pointer is two bytes of page zero, low byte first, its address wrapping inside page zero;
IndirectX adds X to the pointer's address, never crosses and never carries a bonus, IndirectY adds Y to the pointer;
the two reads are the only effect (R138, R139). -/
def Obligations.IndirectModes : Prop :=
  (∀ (s : State) (i : Byte),
    (let z : Nat := (i.toNat + s.x.toNat) % 256
     let lo : Word := BitVec.ofNat 16 z
     let hi : Word := BitVec.ofNat 16 ((z + 1) % 256)
     (s.effAddr (.indirectX i)).toNat = 256 * (s.readByte hi).toNat + (s.readByte lo).toNat ∧
     s.crosses (.indirectX i) = false ∧
     (s.resolve (.indirectX i)).2 = s.log [.read lo (s.readByte lo), .read hi (s.readByte hi)]) ∧
    (let lo : Word := BitVec.ofNat 16 i.toNat
     let hi : Word := BitVec.ofNat 16 ((i.toNat + 1) % 256)
     let base : Nat := 256 * (s.readByte hi).toNat + (s.readByte lo).toNat
     (s.effAddr (.indirectY i)).toNat = (base + s.y.toNat) % 65536 ∧
     (s.crosses (.indirectY i) = true ↔ (base + s.y.toNat) % 65536 / 256 ≠ base / 256) ∧
     (s.resolve (.indirectY i)).2 = s.log [.read lo (s.readByte lo), .read hi (s.readByte hi)])) ∧
  (∀ op : Byte, (descriptor op).mode = .indirectX → (descriptor op).pageCrossBonus = 0)

/-- Relative: the signed displacement is added, modulo 65536, to the address of the byte after the two-byte branch,
and a page cross is a changed high byte against that address (R140, `90_conflicts.md` C4). -/
def Obligations.RelativeMode : Prop :=
  ∀ (pc : Word) (i : Byte),
    ((relativeTarget pc i).ea.toNat : Int) = (pc.toNat + 2 + i.toInt) % 65536 ∧
    ((relativeTarget pc i).crossed = true ↔
      (relativeTarget pc i).ea.toNat / 256 ≠ (pc.toNat + 2) % 65536 / 256)

/-- Reading an operand: an immediate is the fetched byte with no access; a byte in memory is one read of the
effective address after the mode's pointer reads, its value the byte there; registers, flags, run state and every byte
of memory stay, and PC is past the instruction (R9, R141, R145, R280). That the record holds the read before its
diagnostic event is the model's choice (log entry 4, DESIGN CHOICE). -/
def Obligations.OperandRead : Prop :=
  (∀ (s : State) (v : Byte), s.operand (.immediate v) = v ∧ s.afterOperand (.immediate v) = { s with pc := s.pc + 2 }) ∧
  (∀ (s : State) (m : Mem),
    s.operand (.mem m) = s.readByte (s.effAddr m) ∧
    (s.afterOperand (.mem m)).events =
      (s.resolve m).2.events ++ .read (s.effAddr m) (s.operand (.mem m)) :: readDiags (s.effAddr m)) ∧
  (∀ (s : State) (o : Src),
    KeepsRegs [] s (s.afterOperand o) ∧ (s.afterOperand o).p = s.p ∧ BytesAfter [] s (s.afterOperand o) ∧
    KeepsMachine s (s.afterOperand o) ∧ (s.afterOperand o).pc = s.pc + BitVec.ofNat 16 o.mode.length)

/-! ### Loads, stores and transfers -/

/-- LDA, LDX, LDY and LAX, in every operand form: the register (for LAX both A and X) takes the operand, Z and N
follow it, and nothing else changes (R150 to R152, R257; the operations are general knowledge, log entry 17). -/
def Obligations.LoadResults : Prop :=
  (∀ (o : Src) (s : State), s.operandOk o = true → ∃ t, exec (.lda o) s = .next t ∧
    t.a = s.operand o ∧ FlagsZN (s.operand o) t ∧ ReadFrame (.lda o) o [.a] [.z, .n] s t) ∧
  (∀ (o : Src) (s : State), s.operandOk o = true → ∃ t, exec (.ldx o) s = .next t ∧
    t.x = s.operand o ∧ FlagsZN (s.operand o) t ∧ ReadFrame (.ldx o) o [.x] [.z, .n] s t) ∧
  (∀ (o : Src) (s : State), s.operandOk o = true → ∃ t, exec (.ldy o) s = .next t ∧
    t.y = s.operand o ∧ FlagsZN (s.operand o) t ∧ ReadFrame (.ldy o) o [.y] [.z, .n] s t) ∧
  (∀ (m : Mem) (s : State), s.busOk (s.effAddr m) = true → ∃ t, exec (.lax m) s = .next t ∧
    t.a = s.operand (.mem m) ∧ t.x = s.operand (.mem m) ∧ FlagsZN (s.operand (.mem m)) t ∧
    ReadFrame (.lax m) (.mem m) [.a, .x] [.z, .n] s t)

/-- STA, STX, STY and SAX, in every operand form: one write of A, X, Y or A AND X to the effective address, no read of
it, no register and no flag (R153 to R155, R258; the operations are general knowledge, log entry 17). -/
def Obligations.StoreResults : Prop :=
  ∀ (m : Mem) (s : State), s.busOk (s.effAddr m) = true →
    (∃ t, exec (.sta m) s = .next t ∧ StoreFrame (.sta m) m s.a s t) ∧
    (∃ t, exec (.stx m) s = .next t ∧ StoreFrame (.stx m) m s.x s t) ∧
    (∃ t, exec (.sty m) s = .next t ∧ StoreFrame (.sty m) m s.y s t) ∧
    (∃ t, exec (.sax m) s = .next t ∧ StoreFrame (.sax m) m (s.a &&& s.x) s t)

/-- The six transfers: the destination takes the source, Z and N follow it except for TXS, which writes no flag, and
nothing else changes (R156 to R161; the operations are general knowledge, log entry 17). -/
def Obligations.TransferResults : Prop :=
  ∀ s : State,
    (∃ t, exec .tax s = .next t ∧ t.x = s.a ∧ FlagsZN s.a t ∧ ImpliedFrame .tax [.x] [.z, .n] s t) ∧
    (∃ t, exec .tay s = .next t ∧ t.y = s.a ∧ FlagsZN s.a t ∧ ImpliedFrame .tay [.y] [.z, .n] s t) ∧
    (∃ t, exec .txa s = .next t ∧ t.a = s.x ∧ FlagsZN s.x t ∧ ImpliedFrame .txa [.a] [.z, .n] s t) ∧
    (∃ t, exec .tya s = .next t ∧ t.a = s.y ∧ FlagsZN s.y t ∧ ImpliedFrame .tya [.a] [.z, .n] s t) ∧
    (∃ t, exec .tsx s = .next t ∧ t.x = s.sp ∧ FlagsZN s.sp t ∧ ImpliedFrame .tsx [.x] [.z, .n] s t) ∧
    (∃ t, exec .txs s = .next t ∧ t.sp = s.x ∧ ImpliedFrame .txs [.sp] [] s t)

/-! ### Arithmetic and logic -/

/-- ADC, SBC and the duplicate SBC, in numbers, whatever the Decimal flag holds: the sum or difference modulo 256,
Carry and Overflow as the exact results say, Z and N from the byte, nothing else changed (R170, R172, R173, R263; that
Decimal is not read is the spec's decision D8, log entry 17). -/
def Obligations.AddSubtractResults : Prop :=
  (∀ (o : Src) (s : State), s.operandOk o = true → ∃ t, exec (.adc o) s = .next t ∧
    HoldsSum s.a (s.operand o) (Flag.c.read s.p) t ∧ ReadFrame (.adc o) o [.a] [.c, .z, .v, .n] s t) ∧
  (∀ (o : Src) (s : State), s.operandOk o = true → ∃ t, exec (.sbc o) s = .next t ∧
    HoldsDifference s.a (s.operand o) (Flag.c.read s.p) t ∧ ReadFrame (.sbc o) o [.a] [.c, .z, .v, .n] s t) ∧
  (∀ (v : Byte) (s : State), ∃ t, exec (.sbcDup v) s = .next t ∧
    HoldsDifference s.a v (Flag.c.read s.p) t ∧ ReadFrame (.sbcDup v) (.immediate v) [.a] [.c, .z, .v, .n] s t)

/-- ADC and then SBC of the same operand with the complementary carry give A back, whatever the operand form of each
(the law of R173). -/
def Obligations.AddThenSubtractRestoresA : Prop :=
  ∀ (o q : Src) (s t u : State), exec (.adc o) s = .next t →
    (t.setFlag .c (!Flag.c.read s.p)).operand q = s.operand o →
    exec (.sbc q) (t.setFlag .c (!Flag.c.read s.p)) = .next u → u.a = s.a

/-- AND, ORA and EOR, in every operand form: A takes the result, Z and N follow it, C and V are untouched
(R174 to R176; the operations are general knowledge, log entry 17). -/
def Obligations.LogicResults : Prop :=
  ∀ (o : Src) (s : State), s.operandOk o = true →
    (∃ t, exec (.and o) s = .next t ∧ t.a = s.a &&& s.operand o ∧ FlagsZN t.a t ∧
      ReadFrame (.and o) o [.a] [.z, .n] s t) ∧
    (∃ t, exec (.ora o) s = .next t ∧ t.a = s.a ||| s.operand o ∧ FlagsZN t.a t ∧
      ReadFrame (.ora o) o [.a] [.z, .n] s t) ∧
    (∃ t, exec (.eor o) s = .next t ∧ t.a = s.a ^^^ s.operand o ∧ FlagsZN t.a t ∧
      ReadFrame (.eor o) o [.a] [.z, .n] s t)

/-- CMP, CPX and CPY, in every operand form: C, Z and N hold the comparison of A, X or Y with the operand, and nothing
else changes, the register compared included (R171, R177 to R179). -/
def Obligations.CompareResults : Prop :=
  ∀ (o : Src) (s : State), s.operandOk o = true →
    (∃ t, exec (.cmp o) s = .next t ∧ HoldsComparison s.a (s.operand o) t ∧
      ReadFrame (.cmp o) o [] [.c, .z, .n] s t) ∧
    (∃ t, exec (.cpx o) s = .next t ∧ HoldsComparison s.x (s.operand o) t ∧
      ReadFrame (.cpx o) o [] [.c, .z, .n] s t) ∧
    (∃ t, exec (.cpy o) s = .next t ∧ HoldsComparison s.y (s.operand o) t ∧
      ReadFrame (.cpy o) o [] [.c, .z, .n] s t)

/-- `CompareCore(reg, m)`: Carry is `reg >= m` unsigned, Zero and Negative come from `reg - m` modulo 256, and nothing
else is written: no other flag, no register, no memory. Carry is not read: its old value changes nothing (R171). -/
def Obligations.CompareCoreResult : Prop :=
  ∀ (s : State) (reg m : Byte),
    let t := s.compareCore reg m
    (Flag.c.read t.p = true ↔ m.toNat ≤ reg.toNat) ∧
    (Flag.z.read t.p = true ↔ (256 + reg.toNat - m.toNat) % 256 = 0) ∧
    (Flag.n.read t.p = true ↔ 128 ≤ (256 + reg.toNat - m.toNat) % 256) ∧
    KeepsFlags [.c, .z, .n] s t ∧ { t with p := s.p } = s ∧
    ∀ b, (s.setFlag .c b).compareCore reg m = t

/-- BIT, in both operand forms: Z is set where A AND the operand is zero, N and V are the operand's bits 7 and 6, and
nothing else changes (R180). -/
def Obligations.BitResult : Prop :=
  ∀ (m : Mem) (s : State), s.busOk (s.effAddr m) = true → ∃ t, exec (.bit m) s = .next t ∧
    Flag.z.read t.p = (s.a &&& s.operand (.mem m) == 0) ∧
    Flag.n.read t.p = (s.operand (.mem m)).getLsbD 7 ∧ Flag.v.read t.p = (s.operand (.mem m)).getLsbD 6 ∧
    ReadFrame (.bit m) (.mem m) [] [.z, .v, .n] s t

/-- INC and DEC, in every operand form: one read and one write of the byte plus or minus 1 modulo 256; Z and N follow
the new byte even where the write is dropped; C and V are untouched (R181, R182; the operations are general knowledge,
log entry 17). -/
def Obligations.MemoryStepResults : Prop :=
  ∀ (m : Mem) (s : State), s.busOk (s.effAddr m) = true →
    let v := s.operand (.mem m)
    (∃ t, exec (.inc m) s = .next t ∧ FlagsZN (v + 1) t ∧ ModifyFrame (.inc m) m (v + 1) [] [.z, .n] s t) ∧
    (∃ t, exec (.dec m) s = .next t ∧ FlagsZN (v - 1) t ∧ ModifyFrame (.dec m) m (v - 1) [] [.z, .n] s t)

/-- INX, INY, DEX and DEY: the register plus or minus 1 modulo 256, Z and N from it, nothing else
(R183 to R186; the operations are general knowledge, log entry 17). -/
def Obligations.RegisterStepResults : Prop :=
  ∀ s : State,
    (∃ t, exec .inx s = .next t ∧ t.x.toNat = (s.x.toNat + 1) % 256 ∧ FlagsZN t.x t ∧
      ImpliedFrame .inx [.x] [.z, .n] s t) ∧
    (∃ t, exec .iny s = .next t ∧ t.y.toNat = (s.y.toNat + 1) % 256 ∧ FlagsZN t.y t ∧
      ImpliedFrame .iny [.y] [.z, .n] s t) ∧
    (∃ t, exec .dex s = .next t ∧ t.x.toNat = (s.x.toNat + 255) % 256 ∧ FlagsZN t.x t ∧
      ImpliedFrame .dex [.x] [.z, .n] s t) ∧
    (∃ t, exec .dey s = .next t ∧ t.y.toNat = (s.y.toNat + 255) % 256 ∧ FlagsZN t.y t ∧
      ImpliedFrame .dey [.y] [.z, .n] s t)

/-! ### Shifts and rotates -/

/-- The four shift cores, bit by bit: Carry receives the bit shifted out, the rotates put the previous Carry into the
vacated bit and the shifts 0, Z and N follow the result, and nothing else is written (R200). -/
def Obligations.ShiftCoreResults : Prop :=
  ∀ (s : State) (v : Byte),
    (∀ core ∈ [fun _ => aslCore, fun _ => lsrCore, rolCore, rorCore],
      let r := shiftModify core v s
      FlagsZN r.1 r.2 ∧ KeepsFlags [.c, .z, .n] s r.2 ∧ { r.2 with p := s.p } = s) ∧
    (∀ k < 8,
      (shiftModify (fun _ => aslCore) v s).1.getLsbD k = (if k = 0 then false else v.getLsbD (k - 1)) ∧
      (shiftModify rolCore v s).1.getLsbD k = (if k = 0 then Flag.c.read s.p else v.getLsbD (k - 1)) ∧
      (shiftModify (fun _ => lsrCore) v s).1.getLsbD k = (if k = 7 then false else v.getLsbD (k + 1)) ∧
      (shiftModify rorCore v s).1.getLsbD k = (if k = 7 then Flag.c.read s.p else v.getLsbD (k + 1))) ∧
    Flag.c.read (shiftModify (fun _ => aslCore) v s).2.p = v.getLsbD 7 ∧
    Flag.c.read (shiftModify rolCore v s).2.p = v.getLsbD 7 ∧
    Flag.c.read (shiftModify (fun _ => lsrCore) v s).2.p = v.getLsbD 0 ∧
    Flag.c.read (shiftModify rorCore v s).2.p = v.getLsbD 0

/-- ASL, LSR, ROL and ROR of the accumulator (R200 to R204). -/
def Obligations.AccumulatorShiftResults : Prop :=
  ∀ s : State,
    (∃ t, exec (.asl .accumulator) s = .next t ∧ t.a = s.a <<< 1 ∧ Flag.c.read t.p = s.a.getLsbD 7 ∧ FlagsZN t.a t ∧
      ImpliedFrame (.asl .accumulator) [.a] [.c, .z, .n] s t) ∧
    (∃ t, exec (.lsr .accumulator) s = .next t ∧ t.a = s.a >>> 1 ∧ Flag.c.read t.p = s.a.getLsbD 0 ∧ FlagsZN t.a t ∧
      ImpliedFrame (.lsr .accumulator) [.a] [.c, .z, .n] s t) ∧
    (∃ t, exec (.rol .accumulator) s = .next t ∧ t.a = s.a <<< 1 ||| (if Flag.c.read s.p then 0x01 else 0x00) ∧
      Flag.c.read t.p = s.a.getLsbD 7 ∧ FlagsZN t.a t ∧ ImpliedFrame (.rol .accumulator) [.a] [.c, .z, .n] s t) ∧
    (∃ t, exec (.ror .accumulator) s = .next t ∧ t.a = s.a >>> 1 ||| (if Flag.c.read s.p then 0x80 else 0x00) ∧
      Flag.c.read t.p = s.a.getLsbD 0 ∧ FlagsZN t.a t ∧ ImpliedFrame (.ror .accumulator) [.a] [.c, .z, .n] s t)

/-- ASL, LSR, ROL and ROR of a byte in memory, in every operand form: one read and one write; C, Z and N are set even
where the write is dropped; A is untouched (R200 to R204). -/
def Obligations.MemoryShiftResults : Prop :=
  ∀ (m : Mem) (s : State), s.busOk (s.effAddr m) = true →
    let v := s.operand (.mem m)
    let rol := v <<< 1 ||| (if Flag.c.read s.p then 0x01 else 0x00)
    let ror := v >>> 1 ||| (if Flag.c.read s.p then 0x80 else 0x00)
    (∃ t, exec (.asl (.mem m)) s = .next t ∧ Flag.c.read t.p = v.getLsbD 7 ∧ FlagsZN (v <<< 1) t ∧
      ModifyFrame (.asl (.mem m)) m (v <<< 1) [] [.c, .z, .n] s t) ∧
    (∃ t, exec (.lsr (.mem m)) s = .next t ∧ Flag.c.read t.p = v.getLsbD 0 ∧ FlagsZN (v >>> 1) t ∧
      ModifyFrame (.lsr (.mem m)) m (v >>> 1) [] [.c, .z, .n] s t) ∧
    (∃ t, exec (.rol (.mem m)) s = .next t ∧ Flag.c.read t.p = v.getLsbD 7 ∧ FlagsZN rol t ∧
      ModifyFrame (.rol (.mem m)) m rol [] [.c, .z, .n] s t) ∧
    (∃ t, exec (.ror (.mem m)) s = .next t ∧ Flag.c.read t.p = v.getLsbD 0 ∧ FlagsZN ror t ∧
      ModifyFrame (.ror (.mem m)) m ror [] [.c, .z, .n] s t)

/-! ### The stack -/

/-- PHA and PHP: the byte (for PHP the status with Unused and Break set, D9) is written at 0x0100 plus SP, then SP is
decremented modulo 256; no flag changes (R210, R211, R213; the page is the spec's decision D3, log entry 17). -/
def Obligations.PushResults : Prop :=
  ∀ s : State,
    (stackAddr s.sp).toNat = 0x0100 + s.sp.toNat ∧
    (∃ t, exec .pha s = .next t ∧ t.sp.toNat = (s.sp.toNat + 255) % 256 ∧
      Frame [.sp] [] [(stackAddr s.sp, s.a)] s (s.push s.a) t ∧ Finished (s.pc + 1) 3 t) ∧
    (∃ t, exec .php s = .next t ∧ t.sp.toNat = (s.sp.toNat + 255) % 256 ∧
      Frame [.sp] [] [(stackAddr s.sp, s.p ||| 0x30)] s (s.push (s.p ||| 0x30)) t ∧ Finished (s.pc + 1) 3 t)

/-- PLA and PLP: SP is incremented modulo 256 and the byte at 0x0100 plus the new SP is read, into A with Z and N, or
into the status with Unused set and Break clear (R210, R212, R214; D3 and D10, log entry 17). -/
def Obligations.PullResults : Prop :=
  ∀ s : State,
    let v := s.readByte (stackAddr (s.sp + 1))
    (∃ t, exec .pla s = .next t ∧ t.a = v ∧ t.sp.toNat = (s.sp.toNat + 1) % 256 ∧ FlagsZN v t ∧
      Frame [.a, .sp] [.z, .n] [] s s.afterPull t ∧ Finished (s.pc + 1) 4 t) ∧
    (∃ t, exec .plp s = .next t ∧ t.p = (v &&& 0xEF) ||| 0x20 ∧ t.sp.toNat = (s.sp.toNat + 1) % 256 ∧
      Frame [.sp] [.c, .z, .i, .d, .b, .u, .v, .n] [] s s.afterPull t ∧ Finished (s.pc + 1) 4 t)

/-- Stack discipline: up to 256 bytes pushed come back in the reverse order, and the stack pointer returns to where it
was (R210; the bound 256 is the spec's own derivation). -/
def Obligations.StackDiscipline : Prop :=
  ∀ (s : State) (vs : List Byte), vs.length ≤ 256 →
    State.pulledBytes vs.length (s.pushAll vs) = vs.reverse ∧
    (State.afterPulls vs.length (s.pushAll vs)).sp = s.sp

/-! ### Control flow -/

/-- The eight branches: taken where the tested flag has the required polarity, PC then at the target of R140, else
past the branch; no flag, register or memory changes; 2 cycles, 1 more if taken, 1 more again if taken across a page
(R220 to R228; which flag each tests is general knowledge and the counts are the spec's decision D13, log entries 16
and 17). -/
def Obligations.BranchResults : Prop :=
  ∀ (d : Byte) (s : State),
    ∀ b ∈ [(Instr.bcc d, Flag.c, false), (.bcs d, .c, true), (.beq d, .z, true), (.bne d, .z, false),
        (.bmi d, .n, true), (.bpl d, .n, false), (.bvc d, .v, false), (.bvs d, .v, true)],
      ∃ t, exec b.1 s = .next t ∧ Frame [] [] [] s s t ∧
        if b.2.1.read s.p = b.2.2 then
          Finished (relativeTarget s.pc d).ea (if (relativeTarget s.pc d).crossed then 4 else 3) t
        else Finished (s.pc + 2) 2 t

/-- JMP: to the literal with no data access, or through a pointer, low byte first, whose second byte is read from the
start of the same page when the first lies at its end (R134, R137, R229; the operation is general knowledge, log
entry 17). -/
def Obligations.JumpResults : Prop :=
  (∀ (w : Word) (s : State), ∃ t, exec (.jmp (.absolute w)) s = .next t ∧ Frame [] [] [] s s t ∧ Finished w 3 t) ∧
  (∀ (ptr second : Word) (s : State),
    second.toNat = (if ptr.toNat % 256 = 255 then ptr.toNat - 255 else ptr.toNat + 1) →
    s.busOk ptr = true → ∃ t, exec (.jmp (.indirect ptr)) s = .next t ∧
      Frame [] [] [] s ((s.afterRead ptr).afterRead second) t ∧
      Finished (word ((s.afterRead ptr).readByte second) (s.readByte ptr)) 5 t)

/-- JSR pushes the address of its own last byte, high byte first, and jumps; SP falls by 2 and nothing else changes
(R230, the spec's decision D27, log entry 17). -/
def Obligations.JsrResult : Prop :=
  ∀ (w : Word) (s : State),
    let hi := hiByte (s.pc + 2)
    let lo := loByte (s.pc + 2)
    ∃ t, exec (.jsr w) s = .next t ∧ t.sp.toNat = (s.sp.toNat + 254) % 256 ∧
      Frame [.sp] [] [(stackAddr s.sp, hi), (stackAddr (s.sp - 1), lo)] s ((s.push hi).push lo) t ∧ Finished w 6 t

/-- RTS pulls the low and the high byte of an address and goes to the address plus 1 (R231, D27, log entry 17). -/
def Obligations.RtsResult : Prop :=
  ∀ s : State, ∃ t, exec .rts s = .next t ∧ t.sp.toNat = (s.sp.toNat + 2) % 256 ∧
    Frame [.sp] [] [] s s.afterPull.afterPull t ∧
    Finished (word (s.readByte (stackAddr (s.sp + 2))) (s.readByte (stackAddr (s.sp + 1))) + 1) 6 t

/-- RTI pulls the status, Unused set and Break clear, then the low and the high byte of PC, adding nothing
(R232, R288, D27, log entry 17). -/
def Obligations.RtiResult : Prop :=
  ∀ s : State, ∃ t, exec .rti s = .next t ∧ t.sp.toNat = (s.sp.toNat + 3) % 256 ∧
    t.p = (s.readByte (stackAddr (s.sp + 1)) &&& 0xEF) ||| 0x20 ∧
    Frame [.sp] [.c, .z, .i, .d, .b, .u, .v, .n] [] s s.afterPull.afterPull.afterPull t ∧
    Finished (word (s.readByte (stackAddr (s.sp + 3))) (s.readByte (stackAddr (s.sp + 2)))) 6 t

/-- BRK, the exception entry: it pushes its own address plus 2, high byte first, and the status with Unused and Break
set, sets I, and goes to the address at 0xFFFE, low byte first; no other flag and no other register changes
(R233, R287, the spec's decision D11, log entry 17). -/
def Obligations.BrkResult : Prop :=
  ∀ s : State, s.mapper = .nrom →
    let hi := hiByte (s.pc + 2)
    let lo := loByte (s.pc + 2)
    let saved := ((s.push hi).push lo).push (s.p ||| 0x30)
    ∃ t, exec .brk s = .next t ∧ t.sp.toNat = (s.sp.toNat + 253) % 256 ∧ Flag.i.read t.p = true ∧
      Frame [.sp] [.i]
        [(stackAddr s.sp, hi), (stackAddr (s.sp - 1), lo), (stackAddr (s.sp - 2), s.p ||| 0x30)] s
        ((saved.afterRead 0xFFFE).afterRead 0xFFFF) t ∧
      Finished (word (s.readByte 0xFFFF) (s.readByte 0xFFFE)) 7 t

/-- A call returns: an RTS in any state whose stack top is as JSR left it goes to the instruction after the JSR, with
SP as it was before (R230, R231, D27, log entry 17). -/
def Obligations.CallReturns : Prop :=
  ∀ (w : Word) (s t u v : State), exec (.jsr w) s = .next t → SameStackTop 2 t u → exec .rts u = .next v →
    v.pc = s.pc + 3 ∧ v.sp = s.sp

/-- RTI undoes a BRK: in any state whose stack top is as BRK left it, it restores SP and the whole status register (in
states where Unused is 1 and Break is 0, as R26 has them always) and resumes two bytes after the BRK opcode
(R233, R232, R288, log entry 17). -/
def Obligations.BreakReturns : Prop :=
  ∀ s t u v : State, s.statusOk = true → exec .brk s = .next t → SameStackTop 3 t u → exec .rti u = .next v →
    v.pc = s.pc + 2 ∧ v.sp = s.sp ∧ v.p = s.p

/-! ### Flags and NOPs -/

/-- CLC, SEC, CLI, SEI, CLD, SED and CLV: one flag written, nothing else changed
(R240 to R246; the operations are general knowledge, log entry 17). -/
def Obligations.FlagInstructionResults : Prop :=
  ∀ s : State, ∀ b ∈ [(Instr.clc, Flag.c, false), (.sec, .c, true), (.cli, .i, false), (.sei, .i, true),
      (.cld, .d, false), (.sed, .d, true), (.clv, .v, false)],
    ∃ t, exec b.1 s = .next t ∧ b.2.1.read t.p = b.2.2 ∧ ImpliedFrame b.1 [] [b.2.1] s t

/-- NOP and the duplicate NOPs, in every form: no register, flag or memory byte changes and no data access is made
beyond the mode's pointer reads; PC passes the instruction (R247, R264; the missing access is the spec's decision D18,
log entry 20). -/
def Obligations.NopResults : Prop :=
  (∀ s : State, ∃ t, exec .nop s = .next t ∧ ImpliedFrame .nop [] [] s t) ∧
  (∀ (b : Byte) (s : State), ∃ t, exec (.nopDup b .implied) s = .next t ∧
    ImpliedFrame (.nopDup b .implied) [] [] s t) ∧
  (∀ (b v : Byte) (s : State), ∃ t, exec (.nopDup b (.immediate v)) s = .next t ∧ Frame [] [] [] s s t ∧
    Finished (s.pc + 2) (cycles (.nopDup b (.immediate v)) false) t) ∧
  (∀ (b : Byte) (m : Mem) (s : State), ∃ t, exec (.nopDup b (.mem m)) s = .next t ∧
    Frame [] [] [] s (s.resolve m).2 t ∧
    Finished (s.afterInstr (.nopDup b (.mem m))) (cycles (.nopDup b (.mem m)) (s.crosses m)) t)

/-- The Decimal and the Interrupt-disable flag are inert: an instruction that neither writes nor pushes the flag does
exactly the same with it set as with it clear, and leaves it as it was, for one and the same behaviour of the graphics
collaborator (R188, R285; the spec's decisions D8 and D21, log entries 2 and 17). -/
def Obligations.DecimalAndInterruptAreInert : Prop :=
  ∀ (i : Instr) (f : Flag) (b : Bool) (s : State),
    (f = .d ∧ i ∉ [Instr.sed, .cld, .php, .plp, .rti, .brk]) ∨
      (f = .i ∧ i ∉ [Instr.sei, .cli, .php, .plp, .rti, .brk]) →
    (∀ t, exec i s = .next t → exec i (s.setFlag f b) = .next (t.setFlag f b)) ∧
    (∀ x, exec i s = .fault x → exec i (s.setFlag f b) = .fault x)

/-! ### Unofficial instructions -/

/-- SLO, RLA and SRE, in every operand form: the shift's byte is written back and its Carry kept, and A is combined
with that byte, Z and N from the final A (R250 to R253; the pairings are general knowledge and the use of the produced
byte the spec's decision D37, log entries 13 and 17). -/
def Obligations.ShiftCombinationResults : Prop :=
  ∀ (m : Mem) (s : State), s.busOk (s.effAddr m) = true →
    let v := s.operand (.mem m)
    let rol := v <<< 1 ||| (if Flag.c.read s.p then 0x01 else 0x00)
    (∃ t, exec (.slo m) s = .next t ∧ t.a = s.a ||| v <<< 1 ∧ Flag.c.read t.p = v.getLsbD 7 ∧ FlagsZN t.a t ∧
      ModifyFrame (.slo m) m (v <<< 1) [.a] [.c, .z, .n] s t) ∧
    (∃ t, exec (.rla m) s = .next t ∧ t.a = s.a &&& rol ∧ Flag.c.read t.p = v.getLsbD 7 ∧ FlagsZN t.a t ∧
      ModifyFrame (.rla m) m rol [.a] [.c, .z, .n] s t) ∧
    (∃ t, exec (.sre m) s = .next t ∧ t.a = s.a ^^^ v >>> 1 ∧ Flag.c.read t.p = v.getLsbD 0 ∧ FlagsZN t.a t ∧
      ModifyFrame (.sre m) m (v >>> 1) [.a] [.c, .z, .n] s t)

/-- RRA, DCP and ISC, in every operand form: the rotated, decremented or incremented byte is written back; RRA adds it
with the bit rotated out as the carry, DCP compares A with it, ISC subtracts it
(R250, R254 to R256; the pairings are general knowledge, log entries 13 and 17). -/
def Obligations.ArithmeticCombinationResults : Prop :=
  ∀ (m : Mem) (s : State), s.busOk (s.effAddr m) = true →
    let v := s.operand (.mem m)
    let ror := v >>> 1 ||| (if Flag.c.read s.p then 0x80 else 0x00)
    (∃ t, exec (.rra m) s = .next t ∧ HoldsSum s.a ror (v.getLsbD 0) t ∧
      ModifyFrame (.rra m) m ror [.a] [.c, .z, .v, .n] s t) ∧
    (∃ t, exec (.dcp m) s = .next t ∧ HoldsComparison s.a (v - 1) t ∧
      ModifyFrame (.dcp m) m (v - 1) [] [.c, .z, .n] s t) ∧
    (∃ t, exec (.isc m) s = .next t ∧ HoldsDifference s.a (v + 1) (Flag.c.read s.p) t ∧
      ModifyFrame (.isc m) m (v + 1) [.a] [.c, .z, .v, .n] s t)

/-- ALR, ANC, ARR and AXS (R259 to R262; the operations are general knowledge and the spec's decision D19, log entries
13 and 17). -/
def Obligations.ImmediateCombinationResults : Prop :=
  ∀ (v : Byte) (s : State),
    let ror := (s.a &&& v) >>> 1 ||| (if Flag.c.read s.p then 0x80 else 0x00)
    (∃ t, exec (.alr v) s = .next t ∧ t.a = (s.a &&& v) >>> 1 ∧ Flag.c.read t.p = (s.a &&& v).getLsbD 0 ∧
      Flag.n.read t.p = false ∧ FlagsZN t.a t ∧ ReadFrame (.alr v) (.immediate v) [.a] [.c, .z, .n] s t) ∧
    (∀ b, ∃ t, exec (.anc b v) s = .next t ∧ t.a = s.a &&& v ∧ Flag.c.read t.p = t.a.getLsbD 7 ∧ FlagsZN t.a t ∧
      ReadFrame (.anc b v) (.immediate v) [.a] [.c, .z, .n] s t) ∧
    (∃ t, exec (.arr v) s = .next t ∧ t.a = ror ∧ FlagsZN ror t ∧ Flag.c.read t.p = ror.getLsbD 6 ∧
      Flag.v.read t.p = (ror.getLsbD 6 ^^ ror.getLsbD 5) ∧
      ReadFrame (.arr v) (.immediate v) [.a] [.c, .z, .v, .n] s t) ∧
    (∃ t, exec (.axs v) s = .next t ∧ t.x = (s.a &&& s.x) - v ∧ HoldsComparison (s.a &&& s.x) v t ∧
      ReadFrame (.axs v) (.immediate v) [.x] [.c, .z, .n] s t)

/-- SHX and SHY store the register AND the base's high byte plus 1, at the indexed address, whose high byte is the
stored byte where the index crosses a page; no register and no flag changes, always 5 cycles (R265, R266; the formula
is the spec's decision D20, for which it recommends refusal: log entry 12). -/
def Obligations.HighAndStoreResults : Prop :=
  ∀ (w : Word) (s : State),
    (let v := s.x &&& (hiByte w + 1)
     let ea := w + zext16 s.y
     let a := if hiByte ea = hiByte w then ea else word v (loByte ea)
     s.busOk a = true → ∃ t, exec (.shx w) s = .next t ∧ Frame [] [] [(a, v)] s (s.afterWrite a v) t ∧
       Finished (s.pc + 3) 5 t) ∧
    (let v := s.y &&& (hiByte w + 1)
     let ea := w + zext16 s.x
     let a := if hiByte ea = hiByte w then ea else word v (loByte ea)
     s.busOk a = true → ∃ t, exec (.shy w) s = .next t ∧ Frame [] [] [(a, v)] s (s.afterWrite a v) t ∧
       Finished (s.pc + 3) 5 t)

/-! ### The host's side -/

/-- Construction: a wrong program-ROM or character-ROM size builds no machine; the right sizes build one that is well
formed, holds the register values of R34, the contents passed to it in all six memories, and PC at the parameter or at
the word read through the bus at 0xFFFC (R34, R73, R310, R311, R313; D4, D5, D29 and log entries 6, 8 and 17). The error
for another mapper code, and the program ROM's error where both sizes are wrong, which the spec does not order, are the
model's choice (log entry 14), and so is 0x00 for the bytes a short content does not give (log entry 5). -/
def Obligations.ConstructChecksSizes : Prop :=
  ∀ q : Params,
    (q.mapperCode ≠ 0 → construct q = .error .noMapper) ∧
    (q.mapperCode = 0 → q.prgRom.length ≠ 16384 → q.prgRom.length ≠ 32768 →
      construct q = .error .wrongSizeProgramRom) ∧
    (q.mapperCode = 0 → q.prgRom.length = 16384 ∨ q.prgRom.length = 32768 →
      (q.chrRom.length ≠ 8192 → construct q = .error .wrongSizeCharacterRom) ∧
      (q.chrRom.length = 8192 → ∃ s, construct q = .ok s ∧ s.wellFormed = true ∧ s.registers = (0x00, 0x00, 0x00) ∧
        s.stackPointer = 0xFD ∧ s.status = 0x24 ∧ s.run = .running ∧ s.prgSize.bytes = q.prgRom.length ∧
        s.mirroring = q.mirroring ∧
        (∀ k < 0x8000, s.readByte (BitVec.ofNat 16 (0x8000 + k)) = q.prgRom.getD (k % q.prgRom.length) 0) ∧
        (∀ k < 8192, s.chrRom.read k = q.chrRom.getD k 0) ∧
        (∀ k < 0x800, s.ram.read k = q.ramInit.getD k 0) ∧
        (∀ k < 0x2000, s.prgRam.read k = q.prgRamInit.getD k 0) ∧
        (∀ k < 0x800, s.vram.read k = q.vramInit.getD k 0) ∧
        (∀ k < 32, s.palette.read k = q.paletteInit.getD k 0) ∧
        s.pc = q.resetPc.getD (word (s.readByte 0xFFFD) (s.readByte 0xFFFC))))

/-- The graphics-internal space: what each range reads, what a write stores and drops, the video-RAM index of a
name-table address in numbers for both mirroring modes, and that name tables alias as the mode says; a write changes no
register and no byte of the CPU-visible space (R75 to R80; the bounds and formulas are the spec's decisions D23 and D30,
log entries 15 and 17). -/
def Obligations.GraphicsSpaceReadsAndWrites : Prop :=
  ∀ (s : State) (c b : GfxAddr) (v : Byte), s.mapper = .nrom →
    let t := ppuMemWrite c v s
    (b.toNat < 0x2000 → ppuMemRead b t = .ok (s.chrRom.read b.toNat, t)) ∧
    (0x2000 ≤ b.toNat → b.toNat < 0x3000 →
      vramIndex .vertical b = (b.toNat - 0x2000) / 0x400 % 2 * 0x400 + b.toNat % 0x400 ∧
      vramIndex .horizontal b = (b.toNat - 0x2000) / 0x800 % 2 * 0x400 + b.toNat % 0x400) ∧
    (0x2000 ≤ b.toNat → b.toNat < 0x3000 → ppuMemRead b t = .ok (
      if 0x2000 ≤ c.toNat ∧ c.toNat < 0x3000 ∧ c.toNat % 0x400 = b.toNat % 0x400 ∧
        (s.mirroring = .vertical → c.toNat / 0x400 % 2 = b.toNat / 0x400 % 2) ∧
        (s.mirroring = .horizontal → c.toNat / 0x800 % 2 = b.toNat / 0x800 % 2)
      then v else s.vram.read (vramIndex s.mirroring b), t)) ∧
    (0x3000 ≤ b.toNat → b.toNat < 0x3F00 → ppuMemRead b t = .ok (0x00, t.log [.diag .unusedGfxAccess])) ∧
    (0x3F00 ≤ b.toNat → ppuMemRead b t = .ok (
      if 0x3F00 ≤ c.toNat ∧ c.toNat % 32 = b.toNat % 32 then v else s.palette.read (b.toNat % 32), t)) ∧
    (c.toNat < 0x2000 ∨ 0x3000 ≤ c.toNat → t.vram = s.vram) ∧ (c.toNat < 0x3F00 → t.palette = s.palette) ∧
    KeepsRegs [] s t ∧ t.p = s.p ∧ t.pc = s.pc ∧ BytesAfter [] s t ∧ KeepsMachine s t

/-- The trace variant is exactly the step, and returns the descriptor and the instruction's own bytes, a decode error
with its opcode, or `Halt` (R294; that these stand in next states is log entry 1). The trace line holds the registers
before the step and the bytes fetched whatever the outcome, so also STP's byte and the sentinel's; the line of a step
begun stopped has no byte (R283, R295, R297). -/
def Obligations.TraceReturnsFetchedBytes : Prop :=
  (∀ (s t : State) (i : Instr) (rest : List Byte), s.run = .running →
    decode [s.fetchedByte 0, s.fetchedByte 1, s.fetchedByte 2] = .ok (i, rest) → step s = .next t →
    (t.completed = true → traceStep s = .next (t, some (.ok i.descriptor (encode i)))) ∧
    (∀ b, i = .invalid b → traceStep s = .next (t, some (.decodeError b))) ∧
    (∀ b, i = .stp b → traceStep s = .next (t, some .halt)) ∧
    (t.completed = true ∨ (∃ b, i = .invalid b) ∨ (∃ b, i = .stp b)) ∧
    traceLine s t = ⟨s.pc, encode i, s.a, s.x, s.y, s.p, s.sp⟩) ∧
  (∀ s : State, s.run = .stopped → ∃ t, traceStep s = .next (t, some .halt) ∧
    traceLine s t = ⟨s.pc, [], s.a, s.x, s.y, s.p, s.sp⟩)
end

