-- ==== Sys2Proof/Laws/Flags.lean ====
section
/-!
SUPPORT. The flags of each status computation, so that no later proof unfolds a mask: what a flag reads as after one
flag is written, and after `SetZN`, the adder, the comparator, BIT, a shift, ANC, ARR, and a pushed or pulled status.
-/

namespace Sys2Proof

theorem getLsbD_word (h l : Byte) (i : Nat) : 
    (word h l).getLsbD i = if i < 8 then l.getLsbD i else h.getLsbD (i - 8) := by
  have := BitVec.getLsbD_append (x := h) (y := l) (i := i)
  cases hi : decide (i < 8) <;> simp_all [word]

@[simp] theorem loByte_word (h l : Byte) : loByte (word h l) = l := by
  apply BitVec.eq_of_getLsbD_eq
  intro i hi
  simp [loByte, getLsbD_word, hi]

@[simp] theorem hiByte_word (h l : Byte) : hiByte (word h l) = h := by
  apply BitVec.eq_of_getLsbD_eq
  intro i hi
  simp [hiByte, getLsbD_word, hi]

@[simp] theorem word_hiByte_loByte (w : Word) : word (hiByte w) (loByte w) = w := by
  apply BitVec.eq_of_getLsbD_eq
  intro i hi
  by_cases h8 : i < 8
  · simp [getLsbD_word, hiByte, loByte, h8]
  · simp [getLsbD_word, hiByte, loByte, h8, show i - 8 < 8 by omega, show 8 + (i - 8) = i by omega]

namespace Machine

namespace Flag

@[simp] theorem read_write (f g : Flag) (b : Bool) (p : Byte) :
    f.read (g.write b p) = if f = g then b else f.read p := by
  cases f <;> cases g <;> cases b <;>
    simp [read, write, mask, bit]

/-- Two status bytes with the same flags are the same byte. -/
theorem ext_read {p q : Byte} (h : ∀ f : Flag, f.read p = f.read q) : p = q := by
  ext i hi
  have all : ∀ f : Flag, p.getLsbD f.bit = q.getLsbD f.bit := h
  have h0 := all .c; have h1 := all .z; have h2 := all .i; have h3 := all .d
  have h4 := all .b; have h5 := all .u; have h6 := all .v; have h7 := all .n
  simp only [bit] at h0 h1 h2 h3 h4 h5 h6 h7
  rw [← BitVec.getLsbD_eq_getElem hi, ← BitVec.getLsbD_eq_getElem hi]
  rcases i with _ | _ | _ | _ | _ | _ | _ | _ | i
  · exact h0
  · exact h1
  · exact h2
  · exact h3
  · exact h4
  · exact h5
  · exact h6
  · exact h7
  · omega

end Flag

@[simp] theorem read_setZN (f : Flag) (r p : Byte) :
    f.read (setZN r p) = if f = .n then r.getLsbD 7 else if f = .z then r == 0 else f.read p := by
  simp [setZN, BitVec.msb_eq_getLsbD_last]

@[simp] theorem read_compareFlags (f : Flag) (reg m p : Byte) :
    f.read (compareFlags reg m p) =
      if f = .n then (reg - m).getLsbD 7 else if f = .z then reg - m == 0
      else if f = .c then decide (m ≤ reg) else f.read p := by
  simp [compareFlags]

@[simp] theorem read_addFlags (f : Flag) (a m p : Byte) :
    f.read (addFlags a m p) =
      if f = .n then (addResult a m (Flag.c.read p)).getLsbD 7
      else if f = .z then addResult a m (Flag.c.read p) == 0
      else if f = .v then addOverflow a m (addResult a m (Flag.c.read p))
      else if f = .c then decide (addSum a m (Flag.c.read p) > 255) else f.read p := by
  simp [addFlags]

@[simp] theorem read_bitFlags (f : Flag) (a m p : Byte) :
    f.read (bitFlags a m p) =
      if f = .v then m.getLsbD 6 else if f = .n then m.getLsbD 7 else if f = .z then a &&& m == 0
      else f.read p := by
  simp [bitFlags]

@[simp] theorem read_shiftFlags (f : Flag) (rc : Byte × Bool) (p : Byte) :
    f.read (shiftFlags rc p) =
      if f = .n then rc.1.getLsbD 7 else if f = .z then rc.1 == 0 else if f = .c then rc.2 else f.read p := by
  simp [shiftFlags]

@[simp] theorem read_ancFlags (f : Flag) (r p : Byte) :
    f.read (ancFlags r p) =
      if f = .c then r.getLsbD 7 else if f = .n then r.getLsbD 7 else if f = .z then r == 0 else f.read p := by
  simp [ancFlags]

@[simp] theorem read_arrFlags (f : Flag) (r p : Byte) :
    f.read (arrFlags r p) =
      if f = .v then (r.getLsbD 6 ^^ r.getLsbD 5) else if f = .c then r.getLsbD 6
      else if f = .n then r.getLsbD 7 else if f = .z then r == 0 else f.read p := by
  simp [arrFlags]

@[simp] theorem read_pushedStatus (f : Flag) (p : Byte) :
    f.read (pushedStatus p) = if f = .b ∨ f = .u then true else f.read p := by
  cases f <;> simp [pushedStatus, Flag.read, Flag.bit]

@[simp] theorem read_pulledStatus (f : Flag) (v : Byte) :
    f.read (pulledStatus v) = if f = .u then true else if f = .b then false else f.read v := by
  cases f <;> simp [pulledStatus, Flag.read, Flag.bit]

end Machine

end Sys2Proof
end

