-- ==== Sys2Proof/Laws/Decode.lean ====
section
/-!
SUPPORT. What the decoder's pieces give: the mode of a decoded operand, the length of a decoded instruction, and what
`decode` answers.
-/

namespace Sys2Proof

theorem memOperand_mode {mode : Mode} {i j : Byte} {m : Mem} (h : memOperand mode i j = some m) : m.mode = mode := by
  cases mode <;> simp [memOperand] at h <;> subst h <;> rfl

theorem srcOperand_mode {mode : Mode} {i j : Byte} {o : Src} (h : srcOperand mode i j = some o) : o.mode = mode := by
  cases mode <;> simp [srcOperand, memOperand] at h <;> subst h <;> rfl

theorem shiftOperand_mode {mode : Mode} {i j : Byte} {o : Shiftee} (h : shiftOperand mode i j = some o) :
    o.mode = mode := by
  cases mode <;> simp [shiftOperand, memOperand] at h <;> subst h <;> rfl

theorem jumpOperand_mode {mode : Mode} {i j : Byte} {t : JumpTarget} (h : jumpOperand mode i j = some t) :
    t.mode = mode := by
  cases mode <;> simp [jumpOperand] at h <;> subst h <;> rfl

theorem nopOperand_mode {mode : Mode} {i j : Byte} {o : NopOperand} (h : nopOperand mode i j = some o) :
    o.mode = mode := by
  cases mode <;> simp [nopOperand, memOperand] at h <;> subst h <;> rfl

/-- The length of the instructions of an operation tag in a mode: the mode's, where the form carries the mode. -/
def Op.lengthIn (op : Op) (mode : Mode) : Nat :=
  match op with
  | .tax | .tay | .txa | .tya | .tsx | .txs | .inx | .iny | .dex | .dey | .pha | .pla | .php | .plp | .rts | .rti
  | .brk | .clc | .sec | .cli | .sei | .cld | .sed | .clv | .nop | .stp | .invalid => 1
  | .bcc | .bcs | .beq | .bne | .bmi | .bpl | .bvc | .bvs | .alr | .anc | .arr | .axs | .sbcDup => 2
  | .jsr | .shx | .shy => 3
  | .lda | .ldx | .ldy | .sta | .stx | .sty | .adc | .sbc | .and | .ora | .eor | .cmp | .cpx | .cpy | .bit | .inc
  | .dec | .asl | .lsr | .rol | .ror | .jmp | .slo | .rla | .sre | .rra | .dcp | .isc | .lax | .sax | .nopDup =>
    mode.length

theorem instrOfOp_length {d : Descriptor} {op i j : Byte} {x : Instr} (h : instrOfOp d op i j = some x) :
    x.length = d.op.lengthIn d.mode := by
  obtain ⟨o, m, _, _, _⟩ := d
  cases o <;> first
    | (cases h; rfl)
    | (obtain ⟨y, hy, rfl⟩ := Option.map_eq_some_iff.1 h
       first
         | exact congrArg Mode.length (srcOperand_mode hy)
         | exact congrArg Mode.length (memOperand_mode hy)
         | exact congrArg Mode.length (shiftOperand_mode hy)
         | exact congrArg Mode.length (jumpOperand_mode hy)
         | exact congrArg Mode.length (nopOperand_mode hy))

/-- Every row's length is the one its operation and mode imply (R102). -/
theorem descriptor_length (op : Byte) : (descriptor op).length = (descriptor op).op.lengthIn (descriptor op).mode := by
  revert op; decide +kernel

/-- A decoded instruction is as long as its opcode's descriptor says (R102). -/
theorem instrOf_length (op i j : Byte) : (instrOf op i j).length = (descriptor op).length := by
  have hsome : ∀ op i j : Byte, (instrOfOp (descriptor op) op i j).isSome = true := by
    have h0 : ∀ op : Byte, (instrOfOp (descriptor op) op 0 0).isSome = true := by decide +kernel
    intro op i j
    have := h0 op
    revert this
    generalize descriptor op = d
    obtain ⟨o, m, _, _, _⟩ := d
    cases o <;> first
      | exact fun _ => rfl
      | (simp only [instrOfOp, Option.isSome_map]; cases m <;> first | exact fun _ => rfl | exact fun h => h)
  obtain ⟨x, hx⟩ := Option.isSome_iff_exists.1 (hsome op i j)
  rw [instrOf, hx, descriptor_length, Option.getD_some, instrOfOp_length hx]

theorem descriptor_length_cases (op : Byte) :
    (descriptor op).length = 1 ∨ (descriptor op).length = 2 ∨ (descriptor op).length = 3 := by
  revert op; decide +kernel

end Sys2Proof
end

