-- ==== Sys2Proof/Laws/Memory.lean ====
section
/-!
SUPPORT. What a memory array's operations do: read after write, and that every write keeps the canonical form and the size.
-/

namespace Sys2Proof.Machine.Memory

@[simp] theorem read_nil (n : Nat) : read [] n = unlisted := rfl

theorem read_erase_self (m : Memory) (n : Nat) : (m.erase n).read n = unlisted := by
  induction m with
  | nil => rfl
  | cons c m ih =>
    by_cases h : c.1 = n
    · simpa [erase, h] using ih
    · simpa [erase, h, read] using ih

theorem read_erase_of_ne (m : Memory) {n k : Nat} (h : k ≠ n) : (m.erase n).read k = m.read k := by
  induction m with
  | nil => rfl
  | cons c m ih =>
    by_cases hc : c.1 = n
    · have : c.1 ≠ k := fun e => h (e.symm.trans hc)
      simpa [erase, hc, read, this, Ne.symm h] using ih
    · simp only [erase, List.filter_cons, bne_iff_ne, ne_eq, hc, not_false_eq_true, if_true, read]
      by_cases hk : c.1 = k
      · simp [hk]
      · simpa [hk, erase] using ih

theorem read_place_self (m : Memory) (n : Nat) (v : Byte) (h : ∀ c ∈ m, c.1 ≠ n) : (m.place n v).read n = v := by
  induction m with
  | nil => simp [place, read]
  | cons c m ih =>
    obtain ⟨k, w⟩ := c
    have hk : k ≠ n := h (k, w) (by simp)
    have hm := ih fun c hc => h c (by simp [hc])
    by_cases hlt : n < k <;> simp [place, hlt, read, hk, hm]

theorem read_place_of_ne (m : Memory) {n k : Nat} (v : Byte) (h : k ≠ n) : (m.place n v).read k = m.read k := by
  induction m with
  | nil => simp [place, read, Ne.symm h]
  | cons c m ih =>
    obtain ⟨j, w⟩ := c
    by_cases hlt : n < j
    · simp [place, hlt, read, Ne.symm h]
    · simp [place, hlt, read, ih]

theorem ne_of_mem_erase {m : Memory} {n : Nat} {c : Host.Cell} (h : c ∈ m.erase n) : c.1 ≠ n := by
  simpa [erase] using (List.mem_filter.mp h).2

theorem read_write_self (m : Memory) (n : Nat) (v : Byte) : (m.write n v).read n = v := by
  by_cases h : v = unlisted
  · simp [write, h, read_erase_self]
  · simp only [write, h, if_false]
    exact read_place_self _ _ _ fun _ => ne_of_mem_erase

theorem read_write_of_ne (m : Memory) {n k : Nat} (v : Byte) (h : k ≠ n) : (m.write n v).read k = m.read k := by
  by_cases hv : v = unlisted
  · simp [write, hv, read_erase_of_ne m h]
  · simp only [write, hv, if_false]
    rw [read_place_of_ne _ _ h, read_erase_of_ne m h]

/-- Reading after writing, at any index. -/
theorem read_write (m : Memory) (n k : Nat) (v : Byte) : (m.write n v).read k = if k = n then v else m.read k := by
  by_cases h : k = n
  · simp [h, read_write_self]
  · simp [h, read_write_of_ne m v h]

/-! ### The canonical form -/

theorem canonicalFrom_mono {m : Memory} {l l' : Nat} (h : l' ≤ l) (hm : canonicalFrom l m = true) :
    canonicalFrom l' m = true := by
  cases m with
  | nil => rfl
  | cons c m =>
    simp only [canonicalFrom, Bool.and_eq_true, decide_eq_true_eq] at hm ⊢
    exact ⟨⟨Nat.le_trans h hm.1.1, hm.1.2⟩, hm.2⟩

theorem canonicalFrom_erase {m : Memory} {l : Nat} (n : Nat) (hm : canonicalFrom l m = true) :
    canonicalFrom l (m.erase n) = true := by
  induction m generalizing l with
  | nil => rfl
  | cons c m ih =>
    obtain ⟨k, w⟩ := c
    simp only [canonicalFrom, Bool.and_eq_true, decide_eq_true_eq] at hm
    have htail := ih hm.2
    by_cases hk : k = n
    · have : erase ((k, w) :: m) n = erase m n := by simp [erase, hk]
      rw [this]; exact canonicalFrom_mono (by omega) htail
    · have : erase ((k, w) :: m) n = (k, w) :: erase m n := by simp [erase, hk]
      rw [this]; simpa [canonicalFrom, hm.1] using htail

theorem canonicalFrom_place {m : Memory} {l n : Nat} {v : Byte} (hm : canonicalFrom l m = true) (hl : l ≤ n)
    (hv : v ≠ unlisted) (hne : ∀ c ∈ m, c.1 ≠ n) : canonicalFrom l (m.place n v) = true := by
  induction m generalizing l with
  | nil => simp [place, canonicalFrom, hl, hv]
  | cons c m ih =>
    obtain ⟨k, w⟩ := c
    have hk : k ≠ n := hne (k, w) (by simp)
    simp only [canonicalFrom, Bool.and_eq_true, decide_eq_true_eq] at hm
    by_cases hlt : n < k
    · simp only [place, hlt, if_true, canonicalFrom, Bool.and_eq_true, decide_eq_true_eq]
      exact ⟨⟨hl, by simpa using hv⟩, ⟨by omega, hm.1.2⟩, hm.2⟩
    · simp only [place, hlt, if_false, canonicalFrom, Bool.and_eq_true, decide_eq_true_eq]
      exact ⟨hm.1, ih hm.2 (by omega) fun c hc => hne c (by simp [hc])⟩

/-- Every write keeps the canonical form. -/
theorem wf_write {m : Memory} (n : Nat) (v : Byte) (hm : m.wf = true) : (m.write n v).wf = true := by
  by_cases hv : v = unlisted
  · simpa [wf, write, hv] using canonicalFrom_erase n hm
  · simp only [wf, write, hv, if_false]
    exact canonicalFrom_place (canonicalFrom_erase n hm) (Nat.zero_le n) hv fun _ => ne_of_mem_erase

theorem within_erase {m : Memory} {size : Nat} (n : Nat) (hm : m.within size = true) :
    (m.erase n).within size = true := by
  simp only [within, erase, List.all_eq_true] at hm ⊢
  exact fun c hc => hm c (List.mem_filter.mp hc).1

theorem mem_place {m : Memory} {n : Nat} {v : Byte} {c : Host.Cell} (h : c ∈ m.place n v) : c = (n, v) ∨ c ∈ m := by
  induction m with
  | nil => simpa [place] using h
  | cons d m ih =>
    obtain ⟨k, w⟩ := d
    by_cases hlt : n < k
    · simpa [place, hlt] using h
    · simp only [place, hlt, if_false, List.mem_cons] at h ⊢
      rcases h with h | h
      · exact .inr (.inl h)
      · exact (ih h).imp_right .inr

/-- A write inside the array keeps every listed index inside it. -/
theorem within_write {m : Memory} {size n : Nat} (v : Byte) (hn : n < size) (hm : m.within size = true) :
    (m.write n v).within size = true := by
  by_cases hv : v = unlisted
  · simpa [write, hv] using within_erase n hm
  · simp only [write, hv, if_false, within, List.all_eq_true, decide_eq_true_eq]
    intro c hc
    rcases mem_place hc with rfl | hc
    · exact hn
    · have := within_erase n hm
      simp only [within, List.all_eq_true, decide_eq_true_eq] at this
      exact this c hc

/-- The bytes of an image read as the image. -/
theorem read_ofBytesFrom (image : List Byte) (start n : Nat) :
    (ofBytesFrom start image).read (start + n) = image.getD n unlisted := by
  have low : ∀ (image : List Byte) (start k : Nat), k < start → (ofBytesFrom start image).read k = unlisted := by
    intro image
    induction image with
    | nil => intros; rfl
    | cons v rest ih =>
      intro start k hk
      have hr := ih (start + 1) k (by omega)
      by_cases hv : v = unlisted
      · simpa [ofBytesFrom, hv] using hr
      · simpa [ofBytesFrom, hv, read, show start ≠ k by omega] using hr
  induction image generalizing start n with
  | nil => simp [ofBytesFrom]
  | cons v rest ih =>
    cases n with
    | zero =>
      by_cases hv : v = unlisted
      · simpa [ofBytesFrom, hv] using low rest (start + 1) start (by omega)
      · simp [ofBytesFrom, hv, read]
    | succ n =>
      have hr := ih (start + 1) n
      rw [show start + 1 + n = start + (n + 1) by omega] at hr
      by_cases hv : v = unlisted
      · simpa [ofBytesFrom, hv] using hr
      · simpa [ofBytesFrom, hv, read, show start ≠ start + (n + 1) by omega] using hr

/-- The image a loader passes reads as the image: byte `n` of it at index `n`. -/
theorem read_ofBytes (image : List Byte) (n : Nat) : (ofBytes image).read n = image.getD n unlisted := by
  simpa [ofBytes] using read_ofBytesFrom image 0 n

theorem canonicalFrom_ofBytesFrom (image : List Byte) (start : Nat) :
    canonicalFrom start (ofBytesFrom start image) = true := by
  induction image generalizing start with
  | nil => rfl
  | cons v rest ih =>
    by_cases hv : v = unlisted
    · simpa [ofBytesFrom, hv] using canonicalFrom_mono (Nat.le_succ start) (ih (start + 1))
    · simpa [ofBytesFrom, hv, canonicalFrom] using ih (start + 1)

/-- An image is in canonical form. -/
theorem wf_ofBytes (image : List Byte) : (ofBytes image).wf = true := canonicalFrom_ofBytesFrom image 0

theorem within_ofBytesFrom (image : List Byte) (start size : Nat) (h : start + image.length ≤ size) :
    (ofBytesFrom start image).within size = true := by
  induction image generalizing start with
  | nil => rfl
  | cons v rest ih =>
    simp only [List.length_cons] at h
    have hr := ih (start + 1) (by omega)
    by_cases hv : v = unlisted
    · simpa [ofBytesFrom, hv] using hr
    · simp only [ofBytesFrom, hv, if_false, within, List.all_cons, Bool.and_eq_true, decide_eq_true_eq]
      exact ⟨by omega, hr⟩

/-- An image no longer than the array lies inside it. -/
theorem within_ofBytes (image : List Byte) (size : Nat) (h : image.length ≤ size) :
    (ofBytes image).within size = true := within_ofBytesFrom image 0 size (by omega)

end Sys2Proof.Machine.Memory
end

