-- ==== Sys2Proof/Laws/State.lean ====
section
/-!
SUPPORT. One lemma for each field and each state update of `Machine/Ops.lean` and `Machine/Step.lean`, true by `rfl`, so that no later proof
unfolds a record update.
-/

namespace Sys2Proof.Machine.State

@[simp] theorem advance_a (s : State) (n : Nat) : (s.advance n).a = s.a := rfl
@[simp] theorem advance_x (s : State) (n : Nat) : (s.advance n).x = s.x := rfl
@[simp] theorem advance_y (s : State) (n : Nat) : (s.advance n).y = s.y := rfl
@[simp] theorem advance_sp (s : State) (n : Nat) : (s.advance n).sp = s.sp := rfl
@[simp] theorem advance_p (s : State) (n : Nat) : (s.advance n).p = s.p := rfl
@[simp] theorem advance_pc (s : State) (n : Nat) : (s.advance n).pc = s.pc + BitVec.ofNat 16 n := rfl
@[simp] theorem advance_run (s : State) (n : Nat) : (s.advance n).run = s.run := rfl
@[simp] theorem advance_ram (s : State) (n : Nat) : (s.advance n).ram = s.ram := rfl
@[simp] theorem advance_prgRam (s : State) (n : Nat) : (s.advance n).prgRam = s.prgRam := rfl
@[simp] theorem advance_vram (s : State) (n : Nat) : (s.advance n).vram = s.vram := rfl
@[simp] theorem advance_palette (s : State) (n : Nat) : (s.advance n).palette = s.palette := rfl
@[simp] theorem advance_mapper (s : State) (n : Nat) : (s.advance n).mapper = s.mapper := rfl
@[simp] theorem advance_prgSize (s : State) (n : Nat) : (s.advance n).prgSize = s.prgSize := rfl
@[simp] theorem advance_prgRom (s : State) (n : Nat) : (s.advance n).prgRom = s.prgRom := rfl
@[simp] theorem advance_chrRom (s : State) (n : Nat) : (s.advance n).chrRom = s.chrRom := rfl
@[simp] theorem advance_mirroring (s : State) (n : Nat) : (s.advance n).mirroring = s.mirroring := rfl
@[simp] theorem advance_gfx (s : State) (n : Nat) : (s.advance n).gfx = s.gfx := rfl
@[simp] theorem advance_events (s : State) (n : Nat) : (s.advance n).events = s.events := rfl
@[simp] theorem advance_outcome (s : State) (n : Nat) : (s.advance n).outcome = s.outcome := rfl

@[simp] theorem jump_a (s : State) (w : Word) : (s.jump w).a = s.a := rfl
@[simp] theorem jump_x (s : State) (w : Word) : (s.jump w).x = s.x := rfl
@[simp] theorem jump_y (s : State) (w : Word) : (s.jump w).y = s.y := rfl
@[simp] theorem jump_sp (s : State) (w : Word) : (s.jump w).sp = s.sp := rfl
@[simp] theorem jump_p (s : State) (w : Word) : (s.jump w).p = s.p := rfl
@[simp] theorem jump_pc (s : State) (w : Word) : (s.jump w).pc = w := rfl
@[simp] theorem jump_run (s : State) (w : Word) : (s.jump w).run = s.run := rfl
@[simp] theorem jump_ram (s : State) (w : Word) : (s.jump w).ram = s.ram := rfl
@[simp] theorem jump_prgRam (s : State) (w : Word) : (s.jump w).prgRam = s.prgRam := rfl
@[simp] theorem jump_vram (s : State) (w : Word) : (s.jump w).vram = s.vram := rfl
@[simp] theorem jump_palette (s : State) (w : Word) : (s.jump w).palette = s.palette := rfl
@[simp] theorem jump_mapper (s : State) (w : Word) : (s.jump w).mapper = s.mapper := rfl
@[simp] theorem jump_prgSize (s : State) (w : Word) : (s.jump w).prgSize = s.prgSize := rfl
@[simp] theorem jump_prgRom (s : State) (w : Word) : (s.jump w).prgRom = s.prgRom := rfl
@[simp] theorem jump_chrRom (s : State) (w : Word) : (s.jump w).chrRom = s.chrRom := rfl
@[simp] theorem jump_mirroring (s : State) (w : Word) : (s.jump w).mirroring = s.mirroring := rfl
@[simp] theorem jump_gfx (s : State) (w : Word) : (s.jump w).gfx = s.gfx := rfl
@[simp] theorem jump_events (s : State) (w : Word) : (s.jump w).events = s.events := rfl
@[simp] theorem jump_outcome (s : State) (w : Word) : (s.jump w).outcome = s.outcome := rfl

@[simp] theorem log_a (s : State) (es : List Event) : (s.log es).a = s.a := rfl
@[simp] theorem log_x (s : State) (es : List Event) : (s.log es).x = s.x := rfl
@[simp] theorem log_y (s : State) (es : List Event) : (s.log es).y = s.y := rfl
@[simp] theorem log_sp (s : State) (es : List Event) : (s.log es).sp = s.sp := rfl
@[simp] theorem log_p (s : State) (es : List Event) : (s.log es).p = s.p := rfl
@[simp] theorem log_pc (s : State) (es : List Event) : (s.log es).pc = s.pc := rfl
@[simp] theorem log_run (s : State) (es : List Event) : (s.log es).run = s.run := rfl
@[simp] theorem log_ram (s : State) (es : List Event) : (s.log es).ram = s.ram := rfl
@[simp] theorem log_prgRam (s : State) (es : List Event) : (s.log es).prgRam = s.prgRam := rfl
@[simp] theorem log_vram (s : State) (es : List Event) : (s.log es).vram = s.vram := rfl
@[simp] theorem log_palette (s : State) (es : List Event) : (s.log es).palette = s.palette := rfl
@[simp] theorem log_mapper (s : State) (es : List Event) : (s.log es).mapper = s.mapper := rfl
@[simp] theorem log_prgSize (s : State) (es : List Event) : (s.log es).prgSize = s.prgSize := rfl
@[simp] theorem log_prgRom (s : State) (es : List Event) : (s.log es).prgRom = s.prgRom := rfl
@[simp] theorem log_chrRom (s : State) (es : List Event) : (s.log es).chrRom = s.chrRom := rfl
@[simp] theorem log_mirroring (s : State) (es : List Event) : (s.log es).mirroring = s.mirroring := rfl
@[simp] theorem log_gfx (s : State) (es : List Event) : (s.log es).gfx = s.gfx := rfl
@[simp] theorem log_events (s : State) (es : List Event) : (s.log es).events = s.events ++ es := rfl
@[simp] theorem log_outcome (s : State) (es : List Event) : (s.log es).outcome = s.outcome := rfl

@[simp] theorem gfxCall_a (s : State) (c : GfxCall) : (s.gfxCall c).a = s.a := rfl
@[simp] theorem gfxCall_x (s : State) (c : GfxCall) : (s.gfxCall c).x = s.x := rfl
@[simp] theorem gfxCall_y (s : State) (c : GfxCall) : (s.gfxCall c).y = s.y := rfl
@[simp] theorem gfxCall_sp (s : State) (c : GfxCall) : (s.gfxCall c).sp = s.sp := rfl
@[simp] theorem gfxCall_p (s : State) (c : GfxCall) : (s.gfxCall c).p = s.p := rfl
@[simp] theorem gfxCall_pc (s : State) (c : GfxCall) : (s.gfxCall c).pc = s.pc := rfl
@[simp] theorem gfxCall_run (s : State) (c : GfxCall) : (s.gfxCall c).run = s.run := rfl
@[simp] theorem gfxCall_ram (s : State) (c : GfxCall) : (s.gfxCall c).ram = s.ram := rfl
@[simp] theorem gfxCall_prgRam (s : State) (c : GfxCall) : (s.gfxCall c).prgRam = s.prgRam := rfl
@[simp] theorem gfxCall_mapper (s : State) (c : GfxCall) : (s.gfxCall c).mapper = s.mapper := rfl
@[simp] theorem gfxCall_prgSize (s : State) (c : GfxCall) : (s.gfxCall c).prgSize = s.prgSize := rfl
@[simp] theorem gfxCall_prgRom (s : State) (c : GfxCall) : (s.gfxCall c).prgRom = s.prgRom := rfl
@[simp] theorem gfxCall_chrRom (s : State) (c : GfxCall) : (s.gfxCall c).chrRom = s.chrRom := rfl
@[simp] theorem gfxCall_mirroring (s : State) (c : GfxCall) : (s.gfxCall c).mirroring = s.mirroring := rfl
@[simp] theorem gfxCall_gfx (s : State) (c : GfxCall) : (s.gfxCall c).gfx = s.gfx ++ [c] := rfl
@[simp] theorem gfxCall_events (s : State) (c : GfxCall) : (s.gfxCall c).events = s.events := rfl
@[simp] theorem gfxCall_outcome (s : State) (c : GfxCall) : (s.gfxCall c).outcome = s.outcome := rfl

@[simp] theorem afterRead_a (s : State) (b : Word) : (s.afterRead b).a = s.a := rfl
@[simp] theorem afterRead_x (s : State) (b : Word) : (s.afterRead b).x = s.x := rfl
@[simp] theorem afterRead_y (s : State) (b : Word) : (s.afterRead b).y = s.y := rfl
@[simp] theorem afterRead_sp (s : State) (b : Word) : (s.afterRead b).sp = s.sp := rfl
@[simp] theorem afterRead_p (s : State) (b : Word) : (s.afterRead b).p = s.p := rfl
@[simp] theorem afterRead_pc (s : State) (b : Word) : (s.afterRead b).pc = s.pc := rfl
@[simp] theorem afterRead_run (s : State) (b : Word) : (s.afterRead b).run = s.run := rfl
@[simp] theorem afterRead_ram (s : State) (b : Word) : (s.afterRead b).ram = s.ram := rfl
@[simp] theorem afterRead_prgRam (s : State) (b : Word) : (s.afterRead b).prgRam = s.prgRam := rfl
@[simp] theorem afterRead_mapper (s : State) (b : Word) : (s.afterRead b).mapper = s.mapper := rfl
@[simp] theorem afterRead_prgSize (s : State) (b : Word) : (s.afterRead b).prgSize = s.prgSize := rfl
@[simp] theorem afterRead_prgRom (s : State) (b : Word) : (s.afterRead b).prgRom = s.prgRom := rfl
@[simp] theorem afterRead_chrRom (s : State) (b : Word) : (s.afterRead b).chrRom = s.chrRom := rfl
@[simp] theorem afterRead_mirroring (s : State) (b : Word) : (s.afterRead b).mirroring = s.mirroring := rfl
@[simp] theorem afterRead_events (s : State) (b : Word) : (s.afterRead b).events = s.events ++ .read b (s.readByte b) :: readDiags b := rfl
@[simp] theorem afterRead_outcome (s : State) (b : Word) : (s.afterRead b).outcome = s.outcome := rfl

@[simp] theorem afterWrite_a (s : State) (b : Word) (v : Byte) : (s.afterWrite b v).a = s.a := rfl
@[simp] theorem afterWrite_x (s : State) (b : Word) (v : Byte) : (s.afterWrite b v).x = s.x := rfl
@[simp] theorem afterWrite_y (s : State) (b : Word) (v : Byte) : (s.afterWrite b v).y = s.y := rfl
@[simp] theorem afterWrite_sp (s : State) (b : Word) (v : Byte) : (s.afterWrite b v).sp = s.sp := rfl
@[simp] theorem afterWrite_p (s : State) (b : Word) (v : Byte) : (s.afterWrite b v).p = s.p := rfl
@[simp] theorem afterWrite_pc (s : State) (b : Word) (v : Byte) : (s.afterWrite b v).pc = s.pc := rfl
@[simp] theorem afterWrite_run (s : State) (b : Word) (v : Byte) : (s.afterWrite b v).run = s.run := rfl
@[simp] theorem afterWrite_ram (s : State) (b : Word) (v : Byte) : (s.afterWrite b v).ram = if isRam b then s.ram.write (ramIndex b) v else s.ram := rfl
@[simp] theorem afterWrite_prgRam (s : State) (b : Word) (v : Byte) : (s.afterWrite b v).prgRam = s.nromWrite b v := rfl
@[simp] theorem afterWrite_mapper (s : State) (b : Word) (v : Byte) : (s.afterWrite b v).mapper = s.mapper := rfl
@[simp] theorem afterWrite_prgSize (s : State) (b : Word) (v : Byte) : (s.afterWrite b v).prgSize = s.prgSize := rfl
@[simp] theorem afterWrite_prgRom (s : State) (b : Word) (v : Byte) : (s.afterWrite b v).prgRom = s.prgRom := rfl
@[simp] theorem afterWrite_chrRom (s : State) (b : Word) (v : Byte) : (s.afterWrite b v).chrRom = s.chrRom := rfl
@[simp] theorem afterWrite_mirroring (s : State) (b : Word) (v : Byte) : (s.afterWrite b v).mirroring = s.mirroring := rfl
@[simp] theorem afterWrite_events (s : State) (b : Word) (v : Byte) : (s.afterWrite b v).events = s.events ++ .write b v :: writeDiags b := rfl
@[simp] theorem afterWrite_outcome (s : State) (b : Word) (v : Byte) : (s.afterWrite b v).outcome = s.outcome := rfl

@[simp] theorem push_a (s : State) (v : Byte) : (s.push v).a = s.a := rfl
@[simp] theorem push_x (s : State) (v : Byte) : (s.push v).x = s.x := rfl
@[simp] theorem push_y (s : State) (v : Byte) : (s.push v).y = s.y := rfl
@[simp] theorem push_sp (s : State) (v : Byte) : (s.push v).sp = s.sp - 1 := rfl
@[simp] theorem push_p (s : State) (v : Byte) : (s.push v).p = s.p := rfl
@[simp] theorem push_pc (s : State) (v : Byte) : (s.push v).pc = s.pc := rfl
@[simp] theorem push_run (s : State) (v : Byte) : (s.push v).run = s.run := rfl
@[simp] theorem push_mapper (s : State) (v : Byte) : (s.push v).mapper = s.mapper := rfl
@[simp] theorem push_prgSize (s : State) (v : Byte) : (s.push v).prgSize = s.prgSize := rfl
@[simp] theorem push_prgRom (s : State) (v : Byte) : (s.push v).prgRom = s.prgRom := rfl
@[simp] theorem push_chrRom (s : State) (v : Byte) : (s.push v).chrRom = s.chrRom := rfl
@[simp] theorem push_mirroring (s : State) (v : Byte) : (s.push v).mirroring = s.mirroring := rfl
@[simp] theorem push_outcome (s : State) (v : Byte) : (s.push v).outcome = s.outcome := rfl

@[simp] theorem afterPull_a (s : State) : (s.afterPull).a = s.a := rfl
@[simp] theorem afterPull_x (s : State) : (s.afterPull).x = s.x := rfl
@[simp] theorem afterPull_y (s : State) : (s.afterPull).y = s.y := rfl
@[simp] theorem afterPull_sp (s : State) : (s.afterPull).sp = s.sp + 1 := rfl
@[simp] theorem afterPull_p (s : State) : (s.afterPull).p = s.p := rfl
@[simp] theorem afterPull_pc (s : State) : (s.afterPull).pc = s.pc := rfl
@[simp] theorem afterPull_run (s : State) : (s.afterPull).run = s.run := rfl
@[simp] theorem afterPull_ram (s : State) : (s.afterPull).ram = s.ram := rfl
@[simp] theorem afterPull_prgRam (s : State) : (s.afterPull).prgRam = s.prgRam := rfl
@[simp] theorem afterPull_mapper (s : State) : (s.afterPull).mapper = s.mapper := rfl
@[simp] theorem afterPull_prgSize (s : State) : (s.afterPull).prgSize = s.prgSize := rfl
@[simp] theorem afterPull_prgRom (s : State) : (s.afterPull).prgRom = s.prgRom := rfl
@[simp] theorem afterPull_chrRom (s : State) : (s.afterPull).chrRom = s.chrRom := rfl
@[simp] theorem afterPull_mirroring (s : State) : (s.afterPull).mirroring = s.mirroring := rfl
@[simp] theorem afterPull_outcome (s : State) : (s.afterPull).outcome = s.outcome := rfl

@[simp] theorem loadA_a (s : State) (v : Byte) : (s.loadA v).a = v := rfl
@[simp] theorem loadA_x (s : State) (v : Byte) : (s.loadA v).x = s.x := rfl
@[simp] theorem loadA_y (s : State) (v : Byte) : (s.loadA v).y = s.y := rfl
@[simp] theorem loadA_sp (s : State) (v : Byte) : (s.loadA v).sp = s.sp := rfl
@[simp] theorem loadA_p (s : State) (v : Byte) : (s.loadA v).p = setZN v s.p := rfl
@[simp] theorem loadA_pc (s : State) (v : Byte) : (s.loadA v).pc = s.pc := rfl
@[simp] theorem loadA_run (s : State) (v : Byte) : (s.loadA v).run = s.run := rfl
@[simp] theorem loadA_ram (s : State) (v : Byte) : (s.loadA v).ram = s.ram := rfl
@[simp] theorem loadA_prgRam (s : State) (v : Byte) : (s.loadA v).prgRam = s.prgRam := rfl
@[simp] theorem loadA_vram (s : State) (v : Byte) : (s.loadA v).vram = s.vram := rfl
@[simp] theorem loadA_palette (s : State) (v : Byte) : (s.loadA v).palette = s.palette := rfl
@[simp] theorem loadA_mapper (s : State) (v : Byte) : (s.loadA v).mapper = s.mapper := rfl
@[simp] theorem loadA_prgSize (s : State) (v : Byte) : (s.loadA v).prgSize = s.prgSize := rfl
@[simp] theorem loadA_prgRom (s : State) (v : Byte) : (s.loadA v).prgRom = s.prgRom := rfl
@[simp] theorem loadA_chrRom (s : State) (v : Byte) : (s.loadA v).chrRom = s.chrRom := rfl
@[simp] theorem loadA_mirroring (s : State) (v : Byte) : (s.loadA v).mirroring = s.mirroring := rfl
@[simp] theorem loadA_gfx (s : State) (v : Byte) : (s.loadA v).gfx = s.gfx := rfl
@[simp] theorem loadA_events (s : State) (v : Byte) : (s.loadA v).events = s.events := rfl
@[simp] theorem loadA_outcome (s : State) (v : Byte) : (s.loadA v).outcome = s.outcome := rfl

@[simp] theorem loadX_a (s : State) (v : Byte) : (s.loadX v).a = s.a := rfl
@[simp] theorem loadX_x (s : State) (v : Byte) : (s.loadX v).x = v := rfl
@[simp] theorem loadX_y (s : State) (v : Byte) : (s.loadX v).y = s.y := rfl
@[simp] theorem loadX_sp (s : State) (v : Byte) : (s.loadX v).sp = s.sp := rfl
@[simp] theorem loadX_p (s : State) (v : Byte) : (s.loadX v).p = setZN v s.p := rfl
@[simp] theorem loadX_pc (s : State) (v : Byte) : (s.loadX v).pc = s.pc := rfl
@[simp] theorem loadX_run (s : State) (v : Byte) : (s.loadX v).run = s.run := rfl
@[simp] theorem loadX_ram (s : State) (v : Byte) : (s.loadX v).ram = s.ram := rfl
@[simp] theorem loadX_prgRam (s : State) (v : Byte) : (s.loadX v).prgRam = s.prgRam := rfl
@[simp] theorem loadX_vram (s : State) (v : Byte) : (s.loadX v).vram = s.vram := rfl
@[simp] theorem loadX_palette (s : State) (v : Byte) : (s.loadX v).palette = s.palette := rfl
@[simp] theorem loadX_mapper (s : State) (v : Byte) : (s.loadX v).mapper = s.mapper := rfl
@[simp] theorem loadX_prgSize (s : State) (v : Byte) : (s.loadX v).prgSize = s.prgSize := rfl
@[simp] theorem loadX_prgRom (s : State) (v : Byte) : (s.loadX v).prgRom = s.prgRom := rfl
@[simp] theorem loadX_chrRom (s : State) (v : Byte) : (s.loadX v).chrRom = s.chrRom := rfl
@[simp] theorem loadX_mirroring (s : State) (v : Byte) : (s.loadX v).mirroring = s.mirroring := rfl
@[simp] theorem loadX_gfx (s : State) (v : Byte) : (s.loadX v).gfx = s.gfx := rfl
@[simp] theorem loadX_events (s : State) (v : Byte) : (s.loadX v).events = s.events := rfl
@[simp] theorem loadX_outcome (s : State) (v : Byte) : (s.loadX v).outcome = s.outcome := rfl

@[simp] theorem loadY_a (s : State) (v : Byte) : (s.loadY v).a = s.a := rfl
@[simp] theorem loadY_x (s : State) (v : Byte) : (s.loadY v).x = s.x := rfl
@[simp] theorem loadY_y (s : State) (v : Byte) : (s.loadY v).y = v := rfl
@[simp] theorem loadY_sp (s : State) (v : Byte) : (s.loadY v).sp = s.sp := rfl
@[simp] theorem loadY_p (s : State) (v : Byte) : (s.loadY v).p = setZN v s.p := rfl
@[simp] theorem loadY_pc (s : State) (v : Byte) : (s.loadY v).pc = s.pc := rfl
@[simp] theorem loadY_run (s : State) (v : Byte) : (s.loadY v).run = s.run := rfl
@[simp] theorem loadY_ram (s : State) (v : Byte) : (s.loadY v).ram = s.ram := rfl
@[simp] theorem loadY_prgRam (s : State) (v : Byte) : (s.loadY v).prgRam = s.prgRam := rfl
@[simp] theorem loadY_vram (s : State) (v : Byte) : (s.loadY v).vram = s.vram := rfl
@[simp] theorem loadY_palette (s : State) (v : Byte) : (s.loadY v).palette = s.palette := rfl
@[simp] theorem loadY_mapper (s : State) (v : Byte) : (s.loadY v).mapper = s.mapper := rfl
@[simp] theorem loadY_prgSize (s : State) (v : Byte) : (s.loadY v).prgSize = s.prgSize := rfl
@[simp] theorem loadY_prgRom (s : State) (v : Byte) : (s.loadY v).prgRom = s.prgRom := rfl
@[simp] theorem loadY_chrRom (s : State) (v : Byte) : (s.loadY v).chrRom = s.chrRom := rfl
@[simp] theorem loadY_mirroring (s : State) (v : Byte) : (s.loadY v).mirroring = s.mirroring := rfl
@[simp] theorem loadY_gfx (s : State) (v : Byte) : (s.loadY v).gfx = s.gfx := rfl
@[simp] theorem loadY_events (s : State) (v : Byte) : (s.loadY v).events = s.events := rfl
@[simp] theorem loadY_outcome (s : State) (v : Byte) : (s.loadY v).outcome = s.outcome := rfl

@[simp] theorem loadStatus_a (s : State) (p : Byte) : (s.loadStatus p).a = s.a := rfl
@[simp] theorem loadStatus_x (s : State) (p : Byte) : (s.loadStatus p).x = s.x := rfl
@[simp] theorem loadStatus_y (s : State) (p : Byte) : (s.loadStatus p).y = s.y := rfl
@[simp] theorem loadStatus_sp (s : State) (p : Byte) : (s.loadStatus p).sp = s.sp := rfl
@[simp] theorem loadStatus_p (s : State) (p : Byte) : (s.loadStatus p).p = p := rfl
@[simp] theorem loadStatus_pc (s : State) (p : Byte) : (s.loadStatus p).pc = s.pc := rfl
@[simp] theorem loadStatus_run (s : State) (p : Byte) : (s.loadStatus p).run = s.run := rfl
@[simp] theorem loadStatus_ram (s : State) (p : Byte) : (s.loadStatus p).ram = s.ram := rfl
@[simp] theorem loadStatus_prgRam (s : State) (p : Byte) : (s.loadStatus p).prgRam = s.prgRam := rfl
@[simp] theorem loadStatus_vram (s : State) (p : Byte) : (s.loadStatus p).vram = s.vram := rfl
@[simp] theorem loadStatus_palette (s : State) (p : Byte) : (s.loadStatus p).palette = s.palette := rfl
@[simp] theorem loadStatus_mapper (s : State) (p : Byte) : (s.loadStatus p).mapper = s.mapper := rfl
@[simp] theorem loadStatus_prgSize (s : State) (p : Byte) : (s.loadStatus p).prgSize = s.prgSize := rfl
@[simp] theorem loadStatus_prgRom (s : State) (p : Byte) : (s.loadStatus p).prgRom = s.prgRom := rfl
@[simp] theorem loadStatus_chrRom (s : State) (p : Byte) : (s.loadStatus p).chrRom = s.chrRom := rfl
@[simp] theorem loadStatus_mirroring (s : State) (p : Byte) : (s.loadStatus p).mirroring = s.mirroring := rfl
@[simp] theorem loadStatus_gfx (s : State) (p : Byte) : (s.loadStatus p).gfx = s.gfx := rfl
@[simp] theorem loadStatus_events (s : State) (p : Byte) : (s.loadStatus p).events = s.events := rfl
@[simp] theorem loadStatus_outcome (s : State) (p : Byte) : (s.loadStatus p).outcome = s.outcome := rfl

@[simp] theorem setFlag_a (s : State) (f : Flag) (b : Bool) : (s.setFlag f b).a = s.a := rfl
@[simp] theorem setFlag_x (s : State) (f : Flag) (b : Bool) : (s.setFlag f b).x = s.x := rfl
@[simp] theorem setFlag_y (s : State) (f : Flag) (b : Bool) : (s.setFlag f b).y = s.y := rfl
@[simp] theorem setFlag_sp (s : State) (f : Flag) (b : Bool) : (s.setFlag f b).sp = s.sp := rfl
@[simp] theorem setFlag_p (s : State) (f : Flag) (b : Bool) : (s.setFlag f b).p = f.write b s.p := rfl
@[simp] theorem setFlag_pc (s : State) (f : Flag) (b : Bool) : (s.setFlag f b).pc = s.pc := rfl
@[simp] theorem setFlag_run (s : State) (f : Flag) (b : Bool) : (s.setFlag f b).run = s.run := rfl
@[simp] theorem setFlag_ram (s : State) (f : Flag) (b : Bool) : (s.setFlag f b).ram = s.ram := rfl
@[simp] theorem setFlag_prgRam (s : State) (f : Flag) (b : Bool) : (s.setFlag f b).prgRam = s.prgRam := rfl
@[simp] theorem setFlag_vram (s : State) (f : Flag) (b : Bool) : (s.setFlag f b).vram = s.vram := rfl
@[simp] theorem setFlag_palette (s : State) (f : Flag) (b : Bool) : (s.setFlag f b).palette = s.palette := rfl
@[simp] theorem setFlag_mapper (s : State) (f : Flag) (b : Bool) : (s.setFlag f b).mapper = s.mapper := rfl
@[simp] theorem setFlag_prgSize (s : State) (f : Flag) (b : Bool) : (s.setFlag f b).prgSize = s.prgSize := rfl
@[simp] theorem setFlag_prgRom (s : State) (f : Flag) (b : Bool) : (s.setFlag f b).prgRom = s.prgRom := rfl
@[simp] theorem setFlag_chrRom (s : State) (f : Flag) (b : Bool) : (s.setFlag f b).chrRom = s.chrRom := rfl
@[simp] theorem setFlag_mirroring (s : State) (f : Flag) (b : Bool) : (s.setFlag f b).mirroring = s.mirroring := rfl
@[simp] theorem setFlag_gfx (s : State) (f : Flag) (b : Bool) : (s.setFlag f b).gfx = s.gfx := rfl
@[simp] theorem setFlag_events (s : State) (f : Flag) (b : Bool) : (s.setFlag f b).events = s.events := rfl
@[simp] theorem setFlag_outcome (s : State) (f : Flag) (b : Bool) : (s.setFlag f b).outcome = s.outcome := rfl

@[simp] theorem addCore_a (s : State) (m : Byte) : (s.addCore m).a = addResult s.a m (Flag.c.read s.p) := rfl
@[simp] theorem addCore_x (s : State) (m : Byte) : (s.addCore m).x = s.x := rfl
@[simp] theorem addCore_y (s : State) (m : Byte) : (s.addCore m).y = s.y := rfl
@[simp] theorem addCore_sp (s : State) (m : Byte) : (s.addCore m).sp = s.sp := rfl
@[simp] theorem addCore_p (s : State) (m : Byte) : (s.addCore m).p = addFlags s.a m s.p := rfl
@[simp] theorem addCore_pc (s : State) (m : Byte) : (s.addCore m).pc = s.pc := rfl
@[simp] theorem addCore_run (s : State) (m : Byte) : (s.addCore m).run = s.run := rfl
@[simp] theorem addCore_ram (s : State) (m : Byte) : (s.addCore m).ram = s.ram := rfl
@[simp] theorem addCore_prgRam (s : State) (m : Byte) : (s.addCore m).prgRam = s.prgRam := rfl
@[simp] theorem addCore_vram (s : State) (m : Byte) : (s.addCore m).vram = s.vram := rfl
@[simp] theorem addCore_palette (s : State) (m : Byte) : (s.addCore m).palette = s.palette := rfl
@[simp] theorem addCore_mapper (s : State) (m : Byte) : (s.addCore m).mapper = s.mapper := rfl
@[simp] theorem addCore_prgSize (s : State) (m : Byte) : (s.addCore m).prgSize = s.prgSize := rfl
@[simp] theorem addCore_prgRom (s : State) (m : Byte) : (s.addCore m).prgRom = s.prgRom := rfl
@[simp] theorem addCore_chrRom (s : State) (m : Byte) : (s.addCore m).chrRom = s.chrRom := rfl
@[simp] theorem addCore_mirroring (s : State) (m : Byte) : (s.addCore m).mirroring = s.mirroring := rfl
@[simp] theorem addCore_gfx (s : State) (m : Byte) : (s.addCore m).gfx = s.gfx := rfl
@[simp] theorem addCore_events (s : State) (m : Byte) : (s.addCore m).events = s.events := rfl
@[simp] theorem addCore_outcome (s : State) (m : Byte) : (s.addCore m).outcome = s.outcome := rfl

@[simp] theorem compareCore_a (s : State) (r m : Byte) : (s.compareCore r m).a = s.a := rfl
@[simp] theorem compareCore_x (s : State) (r m : Byte) : (s.compareCore r m).x = s.x := rfl
@[simp] theorem compareCore_y (s : State) (r m : Byte) : (s.compareCore r m).y = s.y := rfl
@[simp] theorem compareCore_sp (s : State) (r m : Byte) : (s.compareCore r m).sp = s.sp := rfl
@[simp] theorem compareCore_p (s : State) (r m : Byte) : (s.compareCore r m).p = compareFlags r m s.p := rfl
@[simp] theorem compareCore_pc (s : State) (r m : Byte) : (s.compareCore r m).pc = s.pc := rfl
@[simp] theorem compareCore_run (s : State) (r m : Byte) : (s.compareCore r m).run = s.run := rfl
@[simp] theorem compareCore_ram (s : State) (r m : Byte) : (s.compareCore r m).ram = s.ram := rfl
@[simp] theorem compareCore_prgRam (s : State) (r m : Byte) : (s.compareCore r m).prgRam = s.prgRam := rfl
@[simp] theorem compareCore_vram (s : State) (r m : Byte) : (s.compareCore r m).vram = s.vram := rfl
@[simp] theorem compareCore_palette (s : State) (r m : Byte) : (s.compareCore r m).palette = s.palette := rfl
@[simp] theorem compareCore_mapper (s : State) (r m : Byte) : (s.compareCore r m).mapper = s.mapper := rfl
@[simp] theorem compareCore_prgSize (s : State) (r m : Byte) : (s.compareCore r m).prgSize = s.prgSize := rfl
@[simp] theorem compareCore_prgRom (s : State) (r m : Byte) : (s.compareCore r m).prgRom = s.prgRom := rfl
@[simp] theorem compareCore_chrRom (s : State) (r m : Byte) : (s.compareCore r m).chrRom = s.chrRom := rfl
@[simp] theorem compareCore_mirroring (s : State) (r m : Byte) : (s.compareCore r m).mirroring = s.mirroring := rfl
@[simp] theorem compareCore_gfx (s : State) (r m : Byte) : (s.compareCore r m).gfx = s.gfx := rfl
@[simp] theorem compareCore_events (s : State) (r m : Byte) : (s.compareCore r m).events = s.events := rfl
@[simp] theorem compareCore_outcome (s : State) (r m : Byte) : (s.compareCore r m).outcome = s.outcome := rfl

@[simp] theorem finishOk_a (s : State) (n : Nat) : (s.finishOk n).a = s.a := rfl
@[simp] theorem finishOk_x (s : State) (n : Nat) : (s.finishOk n).x = s.x := rfl
@[simp] theorem finishOk_y (s : State) (n : Nat) : (s.finishOk n).y = s.y := rfl
@[simp] theorem finishOk_sp (s : State) (n : Nat) : (s.finishOk n).sp = s.sp := rfl
@[simp] theorem finishOk_p (s : State) (n : Nat) : (s.finishOk n).p = s.p := rfl
@[simp] theorem finishOk_pc (s : State) (n : Nat) : (s.finishOk n).pc = s.pc := rfl
@[simp] theorem finishOk_run (s : State) (n : Nat) : (s.finishOk n).run = s.run := rfl
@[simp] theorem finishOk_ram (s : State) (n : Nat) : (s.finishOk n).ram = s.ram := rfl
@[simp] theorem finishOk_prgRam (s : State) (n : Nat) : (s.finishOk n).prgRam = s.prgRam := rfl
@[simp] theorem finishOk_vram (s : State) (n : Nat) : (s.finishOk n).vram = s.vram := rfl
@[simp] theorem finishOk_palette (s : State) (n : Nat) : (s.finishOk n).palette = s.palette := rfl
@[simp] theorem finishOk_mapper (s : State) (n : Nat) : (s.finishOk n).mapper = s.mapper := rfl
@[simp] theorem finishOk_prgSize (s : State) (n : Nat) : (s.finishOk n).prgSize = s.prgSize := rfl
@[simp] theorem finishOk_prgRom (s : State) (n : Nat) : (s.finishOk n).prgRom = s.prgRom := rfl
@[simp] theorem finishOk_chrRom (s : State) (n : Nat) : (s.finishOk n).chrRom = s.chrRom := rfl
@[simp] theorem finishOk_mirroring (s : State) (n : Nat) : (s.finishOk n).mirroring = s.mirroring := rfl
@[simp] theorem finishOk_gfx (s : State) (n : Nat) : (s.finishOk n).gfx = s.gfx := rfl
@[simp] theorem finishOk_events (s : State) (n : Nat) : (s.finishOk n).events = s.events := rfl
@[simp] theorem finishOk_outcome (s : State) (n : Nat) : (s.finishOk n).outcome = some (.ok n) := rfl

@[simp] theorem raiseHalt_a (s : State) : (s.raiseHalt).a = s.a := rfl
@[simp] theorem raiseHalt_x (s : State) : (s.raiseHalt).x = s.x := rfl
@[simp] theorem raiseHalt_y (s : State) : (s.raiseHalt).y = s.y := rfl
@[simp] theorem raiseHalt_sp (s : State) : (s.raiseHalt).sp = s.sp := rfl
@[simp] theorem raiseHalt_p (s : State) : (s.raiseHalt).p = s.p := rfl
@[simp] theorem raiseHalt_pc (s : State) : (s.raiseHalt).pc = s.pc := rfl
@[simp] theorem raiseHalt_run (s : State) : (s.raiseHalt).run = s.run := rfl
@[simp] theorem raiseHalt_ram (s : State) : (s.raiseHalt).ram = s.ram := rfl
@[simp] theorem raiseHalt_prgRam (s : State) : (s.raiseHalt).prgRam = s.prgRam := rfl
@[simp] theorem raiseHalt_vram (s : State) : (s.raiseHalt).vram = s.vram := rfl
@[simp] theorem raiseHalt_palette (s : State) : (s.raiseHalt).palette = s.palette := rfl
@[simp] theorem raiseHalt_mapper (s : State) : (s.raiseHalt).mapper = s.mapper := rfl
@[simp] theorem raiseHalt_prgSize (s : State) : (s.raiseHalt).prgSize = s.prgSize := rfl
@[simp] theorem raiseHalt_prgRom (s : State) : (s.raiseHalt).prgRom = s.prgRom := rfl
@[simp] theorem raiseHalt_chrRom (s : State) : (s.raiseHalt).chrRom = s.chrRom := rfl
@[simp] theorem raiseHalt_mirroring (s : State) : (s.raiseHalt).mirroring = s.mirroring := rfl
@[simp] theorem raiseHalt_gfx (s : State) : (s.raiseHalt).gfx = s.gfx := rfl
@[simp] theorem raiseHalt_events (s : State) : (s.raiseHalt).events = s.events := rfl
@[simp] theorem raiseHalt_outcome (s : State) : (s.raiseHalt).outcome = some .halt := rfl

@[simp] theorem raiseDecodeError_a (s : State) (op : Byte) : (s.raiseDecodeError op).a = s.a := rfl
@[simp] theorem raiseDecodeError_x (s : State) (op : Byte) : (s.raiseDecodeError op).x = s.x := rfl
@[simp] theorem raiseDecodeError_y (s : State) (op : Byte) : (s.raiseDecodeError op).y = s.y := rfl
@[simp] theorem raiseDecodeError_sp (s : State) (op : Byte) : (s.raiseDecodeError op).sp = s.sp := rfl
@[simp] theorem raiseDecodeError_p (s : State) (op : Byte) : (s.raiseDecodeError op).p = s.p := rfl
@[simp] theorem raiseDecodeError_pc (s : State) (op : Byte) : (s.raiseDecodeError op).pc = s.pc := rfl
@[simp] theorem raiseDecodeError_run (s : State) (op : Byte) : (s.raiseDecodeError op).run = s.run := rfl
@[simp] theorem raiseDecodeError_ram (s : State) (op : Byte) : (s.raiseDecodeError op).ram = s.ram := rfl
@[simp] theorem raiseDecodeError_prgRam (s : State) (op : Byte) : (s.raiseDecodeError op).prgRam = s.prgRam := rfl
@[simp] theorem raiseDecodeError_vram (s : State) (op : Byte) : (s.raiseDecodeError op).vram = s.vram := rfl
@[simp] theorem raiseDecodeError_palette (s : State) (op : Byte) : (s.raiseDecodeError op).palette = s.palette := rfl
@[simp] theorem raiseDecodeError_mapper (s : State) (op : Byte) : (s.raiseDecodeError op).mapper = s.mapper := rfl
@[simp] theorem raiseDecodeError_prgSize (s : State) (op : Byte) : (s.raiseDecodeError op).prgSize = s.prgSize := rfl
@[simp] theorem raiseDecodeError_prgRom (s : State) (op : Byte) : (s.raiseDecodeError op).prgRom = s.prgRom := rfl
@[simp] theorem raiseDecodeError_chrRom (s : State) (op : Byte) : (s.raiseDecodeError op).chrRom = s.chrRom := rfl
@[simp] theorem raiseDecodeError_mirroring (s : State) (op : Byte) : (s.raiseDecodeError op).mirroring = s.mirroring := rfl
@[simp] theorem raiseDecodeError_gfx (s : State) (op : Byte) : (s.raiseDecodeError op).gfx = s.gfx := rfl
@[simp] theorem raiseDecodeError_events (s : State) (op : Byte) : (s.raiseDecodeError op).events = s.events := rfl
@[simp] theorem raiseDecodeError_outcome (s : State) (op : Byte) : (s.raiseDecodeError op).outcome = some (.decodeError op) := rfl

@[simp] theorem saveForBreak_a (s : State) : (s.saveForBreak).a = s.a := by simp [saveForBreak]
@[simp] theorem saveForBreak_x (s : State) : (s.saveForBreak).x = s.x := by simp [saveForBreak]
@[simp] theorem saveForBreak_y (s : State) : (s.saveForBreak).y = s.y := by simp [saveForBreak]
@[simp] theorem saveForBreak_sp (s : State) : (s.saveForBreak).sp = s.sp - 1 - 1 - 1 := by simp [saveForBreak]
@[simp] theorem saveForBreak_p (s : State) : (s.saveForBreak).p = Flag.i.write true s.p := by simp [saveForBreak]
@[simp] theorem saveForBreak_pc (s : State) : (s.saveForBreak).pc = s.pc := by simp [saveForBreak]
@[simp] theorem saveForBreak_run (s : State) : (s.saveForBreak).run = s.run := by simp [saveForBreak]
@[simp] theorem saveForBreak_mapper (s : State) : (s.saveForBreak).mapper = s.mapper := by simp [saveForBreak]
@[simp] theorem saveForBreak_prgSize (s : State) : (s.saveForBreak).prgSize = s.prgSize := by simp [saveForBreak]
@[simp] theorem saveForBreak_prgRom (s : State) : (s.saveForBreak).prgRom = s.prgRom := by simp [saveForBreak]
@[simp] theorem saveForBreak_chrRom (s : State) : (s.saveForBreak).chrRom = s.chrRom := by simp [saveForBreak]
@[simp] theorem saveForBreak_mirroring (s : State) : (s.saveForBreak).mirroring = s.mirroring := by simp [saveForBreak]
@[simp] theorem saveForBreak_outcome (s : State) : (s.saveForBreak).outcome = s.outcome := by simp [saveForBreak]

@[simp] theorem beginStep_a (s : State) : (s.beginStep).a = s.a := rfl
@[simp] theorem beginStep_x (s : State) : (s.beginStep).x = s.x := rfl
@[simp] theorem beginStep_y (s : State) : (s.beginStep).y = s.y := rfl
@[simp] theorem beginStep_sp (s : State) : (s.beginStep).sp = s.sp := rfl
@[simp] theorem beginStep_p (s : State) : (s.beginStep).p = s.p := rfl
@[simp] theorem beginStep_pc (s : State) : (s.beginStep).pc = s.pc := rfl
@[simp] theorem beginStep_run (s : State) : (s.beginStep).run = s.run := rfl
@[simp] theorem beginStep_ram (s : State) : (s.beginStep).ram = s.ram := rfl
@[simp] theorem beginStep_prgRam (s : State) : (s.beginStep).prgRam = s.prgRam := rfl
@[simp] theorem beginStep_vram (s : State) : (s.beginStep).vram = s.vram := rfl
@[simp] theorem beginStep_palette (s : State) : (s.beginStep).palette = s.palette := rfl
@[simp] theorem beginStep_mapper (s : State) : (s.beginStep).mapper = s.mapper := rfl
@[simp] theorem beginStep_prgSize (s : State) : (s.beginStep).prgSize = s.prgSize := rfl
@[simp] theorem beginStep_prgRom (s : State) : (s.beginStep).prgRom = s.prgRom := rfl
@[simp] theorem beginStep_chrRom (s : State) : (s.beginStep).chrRom = s.chrRom := rfl
@[simp] theorem beginStep_mirroring (s : State) : (s.beginStep).mirroring = s.mirroring := rfl
@[simp] theorem beginStep_gfx (s : State) : (s.beginStep).gfx = s.gfx := rfl
@[simp] theorem beginStep_events (s : State) : (s.beginStep).events = [] := rfl
@[simp] theorem beginStep_outcome (s : State) : (s.beginStep).outcome = none := rfl

end Sys2Proof.Machine.State
end

