-- ==== Sys2Proof/Laws/Ops.lean ====
section
/-!
SUPPORT. What the shared operations of `Machine/Ops.lean` do, each said once: the address decoder in numbers, reads
and writes of one byte, the stack, and `Evolves`, everything an operation can do to the state besides the registers.
-/

namespace Sys2Proof.Machine

/-! ### The address decoder -/

/-- The decoder's tests in numbers. -/
theorem region_eq (b : Word) : region b =
    if 0x6000 ≤ b.toNat then .cartridge else if 0x4020 ≤ b.toNat then .expansion
    else if 0x4000 ≤ b.toNat then .audioIo else if 0x2008 ≤ b.toNat then .gfxMirror
    else if 0x2000 ≤ b.toNat then .gfxRegister else if 0x0800 ≤ b.toNat then .ramMirror else .ram := by
  simp [region, BitVec.le_def]

theorem le_8000_iff (b : Word) : 0x8000 ≤ b ↔ 0x8000 ≤ b.toNat := Iff.rfl

theorem le_6000_iff (b : Word) : 0x6000 ≤ b ↔ 0x6000 ≤ b.toNat := Iff.rfl

theorem ramIndex_lt (b : Word) : ramIndex b < Config.ramSize := by unfold ramIndex Config.ramSize; omega

theorem isRam_iff (b : Word) : isRam b = true ↔ b.toNat < 0x2000 := by
  simp only [isRam, region_eq]
  split_ifs <;> simp <;> omega

theorem isGfx_iff (b : Word) : isGfx b = true ↔ 0x2000 ≤ b.toNat ∧ b.toNat < 0x4000 := by
  simp only [isGfx, region_eq]
  split_ifs <;> simp <;> omega

theorem isPrgRam_iff (b : Word) : isPrgRam b = true ↔ 0x6000 ≤ b.toNat ∧ b.toNat < 0x8000 := by
  simp [isPrgRam, BitVec.le_def, BitVec.lt_def]

theorem prgRamIndex_lt {b : Word} (h : isPrgRam b = true) : prgRamIndex b < Config.prgRamSize := by
  rw [isPrgRam_iff] at h; unfold prgRamIndex Config.prgRamSize; omega

theorem region_cartridge_iff (b : Word) : region b = .cartridge ↔ 0x6000 ≤ b.toNat := by
  rw [region_eq]
  split_ifs <;> simp_all

theorem busOk_iff (s : State) (b : Word) : s.busOk b = true ↔ s.mapper = .nrom ∨ b.toNat < 0x6000 := by
  have := region_cartridge_iff b
  cases hm : s.mapper <;> cases hr : region b <;> simp_all [State.busOk]

theorem busOk_of_nrom {s : State} (h : s.mapper = .nrom) (b : Word) : s.busOk b = true := by simp [busOk_iff, h]

theorem busOk_congr {s t : State} (h : t.mapper = s.mapper) (b : Word) : t.busOk b = s.busOk b := by
  simp only [State.busOk, h]

@[simp] theorem toNat_zext16 (z : Byte) : (zext16 z).toNat = z.toNat := by
  have := z.isLt; simp [zext16]; omega

theorem toNat_word (h l : Byte) : (word h l).toNat = 256 * h.toNat + l.toNat := by
  have e : word h l = BitVec.ofNat 16 (256 * h.toNat + l.toNat) := by
    apply BitVec.eq_of_getLsbD_eq
    intro i hi
    have hl := l.isLt
    rw [getLsbD_word, BitVec.getLsbD_ofNat, show (256 : Nat) * h.toNat + l.toNat = 2 ^ 8 * h.toNat + l.toNat by rfl,
      Nat.testBit_two_pow_mul_add _ hl]
    by_cases h8 : i < 8 <;> simp [h8, hi, BitVec.getLsbD]
  have := h.isLt; have := l.isLt
  rw [e, BitVec.toNat_ofNat]; omega

@[simp] theorem toNat_stackAddr (sp : Byte) : (stackAddr sp).toNat = 256 + sp.toNat := by
  simp [stackAddr, toNat_word, stackPage]

@[simp] theorem isGfx_zext16 (z : Byte) : isGfx (zext16 z) = false := by
  have := isGfx_iff (zext16 z); have := z.isLt
  rw [Bool.eq_false_iff]; simp_all; omega

@[simp] theorem isRam_zext16 (z : Byte) : isRam (zext16 z) = true := by
  rw [isRam_iff]; have := z.isLt; simp; omega

@[simp] theorem isGfx_stackAddr (sp : Byte) : isGfx (stackAddr sp) = false := by
  have := isGfx_iff (stackAddr sp); have := sp.isLt
  rw [Bool.eq_false_iff]; simp_all; omega

@[simp] theorem isRam_stackAddr (sp : Byte) : isRam (stackAddr sp) = true := by
  rw [isRam_iff]; have := sp.isLt; simp; omega

@[simp] theorem isWritable_stackAddr (sp : Byte) : isWritable (stackAddr sp) = true := by simp [isWritable]

@[simp] theorem busOk_zext16 (s : State) (z : Byte) : s.busOk (zext16 z) = true := by
  rw [busOk_iff]; have := z.isLt; right; simp; omega

@[simp] theorem busOk_stackAddr (s : State) (sp : Byte) : s.busOk (stackAddr sp) = true := by
  rw [busOk_iff]; have := sp.isLt; right; simp; omega

/-- The pure pointer and stack reads are `MemRead`s: zero page and stack never reach the mapper. -/
theorem memRead_zext16 (z : Byte) (s : State) :
    memRead (zext16 z) s = .ok (s.readByte (zext16 z), s.afterRead (zext16 z)) := by simp [memRead]

theorem memRead_stackAddr (sp : Byte) (s : State) :
    memRead (stackAddr sp) s = .ok (s.readByte (stackAddr sp), s.afterRead (stackAddr sp)) := by simp [memRead]

theorem memWrite_stackAddr (sp v : Byte) (s : State) :
    memWrite (stackAddr sp) v s = .ok (s.afterWrite (stackAddr sp) v) := by simp [memWrite]

/-- A bus read answers exactly where the mapper does, with the byte and the state after it. -/
theorem memRead_eq_ok {b : Word} {s t : State} {v : Byte} :
    memRead b s = .ok (v, t) ↔ s.busOk b = true ∧ v = s.readByte b ∧ t = s.afterRead b := by
  by_cases h : s.busOk b = true <;> simp [memRead, h, eq_comm]

/-- A bus write answers exactly where the mapper does. -/
theorem memWrite_eq_ok {b : Word} {v : Byte} {s t : State} :
    memWrite b v s = .ok t ↔ s.busOk b = true ∧ t = s.afterWrite b v := by
  by_cases h : s.busOk b = true <;> simp [memWrite, h, eq_comm]

/-- A word is read exactly where the mapper answers both accesses. -/
theorem memReadWord_eq_ok {lo hi : Word} {s t : State} {w : Word} : memReadWord lo hi s = .ok (w, t) ↔
    s.busOk lo = true ∧ s.busOk hi = true ∧ w = word ((s.afterRead lo).readByte hi) (s.readByte lo) ∧
      t = (s.afterRead lo).afterRead hi := by
  have e : (s.afterRead lo).busOk hi = s.busOk hi := busOk_congr rfl hi
  unfold memReadWord memRead
  cases h1 : s.busOk lo <;> cases h2 : s.busOk hi <;> simp [bind, Except.bind, pure, Except.pure, e, h2, eq_comm]

theorem memReadWord_of_ok {lo hi : Word} {s : State} (h1 : s.busOk lo = true) (h2 : s.busOk hi = true) :
    memReadWord lo hi s =
      .ok (word ((s.afterRead lo).readByte hi) (s.readByte lo), (s.afterRead lo).afterRead hi) :=
  memReadWord_eq_ok.2 ⟨h1, h2, rfl, rfl⟩

/-! ### Reading one byte -/

/-- The storage byte of an address, in numbers. -/
theorem storageOf_eq (size : PrgSize) (b : Word) : storageOf size b =
    if b.toNat < 0x2000 then some (.ram (ramIndex b)) else if b.toNat < 0x6000 then none
    else if b.toNat < 0x8000 then some (.prgRam (prgRamIndex b)) else some (.prgRom (prgRomIndex size b)) := by
  simp only [storageOf, region_eq, le_8000_iff]
  split_ifs <;> first | rfl | omega

/-- A byte that is no graphics register, by its storage: what the array holds, or the stub's value. -/
theorem readByte_eq (s : State) {b : Word} (hb : isGfx b = false) : s.readByte b =
    match storageOf s.prgSize b with
    | some (.ram k) => s.ram.read k
    | some (.prgRam k) => s.prgRam.read k
    | some (.prgRom k) => s.prgRom.read k
    | none => stubReadValue := by
  have hg : ¬(0x2000 ≤ b.toNat ∧ b.toNat < 0x4000) := by rw [← isGfx_iff]; simp [hb]
  simp only [storageOf_eq, State.readByte, State.nromRead, region_eq, le_8000_iff, le_6000_iff]
  split_ifs <;> first | rfl | omega

/-- A byte that is no graphics register reads from RAM, cartridge RAM and program ROM alone. -/
theorem readByte_congr {s t : State} (hr : t.ram = s.ram) (hp : t.prgRam = s.prgRam) (hs : t.prgSize = s.prgSize)
    (hm : t.prgRom = s.prgRom) {b : Word} (hb : isGfx b = false) : t.readByte b = s.readByte b := by
  rw [readByte_eq t hb, readByte_eq s hb, hr, hp, hs, hm]

@[simp] theorem readByte_afterRead (s : State) (c : Word) {b : Word} (hb : isGfx b = false) :
    (s.afterRead c).readByte b = s.readByte b := readByte_congr (s := s) (t := s.afterRead c) rfl rfl rfl rfl hb

@[simp] theorem readByte_advance (s : State) (n : Nat) (b : Word) : (s.advance n).readByte b = s.readByte b := rfl

@[simp] theorem readByte_log (s : State) (es : List Event) (b : Word) : (s.log es).readByte b = s.readByte b := rfl

/-- The write of a byte, by the storage it goes to: the array with that byte written, or dropped. -/
theorem afterWrite_arrays (s : State) (c : Word) (v : Byte) :
    (s.afterWrite c v).ram = (match storageOf s.prgSize c with | some (.ram k) => s.ram.write k v | _ => s.ram) ∧
    (s.afterWrite c v).prgRam = (match storageOf s.prgSize c with | some (.prgRam k) => s.prgRam.write k v | _ => s.prgRam) := by
  have hr := isRam_iff c
  have hp := isPrgRam_iff c
  simp only [storageOf_eq, State.afterWrite_ram, State.afterWrite_prgRam, State.nromWrite, hr, hp]
  constructor <;> split_ifs <;> first | rfl | omega

/-- Whether a write changes storage, by the storage byte. -/
theorem isWritable_eq (size : PrgSize) (c : Word) : isWritable c =
    match storageOf size c with
    | some (.ram _) | some (.prgRam _) => true
    | some (.prgRom _) | none => false := by
  have hr := isRam_iff c
  have hp := isPrgRam_iff c
  rw [Bool.eq_iff_iff, isWritable, Bool.or_eq_true, hr, hp, storageOf_eq]
  split_ifs <;> simp <;> omega

/-- What one byte reads as after a write: the stored byte at every mirror of the address written, if that is
storage a write changes; as before everywhere else (R53, R55, R66, R70). -/
theorem readByte_afterWrite (s : State) (c : Word) (v : Byte) {b : Word} (hb : isGfx b = false) :
    (s.afterWrite c v).readByte b =
      if isWritable c = true ∧ storageOf s.prgSize b = storageOf s.prgSize c then v else s.readByte b := by
  obtain ⟨hr, hp⟩ := afterWrite_arrays s c v
  rw [readByte_eq _ hb, readByte_eq s hb, hr, hp, isWritable_eq s.prgSize c]
  simp only [State.afterWrite_prgSize, State.afterWrite_prgRom]
  cases hc : storageOf s.prgSize c with
  | none => simp
  | some k => cases k <;> cases hbs : storageOf s.prgSize b with
    | none => simp
    | some j => cases j <;> simp [Memory.read_write]

/-! ### Graphics-internal writes -/

theorem vramIndex_lt (m : Mirroring) (b : GfxAddr) : vramIndex m b < Config.vramSize := by
  cases m <;> simp only [vramIndex, Config.vramSize] <;> omega

theorem paletteIndex_lt (b : GfxAddr) : paletteIndex b < Config.paletteSize := Nat.mod_lt _ (by decide)

theorem foldl_vramWrite_ok (m : Mirroring) (ws : List (GfxAddr × Byte)) {v : Memory}
    (h : v.wf = true ∧ v.within Config.vramSize = true) :
    (ws.foldl (vramWrite m) v).wf = true ∧ (ws.foldl (vramWrite m) v).within Config.vramSize = true := by
  induction ws generalizing v with
  | nil => exact h
  | cons w ws ih =>
    apply ih
    unfold vramWrite
    split
    · exact ⟨Memory.wf_write _ _ h.1, Memory.within_write _ (vramIndex_lt m _) h.2⟩
    all_goals exact h

theorem foldl_paletteWrite_ok (ws : List (GfxAddr × Byte)) {v : Memory}
    (h : v.wf = true ∧ v.within Config.paletteSize = true) :
    (ws.foldl paletteWrite v).wf = true ∧ (ws.foldl paletteWrite v).within Config.paletteSize = true := by
  induction ws generalizing v with
  | nil => exact h
  | cons w ws ih =>
    apply ih
    unfold paletteWrite
    split
    · exact ⟨Memory.wf_write _ _ h.1, Memory.within_write _ (paletteIndex_lt _) h.2⟩
    all_goals exact h

/-! ### Everything an operation can do besides registers -/

@[simp] theorem writesOf_append (es fs : List Event) : writesOf (es ++ fs) = writesOf es ++ writesOf fs := by
  simp [writesOf]

@[simp] theorem callsOf_append (es fs : List Event) : callsOf (es ++ fs) = callsOf es ++ callsOf fs := by
  simp [callsOf]

@[simp] theorem BytesAfter.nil (s t : State) : BytesAfter [] s t ↔ ∀ b, isGfx b = false → t.readByte b = s.readByte b :=
  Iff.rfl

/-- Writes made one batch after another. -/
theorem BytesAfter.append {ws vs : List (Word × Byte)} {s t u : State} (h : BytesAfter ws s t)
    (hs : t.prgSize = s.prgSize) (k : BytesAfter vs t u) : BytesAfter (ws ++ vs) s u := by
  intro b hb
  rw [k b hb, h b hb, hs, List.foldl_append]

/-- One bus write. -/
theorem BytesAfter.afterWrite (s : State) (c : Word) (v : Byte) : BytesAfter [(c, v)] s (s.afterWrite c v) := by
  intro b hb
  rw [readByte_afterWrite s c v hb]; rfl

/-- A state whose RAM, cartridge RAM and ROM are another's has that state's bytes. -/
theorem BytesAfter.congr {ws : List (Word × Byte)} {s t u : State} (h : BytesAfter ws s t) (h1 : u.ram = t.ram)
    (h2 : u.prgRam = t.prgRam) (h3 : u.prgSize = t.prgSize) (h4 : u.prgRom = t.prgRom) : BytesAfter ws s u :=
  fun b hb => (readByte_congr h1 h2 h3 h4 hb).trans (h b hb)

theorem ReadsLatest.nil (s : State) : ReadsLatest s [] := by
  intro before c v after h; simp at h

/-- Reads made one batch after another. -/
theorem ReadsLatest.append {s t : State} {es fs : List Event} (h : ReadsLatest s es)
    (hb : BytesAfter (writesOf es) s t) (hs : t.prgSize = s.prgSize) (k : ReadsLatest t fs) :
    ReadsLatest s (es ++ fs) := by
  intro before c v after he hg
  rcases List.append_eq_append_iff.1 he with ⟨m, rfl, hm⟩ | ⟨m, hes, hm⟩
  · rw [k m c v after hm hg, writesOf_append, List.foldl_append, hb c hg, hs]
  · cases m with
    | nil =>
      simp only [List.append_nil] at hes
      subst hes
      simp only [List.nil_append] at hm
      rw [k [] c v after (by simpa using hm.symm) hg]
      exact hb c hg
    | cons e m =>
      simp only [List.cons_append, List.cons.injEq] at hm
      obtain ⟨rfl, rfl⟩ := hm
      exact h before c v m hes hg

/-- What every operation of the machine does to the state besides the registers: the constants stay; events are
appended, and with them exactly the interface calls they stand for, the bytes of the CPU-visible space become what
their writes make them, and their reads returned the latest of those writes; the graphics-internal memories change
only with a call; memories stay well formed. -/
structure Evolves (s t : State) : Prop where
  constants : KeepsConstants s t
  bus : ∃ es, t.events = s.events ++ es ∧ BytesAfter (writesOf es) s t ∧ t.gfx = s.gfx ++ callsOf es ∧ ReadsLatest s es
  graphics : t.gfx = s.gfx → t.vram = s.vram ∧ t.palette = s.palette
  memories : s.memoriesOk = true → t.memoriesOk = true

theorem Evolves.refl (s : State) : Evolves s s :=
  ⟨⟨rfl, rfl, rfl, rfl, rfl⟩, ⟨[], by simp, fun _ _ => rfl, by simp [callsOf], ReadsLatest.nil s⟩,
    fun _ => ⟨rfl, rfl⟩, id⟩

theorem Evolves.trans {s t u : State} (h : Evolves s t) (k : Evolves t u) : Evolves s u := by
  obtain ⟨hc, ⟨es, hes, hb, hcs, hr⟩, hg, hm⟩ := h
  obtain ⟨kc, ⟨fs, kes, kb, kcs, kr⟩, kg, km⟩ := k
  refine ⟨?_, ⟨es ++ fs, by simp [kes, hes], ?_, by simp [kcs, hcs], hr.append hb hc.2.1 kr⟩, ?_, km ∘ hm⟩
  · obtain ⟨h1, h2, h3, h4, h5⟩ := hc
    obtain ⟨k1, k2, k3, k4, k5⟩ := kc
    exact ⟨k1.trans h1, k2.trans h2, k3.trans h3, k4.trans h4, k5.trans h5⟩
  · rw [writesOf_append]; exact hb.append hc.2.1 kb
  · intro he
    have : callsOf es ++ callsOf fs = [] := by
      rw [kcs, hcs, List.append_assoc] at he; simpa using he
    obtain ⟨h1, h2⟩ := List.append_eq_nil_iff.1 this
    have ht : t.gfx = s.gfx := by rw [hcs, h1, List.append_nil]
    have hu : u.gfx = t.gfx := by rw [kcs, h2, List.append_nil]
    exact ⟨(kg hu).1.trans (hg ht).1, (kg hu).2.trans (hg ht).2⟩

/-- An operation on registers, PC, run state and outcome alone. -/
theorem Evolves.of_registers {s t : State} (h1 : t.ram = s.ram) (h2 : t.prgRam = s.prgRam) (h3 : t.vram = s.vram)
    (h4 : t.palette = s.palette) (hc : KeepsConstants s t) (h5 : t.gfx = s.gfx) (h6 : t.events = s.events) :
    Evolves s t := by
  refine ⟨hc, ⟨[], by simp [h6], fun b hb => readByte_congr h1 h2 hc.2.1 hc.2.2.1 hb, by simp [h5, callsOf],
    ReadsLatest.nil s⟩, fun _ => ⟨h3, h4⟩, fun hm => ?_⟩
  obtain ⟨_, k2, k3, k4, _⟩ := hc
  simpa [State.memoriesOk, h1, h2, h3, h4, k2, k3, k4] using hm

theorem writesOf_diag {es : List Event} (h : ∀ e ∈ es, ∃ d, e = .diag d) : writesOf es = [] := by
  refine List.filterMap_eq_nil_iff.2 fun e he => ?_
  obtain ⟨d, rfl⟩ := h e he; rfl

theorem callsOf_diag {es : List Event} (h : ∀ e ∈ es, ∃ d, e = .diag d) : callsOf es = [] := by
  refine List.filterMap_eq_nil_iff.2 fun e he => ?_
  obtain ⟨d, rfl⟩ := h e he; rfl

/-- Diagnostic events make no access. -/
theorem Evolves.log (s : State) {es : List Event} (h : ∀ e ∈ es, ∃ d, e = .diag d) : Evolves s (s.log es) := by
  refine ⟨⟨rfl, rfl, rfl, rfl, rfl⟩, ⟨es, rfl, by rw [writesOf_diag h]; exact fun _ _ => rfl, by simp [State.log, callsOf_diag h], ?_⟩,
    fun _ => ⟨rfl, rfl⟩, id⟩
  intro before c v after he
  obtain ⟨d, hd⟩ := h (.read c v) (by simp [he])
  cases hd

theorem wrapDiags_diag (b : Bool) : ∀ e ∈ wrapDiags b, ∃ d, e = .diag d := by
  cases b <;> simp [wrapDiags]

/-- The diagnostic events of a read are diagnostic events. -/
theorem readDiags_diag (c : Word) : ∀ e ∈ readDiags c, ∃ d, e = .diag d := by
  intro e he
  unfold readDiags at he
  split at he <;> simp at he
  exact ⟨_, he⟩

theorem writeDiags_diag (c : Word) : ∀ e ∈ writeDiags c, ∃ d, e = .diag d := by
  intro e he
  unfold writeDiags nromWriteDiags at he
  split at he
  · split_ifs at he <;> simp at he <;> exact ⟨_, he⟩
  · simp at he; exact ⟨_, he⟩
  all_goals simp at he

@[simp] theorem writesOf_read (c : Word) (v : Byte) (es : List Event) : writesOf (.read c v :: es) = writesOf es := rfl

@[simp] theorem writesOf_write (c : Word) (v : Byte) (es : List Event) :
    writesOf (.write c v :: es) = (c, v) :: writesOf es := rfl

theorem memoriesOk_iff (s : State) : s.memoriesOk = true ↔
    (s.ram.wf = true ∧ s.ram.within Config.ramSize = true) ∧ (s.prgRam.wf = true ∧ s.prgRam.within Config.prgRamSize = true)
    ∧ (s.vram.wf = true ∧ s.vram.within Config.vramSize = true)
    ∧ (s.palette.wf = true ∧ s.palette.within Config.paletteSize = true)
    ∧ (s.prgRom.wf = true ∧ s.prgRom.within s.prgSize.bytes = true)
    ∧ (s.chrRom.wf = true ∧ s.chrRom.within Config.chrRomSize = true) := by
  simp only [State.memoriesOk, Bool.and_eq_true]; tauto

theorem Evolves.afterRead (s : State) (c : Word) : Evolves s (s.afterRead c) := by
  refine ⟨⟨rfl, rfl, rfl, rfl, rfl⟩, ⟨_, rfl, ?_, ?_, ?_⟩, ?_, ?_⟩
  · rw [writesOf_read, writesOf_diag (readDiags_diag c)]
    exact fun b hb => readByte_afterRead s c hb
  · have hd := callsOf_diag (readDiags_diag c)
    cases h : isGfx c
    · simp only [callsOf, List.filterMap_cons, h] at hd ⊢
      simp [State.afterRead, State.gfxAfterRead, h, hd]
    · have hv : s.readByte c = s.gfxAnswer c := by
        cases hr : region c <;> simp_all [isGfx, State.readByte]
      simp only [callsOf, List.filterMap_cons, h] at hd ⊢
      simp [State.afterRead, State.gfxAfterRead, h, hd, hv]
  · intro before d v after he hg
    cases before with
    | nil => simp only [List.nil_append, List.cons.injEq, Event.read.injEq] at he; obtain ⟨⟨rfl, rfl⟩, _⟩ := he; rfl
    | cons e before =>
      simp only [List.cons_append, List.cons.injEq] at he
      obtain ⟨x, hx⟩ := readDiags_diag c (.read d v) (by simp [he.2])
      cases hx
  · intro he
    by_cases h : isGfx c = true
    · simp [State.afterRead, State.gfxAfterRead, h] at he
    · simp [State.afterRead, State.gfxAfterRead, h]
  · intro hm
    rw [memoriesOk_iff] at hm ⊢
    refine ⟨hm.1, hm.2.1, ?_, ?_, hm.2.2.2.2⟩
    · by_cases h : isGfx c = true
      · simpa [State.afterRead, State.gfxAfterRead, h, State.gfxCall] using foldl_vramWrite_ok s.mirroring _ hm.2.2.1
      · simpa [State.afterRead, State.gfxAfterRead, h] using hm.2.2.1
    · by_cases h : isGfx c = true
      · simpa [State.afterRead, State.gfxAfterRead, h, State.gfxCall] using foldl_paletteWrite_ok _ hm.2.2.2.1
      · simpa [State.afterRead, State.gfxAfterRead, h] using hm.2.2.2.1

theorem Evolves.afterWrite (s : State) (c : Word) (v : Byte) : Evolves s (s.afterWrite c v) := by
  refine ⟨⟨rfl, rfl, rfl, rfl, rfl⟩, ⟨_, rfl, ?_, ?_, ?_⟩, ?_, ?_⟩
  · rw [writesOf_write, writesOf_diag (writeDiags_diag c)]
    exact BytesAfter.afterWrite s c v
  · have hd := callsOf_diag (writeDiags_diag c)
    cases h : isGfx c <;> simp only [callsOf, List.filterMap_cons, h] at hd ⊢ <;>
      simp [State.afterWrite, State.gfxAfterWrite, h, hd]
  · intro before d w after he hg
    have : Event.read d w ∈ writeDiags c := by
      have : Event.read d w ∈ Event.write c v :: writeDiags c := by simp [he]
      simpa using this
    obtain ⟨x, hx⟩ := writeDiags_diag c _ this
    cases hx
  · intro he
    by_cases h : isGfx c = true
    · simp [State.afterWrite, State.gfxAfterWrite, h] at he
    · simp [State.afterWrite, State.gfxAfterWrite, h]
  · intro hm
    rw [memoriesOk_iff] at hm ⊢
    refine ⟨?_, ?_, ?_, ?_, hm.2.2.2.2⟩
    · simp only [State.afterWrite_ram]
      split
      · exact ⟨Memory.wf_write _ _ hm.1.1, Memory.within_write _ (ramIndex_lt c) hm.1.2⟩
      · exact hm.1
    · by_cases h : isPrgRam c = true
      · simp only [State.afterWrite_prgRam, State.nromWrite, h, if_true]
        exact ⟨Memory.wf_write _ _ hm.2.1.1, Memory.within_write _ (prgRamIndex_lt h) hm.2.1.2⟩
      · simpa [State.nromWrite, h] using hm.2.1
    · by_cases h : isGfx c = true
      · simpa [State.afterWrite, State.gfxAfterWrite, h, State.gfxCall] using foldl_vramWrite_ok s.mirroring _ hm.2.2.1
      · simpa [State.afterWrite, State.gfxAfterWrite, h] using hm.2.2.1
    · by_cases h : isGfx c = true
      · simpa [State.afterWrite, State.gfxAfterWrite, h, State.gfxCall] using foldl_paletteWrite_ok _ hm.2.2.2.1
      · simpa [State.afterWrite, State.gfxAfterWrite, h] using hm.2.2.2.1

theorem Evolves.push (s : State) (v : Byte) : Evolves s (s.push v) :=
  ((Evolves.afterWrite s (stackAddr s.sp) v).trans (Evolves.log _ (wrapDiags_diag _))).trans
    (Evolves.of_registers rfl rfl rfl rfl ⟨rfl, rfl, rfl, rfl, rfl⟩ rfl rfl)

theorem Evolves.afterPull (s : State) : Evolves s s.afterPull :=
  ((Evolves.afterRead s (stackAddr (s.sp + 1))).trans (Evolves.log _ (wrapDiags_diag _))).trans
    (Evolves.of_registers rfl rfl rfl rfl ⟨rfl, rfl, rfl, rfl, rfl⟩ rfl rfl)

/-! ### The stack -/

@[simp] theorem push_gfx (s : State) (v : Byte) : (s.push v).gfx = s.gfx := by
  simp [State.push, State.afterWrite, State.gfxAfterWrite, State.log]

@[simp] theorem afterPull_gfx (s : State) : s.afterPull.gfx = s.gfx := by
  simp [State.afterPull, State.afterRead, State.gfxAfterRead, State.log]

/-- The stack byte pushed reads back; every other byte is as before. -/
theorem readByte_push (s : State) (v : Byte) {b : Word} (hb : isGfx b = false) :
    (s.push v).readByte b =
      if storageOf s.prgSize b = storageOf s.prgSize (stackAddr s.sp) then v else s.readByte b := by
  have h := readByte_afterWrite s (stackAddr s.sp) v hb
  simp only [isWritable_stackAddr, true_and] at h
  rw [← h]
  exact readByte_congr rfl rfl rfl rfl hb

@[simp] theorem readByte_afterPull (s : State) {b : Word} (hb : isGfx b = false) :
    s.afterPull.readByte b = s.readByte b := readByte_congr (s := s) (t := s.afterPull) rfl rfl rfl rfl hb

theorem BytesAfter.push (s : State) (v : Byte) : BytesAfter [(stackAddr s.sp, v)] s (s.push v) :=
  (BytesAfter.afterWrite s (stackAddr s.sp) v).congr rfl rfl rfl rfl

theorem BytesAfter.afterPull (s : State) : BytesAfter [] s s.afterPull := fun _ hb => readByte_afterPull s hb

/-- The storage byte of a stack location. -/
theorem storageOf_stackAddr (size : PrgSize) (sp : Byte) :
    storageOf size (stackAddr sp) = some (.ram (256 + sp.toNat)) := by
  have := sp.isLt
  rw [storageOf_eq, if_pos (by simp; omega), ramIndex, toNat_stackAddr, Nat.mod_eq_of_lt (by omega)]

/-- A stack location after a push. -/
theorem readByte_push_stack (s : State) (v x : Byte) :
    (s.push v).readByte (stackAddr x) = if x = s.sp then v else s.readByte (stackAddr x) := by
  rw [readByte_push s v (isGfx_stackAddr x)]
  simp only [storageOf_stackAddr, Option.some.injEq, Storage.ram.injEq, Nat.add_left_cancel_iff, BitVec.toNat_inj]

/-! ### PC and status pass through the stack operations -/

theorem advance_eq_jump (s : State) (n : Nat) : s.advance n = s.jump (s.pc + BitVec.ofNat 16 n) := rfl

theorem push_jump (s : State) (w : Word) (v : Byte) : (s.jump w).push v = (s.push v).jump w := by
  unfold State.push State.afterWrite State.gfxAfterWrite State.nromWrite State.log State.jump
  split_ifs <;> rfl

theorem afterPull_jump (s : State) (w : Word) : (s.jump w).afterPull = s.afterPull.jump w := by
  unfold State.afterPull State.afterRead State.gfxAfterRead State.log State.jump
  split_ifs <;> rfl

theorem afterPull_loadStatus (s : State) (p : Byte) : (s.loadStatus p).afterPull = s.afterPull.loadStatus p := by
  unfold State.afterPull State.afterRead State.gfxAfterRead State.log State.loadStatus
  split_ifs <;> rfl

theorem afterRead_jump (s : State) (w b : Word) : (s.jump w).afterRead b = (s.afterRead b).jump w := by
  unfold State.afterRead State.gfxAfterRead State.jump
  split_ifs <;> rfl

theorem afterRead_loadStatus (s : State) (p : Byte) (b : Word) :
    (s.loadStatus p).afterRead b = (s.afterRead b).loadStatus p := by
  unfold State.afterRead State.gfxAfterRead State.loadStatus
  split_ifs <;> rfl

theorem afterWrite_loadStatus (s : State) (p : Byte) (b : Word) (v : Byte) :
    (s.loadStatus p).afterWrite b v = (s.afterWrite b v).loadStatus p := by
  unfold State.afterWrite State.gfxAfterWrite State.nromWrite State.loadStatus
  split_ifs <;> rfl

@[simp] theorem readByte_jump (s : State) (w b : Word) : (s.jump w).readByte b = s.readByte b := rfl

@[simp] theorem readByte_loadStatus (s : State) (p : Byte) (b : Word) : (s.loadStatus p).readByte b = s.readByte b := rfl

@[simp] theorem pullByte_jump (s : State) (w : Word) : (s.jump w).pullByte = s.pullByte := rfl

@[simp] theorem pullByte_loadStatus (s : State) (p : Byte) : (s.loadStatus p).pullByte = s.pullByte := rfl

@[simp] theorem jump_jump (s : State) (v w : Word) : (s.jump v).jump w = s.jump w := rfl

@[simp] theorem loadStatus_jump (s : State) (w : Word) (p : Byte) : (s.jump w).loadStatus p = (s.loadStatus p).jump w := rfl

@[simp] theorem loadStatus_loadStatus (s : State) (p q : Byte) : (s.loadStatus p).loadStatus q = s.loadStatus q := rfl

/-- The byte the second of two pulls returns. -/
theorem pullByte_afterPull (s : State) : s.afterPull.pullByte = s.readByte (stackAddr (s.sp + 2)) := by
  rw [State.pullByte, readByte_afterPull s (isGfx_stackAddr _), State.afterPull_sp, BitVec.add_assoc]; rfl

/-- The byte the third of three pulls returns. -/
theorem pullByte_afterPull_afterPull (s : State) : s.afterPull.afterPull.pullByte = s.readByte (stackAddr (s.sp + 3)) := by
  rw [pullByte_afterPull, readByte_afterPull s (isGfx_stackAddr _), State.afterPull_sp, BitVec.add_assoc]; rfl

/-! ### Taking an exception, and returning -/

/-- What BRK's entry has saved when it reads the vector, `s` standing with PC past the opcode. -/
theorem saveForBreak_eq (s : State) : s.saveForBreak =
    (((s.push (hiByte (s.pc + 1))).push (loByte (s.pc + 1))).push (pushedStatus s.p)).loadStatus
      (Flag.i.write true s.p) := by
  simp only [State.saveForBreak, State.setFlag, State.push_p]

/-- A return from interrupt: three pulls, then status and PC. -/
theorem returnFromInterrupt_eq (s : State) : s.returnFromInterrupt =
    (s.afterPull.afterPull.afterPull.loadStatus (pulledStatus s.pullByte)).jump
      (word (s.readByte (stackAddr (s.sp + 3))) (s.readByte (stackAddr (s.sp + 2)))) := by
  simp only [State.returnFromInterrupt, afterPull_loadStatus, pullByte_loadStatus]
  rw [pullByte_afterPull_afterPull, pullByte_afterPull]

end Sys2Proof.Machine
end

