-- ==== Sys2Proof/Laws/Operands.lean ====
section
/-!
SUPPORT. What resolving and reading an operand leave alone, and what each shape of instruction in `Machine/Operands.lean` answers.
-/

namespace Sys2Proof.Machine

namespace State

/-! ### The state after the pointer reads, field by field -/

@[simp] theorem resolve_a (s : State) (m : Mem) : (s.resolve m).2.a = s.a := by cases m <;> rfl
@[simp] theorem resolve_x (s : State) (m : Mem) : (s.resolve m).2.x = s.x := by cases m <;> rfl
@[simp] theorem resolve_y (s : State) (m : Mem) : (s.resolve m).2.y = s.y := by cases m <;> rfl
@[simp] theorem resolve_sp (s : State) (m : Mem) : (s.resolve m).2.sp = s.sp := by cases m <;> rfl
@[simp] theorem resolve_p (s : State) (m : Mem) : (s.resolve m).2.p = s.p := by cases m <;> rfl
@[simp] theorem resolve_run (s : State) (m : Mem) : (s.resolve m).2.run = s.run := by cases m <;> rfl
@[simp] theorem resolve_ram (s : State) (m : Mem) : (s.resolve m).2.ram = s.ram := by cases m <;> rfl
@[simp] theorem resolve_prgRam (s : State) (m : Mem) : (s.resolve m).2.prgRam = s.prgRam := by cases m <;> rfl
@[simp] theorem resolve_mapper (s : State) (m : Mem) : (s.resolve m).2.mapper = s.mapper := by cases m <;> rfl
@[simp] theorem resolve_prgSize (s : State) (m : Mem) : (s.resolve m).2.prgSize = s.prgSize := by cases m <;> rfl
@[simp] theorem resolve_prgRom (s : State) (m : Mem) : (s.resolve m).2.prgRom = s.prgRom := by cases m <;> rfl
@[simp] theorem resolve_chrRom (s : State) (m : Mem) : (s.resolve m).2.chrRom = s.chrRom := by cases m <;> rfl
@[simp] theorem resolve_mirroring (s : State) (m : Mem) : (s.resolve m).2.mirroring = s.mirroring := by cases m <;> rfl
@[simp] theorem resolve_outcome (s : State) (m : Mem) : (s.resolve m).2.outcome = s.outcome := by cases m <;> rfl
@[simp] theorem resolve_pc (s : State) (m : Mem) : (s.resolve m).2.pc = s.pc := by cases m <;> rfl
@[simp] theorem resolve_gfx (s : State) (m : Mem) : (s.resolve m).2.gfx = s.gfx := by
  cases m <;> simp [resolve, zeroPagePointer, afterRead, gfxAfterRead]
@[simp] theorem resolve_vram (s : State) (m : Mem) : (s.resolve m).2.vram = s.vram := by
  cases m <;> simp [resolve, zeroPagePointer, afterRead, gfxAfterRead]
@[simp] theorem resolve_palette (s : State) (m : Mem) : (s.resolve m).2.palette = s.palette := by
  cases m <;> simp [resolve, zeroPagePointer, afterRead, gfxAfterRead]

/-! ### The state in which a handler runs -/

@[simp] theorem resolved_a (s : State) (m : Mem) : (s.resolved m).a = s.a := resolve_a s m
@[simp] theorem resolved_x (s : State) (m : Mem) : (s.resolved m).x = s.x := resolve_x s m
@[simp] theorem resolved_y (s : State) (m : Mem) : (s.resolved m).y = s.y := resolve_y s m
@[simp] theorem resolved_sp (s : State) (m : Mem) : (s.resolved m).sp = s.sp := resolve_sp s m
@[simp] theorem resolved_p (s : State) (m : Mem) : (s.resolved m).p = s.p := resolve_p s m
@[simp] theorem resolved_run (s : State) (m : Mem) : (s.resolved m).run = s.run := resolve_run s m
@[simp] theorem resolved_ram (s : State) (m : Mem) : (s.resolved m).ram = s.ram := resolve_ram s m
@[simp] theorem resolved_prgRam (s : State) (m : Mem) : (s.resolved m).prgRam = s.prgRam := resolve_prgRam s m
@[simp] theorem resolved_mapper (s : State) (m : Mem) : (s.resolved m).mapper = s.mapper := resolve_mapper s m
@[simp] theorem resolved_prgSize (s : State) (m : Mem) : (s.resolved m).prgSize = s.prgSize := resolve_prgSize s m
@[simp] theorem resolved_prgRom (s : State) (m : Mem) : (s.resolved m).prgRom = s.prgRom := resolve_prgRom s m
@[simp] theorem resolved_chrRom (s : State) (m : Mem) : (s.resolved m).chrRom = s.chrRom := resolve_chrRom s m
@[simp] theorem resolved_mirroring (s : State) (m : Mem) : (s.resolved m).mirroring = s.mirroring := resolve_mirroring s m
@[simp] theorem resolved_outcome (s : State) (m : Mem) : (s.resolved m).outcome = s.outcome := resolve_outcome s m
@[simp] theorem resolved_gfx (s : State) (m : Mem) : (s.resolved m).gfx = s.gfx := resolve_gfx s m
@[simp] theorem resolved_vram (s : State) (m : Mem) : (s.resolved m).vram = s.vram := resolve_vram s m
@[simp] theorem resolved_palette (s : State) (m : Mem) : (s.resolved m).palette = s.palette := resolve_palette s m
@[simp] theorem resolved_pc (s : State) (m : Mem) : (s.resolved m).pc = s.pc + BitVec.ofNat 16 m.mode.length := by
  simp [resolved]

@[simp] theorem afterOperand_a (s : State) (o : Src) : (s.afterOperand o).a = s.a := by
  cases o <;> simp [afterOperand]
@[simp] theorem afterOperand_x (s : State) (o : Src) : (s.afterOperand o).x = s.x := by
  cases o <;> simp [afterOperand]
@[simp] theorem afterOperand_y (s : State) (o : Src) : (s.afterOperand o).y = s.y := by
  cases o <;> simp [afterOperand]
@[simp] theorem afterOperand_sp (s : State) (o : Src) : (s.afterOperand o).sp = s.sp := by
  cases o <;> simp [afterOperand]
@[simp] theorem afterOperand_p (s : State) (o : Src) : (s.afterOperand o).p = s.p := by
  cases o <;> simp [afterOperand]
@[simp] theorem afterOperand_run (s : State) (o : Src) : (s.afterOperand o).run = s.run := by
  cases o <;> simp [afterOperand]
@[simp] theorem afterOperand_ram (s : State) (o : Src) : (s.afterOperand o).ram = s.ram := by
  cases o <;> simp [afterOperand]
@[simp] theorem afterOperand_prgRam (s : State) (o : Src) : (s.afterOperand o).prgRam = s.prgRam := by
  cases o <;> simp [afterOperand]
@[simp] theorem afterOperand_mapper (s : State) (o : Src) : (s.afterOperand o).mapper = s.mapper := by
  cases o <;> simp [afterOperand]
@[simp] theorem afterOperand_prgSize (s : State) (o : Src) : (s.afterOperand o).prgSize = s.prgSize := by
  cases o <;> simp [afterOperand]
@[simp] theorem afterOperand_prgRom (s : State) (o : Src) : (s.afterOperand o).prgRom = s.prgRom := by
  cases o <;> simp [afterOperand]
@[simp] theorem afterOperand_chrRom (s : State) (o : Src) : (s.afterOperand o).chrRom = s.chrRom := by
  cases o <;> simp [afterOperand]
@[simp] theorem afterOperand_mirroring (s : State) (o : Src) : (s.afterOperand o).mirroring = s.mirroring := by
  cases o <;> simp [afterOperand]
@[simp] theorem afterOperand_outcome (s : State) (o : Src) : (s.afterOperand o).outcome = s.outcome := by
  cases o <;> simp [afterOperand]
@[simp] theorem afterOperand_pc (s : State) (o : Src) :
    (s.afterOperand o).pc = s.pc + BitVec.ofNat 16 o.mode.length := by
  cases o <;> simp [afterOperand, Src.mode, Mode.length]

end State

/-! ### Bytes -/

@[simp] theorem readByte_resolved (s : State) (m : Mem) {b : Word} (hb : isGfx b = false) :
    (s.resolved m).readByte b = s.readByte b := readByte_congr (by simp) (by simp) (by simp) (by simp) hb

@[simp] theorem readByte_afterOperand (s : State) (o : Src) {b : Word} (hb : isGfx b = false) :
    (s.afterOperand o).readByte b = s.readByte b := readByte_congr (by simp) (by simp) (by simp) (by simp) hb

/-- The resolver's pointer reads do not change what a later read of any address answers. -/
theorem readByte_resolved_eq (s : State) (m : Mem) (b : Word) : (s.resolved m).readByte b = s.readByte b := by
  cases hb : isGfx b
  · exact readByte_resolved s m hb
  · cases hr : region b <;> simp_all [isGfx, State.readByte, State.gfxAnswer]

theorem Evolves.resolve (s : State) (m : Mem) : Evolves s (s.resolve m).2 := by
  cases m with
  | indirectX i => exact (Evolves.afterRead _ _).trans (Evolves.afterRead _ _)
  | indirectY i => exact (Evolves.afterRead _ _).trans (Evolves.afterRead _ _)
  | _ => exact Evolves.refl s

theorem Evolves.advance (s : State) (n : Nat) : Evolves s (s.advance n) :=
  Evolves.of_registers rfl rfl rfl rfl ⟨rfl, rfl, rfl, rfl, rfl⟩ rfl rfl

theorem Evolves.finishOk (s : State) (n : Nat) : Evolves s (s.finishOk n) :=
  Evolves.of_registers rfl rfl rfl rfl ⟨rfl, rfl, rfl, rfl, rfl⟩ rfl rfl

theorem Evolves.resolved (s : State) (m : Mem) : Evolves s (s.resolved m) :=
  (Evolves.resolve s m).trans (Evolves.advance _ _)

theorem Evolves.afterOperand (s : State) (o : Src) : Evolves s (s.afterOperand o) := by
  cases o with
  | immediate v => exact Evolves.advance s 2
  | mem m => exact (Evolves.resolved s m).trans (Evolves.afterRead _ _)

/-! ### The shapes of instruction -/

theorem readInstr_of_ok {s : State} {o : Src} (i : Instr) (k : Byte → State → State) (h : s.operandOk o = true) :
    readInstr i o k s =
      .next ((k (s.operand o) (s.afterOperand o)).finishOk (cycles i (s.operandCrosses o))) := by
  simp [readInstr, h]

theorem storeInstr_of_ok {s : State} {m : Mem} (i : Instr) (f : State → Byte) (h : s.busOk (s.effAddr m) = true) :
    storeInstr i m f s =
      .next (((s.resolved m).afterWrite (s.effAddr m) (f s)).finishOk (cycles i (s.crosses m))) := by
  have h' : (s.resolved m).busOk (s.effAddr m) = true := by rw [busOk_congr (s := s) (by simp)]; exact h
  simp [storeInstr, memWrite, h', toResult, bind, Except.bind, pure, Except.pure]

theorem modifyInstr_of_ok {s : State} {m : Mem} (i : Instr) (f : Byte → State → Byte × State)
    (k : Byte → State → State) (hf : ∀ v t, (f v t).2.mapper = t.mapper) (h : s.busOk (s.effAddr m) = true) :
    modifyInstr i m f k s =
      let r := f (s.readByte (s.effAddr m)) ((s.resolved m).afterRead (s.effAddr m))
      .next ((k r.1 (r.2.afterWrite (s.effAddr m) r.1)).finishOk (cycles i (s.crosses m))) := by
  have h1 : (s.resolved m).busOk (s.effAddr m) = true := by rw [busOk_congr (s := s) (by simp)]; exact h
  have h2 : ∀ v, (f v ((s.resolved m).afterRead (s.effAddr m))).2.busOk (s.effAddr m) = true := fun v => by
    rw [busOk_congr (s := s) (by simp [hf])]; exact h
  simp [modifyInstr, memRead, memWrite, h1, h2, toResult, bind, Except.bind, pure, Except.pure, readByte_resolved_eq]

/-- A read instruction whose access would invoke `NoMapper` faults. -/
theorem readInstr_of_not_ok {s : State} {o : Src} (i : Instr) (k : Byte → State → State) (h : s.operandOk o = false) :
    readInstr i o k s = .fault .noMapperInvoked := by simp [readInstr, h]

theorem storeInstr_of_not_ok {s : State} {m : Mem} (i : Instr) (f : State → Byte) (h : s.busOk (s.effAddr m) = false) :
    storeInstr i m f s = .fault .noMapperInvoked := by
  have h' : (s.resolved m).busOk (s.effAddr m) = false := by rw [busOk_congr (s := s) (by simp)]; exact h
  simp [storeInstr, memWrite, h', toResult, bind, Except.bind]

theorem modifyInstr_of_not_ok {s : State} {m : Mem} (i : Instr) (f : Byte → State → Byte × State)
    (k : Byte → State → State) (h : s.busOk (s.effAddr m) = false) :
    modifyInstr i m f k s = .fault .noMapperInvoked := by
  have h1 : (s.resolved m).busOk (s.effAddr m) = false := by rw [busOk_congr (s := s) (by simp)]; exact h
  simp [modifyInstr, memRead, h1, toResult, bind, Except.bind]

/-- A read instruction that answers a next state answers this one. -/
theorem readInstr_eq_next {i : Instr} {o : Src} {k : Byte → State → State} {s t : State}
    (h : readInstr i o k s = .next t) :
    s.operandOk o = true ∧ t = (k (s.operand o) (s.afterOperand o)).finishOk (cycles i (s.operandCrosses o)) := by
  by_cases ho : s.operandOk o = true
  · rw [readInstr_of_ok i k ho] at h; exact ⟨ho, (Host.Outcome.next.inj h).symm⟩
  · simp [readInstr, ho] at h

/-- A storing instruction that answers a next state answers this one. -/
theorem storeInstr_eq_next {i : Instr} {m : Mem} {f : State → Byte} {s t : State} (h : storeInstr i m f s = .next t) :
    s.busOk (s.effAddr m) = true ∧
      t = ((s.resolved m).afterWrite (s.effAddr m) (f s)).finishOk (cycles i (s.crosses m)) := by
  cases ho : s.busOk (s.effAddr m)
  · rw [storeInstr_of_not_ok i f ho] at h; cases h
  · rw [storeInstr_of_ok i f ho] at h; exact ⟨rfl, (Host.Outcome.next.inj h).symm⟩

/-- A read-modify-write instruction that answers a next state answers this one. -/
theorem modifyInstr_eq_next {i : Instr} {m : Mem} {f : Byte → State → Byte × State} {k : Byte → State → State}
    {s t : State} (hf : ∀ v t, (f v t).2.mapper = t.mapper) (h : modifyInstr i m f k s = .next t) :
    let r := f (s.readByte (s.effAddr m)) ((s.resolved m).afterRead (s.effAddr m))
    s.busOk (s.effAddr m) = true ∧
      t = (k r.1 (r.2.afterWrite (s.effAddr m) r.1)).finishOk (cycles i (s.crosses m)) := by
  cases ho : s.busOk (s.effAddr m)
  · rw [modifyInstr_of_not_ok i f k ho] at h; cases h
  · rw [modifyInstr_of_ok i f k hf ho] at h; exact ⟨rfl, (Host.Outcome.next.inj h).symm⟩

@[simp] theorem shiftModify_mapper (c : Bool → Byte → Byte × Bool) (v : Byte) (s : State) :
    (shiftModify c v s).2.mapper = s.mapper := rfl

@[simp] theorem stepModify_mapper (f : Byte → Byte) (v : Byte) (s : State) : (stepModify f v s).2.mapper = s.mapper := rfl

end Sys2Proof.Machine
end

