-- ==== Sys2Proof/Laws/PerInstr.lean ====
section
/-!
SUPPORT. The per-instruction family `EncodedLength`: the encoding of a well-formed instruction has exactly as many
bytes as its operand form implies (`30_encoding.md` R101, R102, R104). One lemma for each constructor of `Instr`.
-/

namespace Sys2Proof.Laws.EncodedLength

/-- The encoding of a well-formed instruction is as long as the instruction. -/
def Statement (i : Instr) : Prop := i.wellFormed = true → (encode i).length = i.length

theorem lda (o : Src) : Statement (.lda o) := by
  intro h
  cases o with
  | immediate v => rfl
  | mem m => cases m <;> first | rfl | cases h
theorem ldx (o : Src) : Statement (.ldx o) := by
  intro h
  cases o with
  | immediate v => rfl
  | mem m => cases m <;> first | rfl | cases h
theorem ldy (o : Src) : Statement (.ldy o) := by
  intro h
  cases o with
  | immediate v => rfl
  | mem m => cases m <;> first | rfl | cases h
theorem sta (m : Mem) : Statement (.sta m) := by
  intro h
  cases m <;> first | rfl | cases h
theorem stx (m : Mem) : Statement (.stx m) := by
  intro h
  cases m <;> first | rfl | cases h
theorem sty (m : Mem) : Statement (.sty m) := by
  intro h
  cases m <;> first | rfl | cases h
theorem tax : Statement .tax := fun _ => rfl
theorem tay : Statement .tay := fun _ => rfl
theorem txa : Statement .txa := fun _ => rfl
theorem tya : Statement .tya := fun _ => rfl
theorem tsx : Statement .tsx := fun _ => rfl
theorem txs : Statement .txs := fun _ => rfl
theorem adc (o : Src) : Statement (.adc o) := by
  intro h
  cases o with
  | immediate v => rfl
  | mem m => cases m <;> first | rfl | cases h
theorem sbc (o : Src) : Statement (.sbc o) := by
  intro h
  cases o with
  | immediate v => rfl
  | mem m => cases m <;> first | rfl | cases h
theorem and (o : Src) : Statement (.and o) := by
  intro h
  cases o with
  | immediate v => rfl
  | mem m => cases m <;> first | rfl | cases h
theorem ora (o : Src) : Statement (.ora o) := by
  intro h
  cases o with
  | immediate v => rfl
  | mem m => cases m <;> first | rfl | cases h
theorem eor (o : Src) : Statement (.eor o) := by
  intro h
  cases o with
  | immediate v => rfl
  | mem m => cases m <;> first | rfl | cases h
theorem cmp (o : Src) : Statement (.cmp o) := by
  intro h
  cases o with
  | immediate v => rfl
  | mem m => cases m <;> first | rfl | cases h
theorem cpx (o : Src) : Statement (.cpx o) := by
  intro h
  cases o with
  | immediate v => rfl
  | mem m => cases m <;> first | rfl | cases h
theorem cpy (o : Src) : Statement (.cpy o) := by
  intro h
  cases o with
  | immediate v => rfl
  | mem m => cases m <;> first | rfl | cases h
theorem bit (m : Mem) : Statement (.bit m) := by
  intro h
  cases m <;> first | rfl | cases h
theorem inc (m : Mem) : Statement (.inc m) := by
  intro h
  cases m <;> first | rfl | cases h
theorem dec (m : Mem) : Statement (.dec m) := by
  intro h
  cases m <;> first | rfl | cases h
theorem inx : Statement .inx := fun _ => rfl
theorem iny : Statement .iny := fun _ => rfl
theorem dex : Statement .dex := fun _ => rfl
theorem dey : Statement .dey := fun _ => rfl
theorem asl (o : Shiftee) : Statement (.asl o) := by
  intro h
  cases o with
  | accumulator => rfl
  | mem m => cases m <;> first | rfl | cases h
theorem lsr (o : Shiftee) : Statement (.lsr o) := by
  intro h
  cases o with
  | accumulator => rfl
  | mem m => cases m <;> first | rfl | cases h
theorem rol (o : Shiftee) : Statement (.rol o) := by
  intro h
  cases o with
  | accumulator => rfl
  | mem m => cases m <;> first | rfl | cases h
theorem ror (o : Shiftee) : Statement (.ror o) := by
  intro h
  cases o with
  | accumulator => rfl
  | mem m => cases m <;> first | rfl | cases h
theorem pha : Statement .pha := fun _ => rfl
theorem pla : Statement .pla := fun _ => rfl
theorem php : Statement .php := fun _ => rfl
theorem plp : Statement .plp := fun _ => rfl
theorem bcc (v : Byte) : Statement (.bcc v) := fun _ => rfl
theorem bcs (v : Byte) : Statement (.bcs v) := fun _ => rfl
theorem beq (v : Byte) : Statement (.beq v) := fun _ => rfl
theorem bne (v : Byte) : Statement (.bne v) := fun _ => rfl
theorem bmi (v : Byte) : Statement (.bmi v) := fun _ => rfl
theorem bpl (v : Byte) : Statement (.bpl v) := fun _ => rfl
theorem bvc (v : Byte) : Statement (.bvc v) := fun _ => rfl
theorem bvs (v : Byte) : Statement (.bvs v) := fun _ => rfl
theorem jmp (t : JumpTarget) : Statement (.jmp t) := by
  intro _; cases t <;> rfl
theorem jsr (w : Word) : Statement (.jsr w) := fun _ => rfl
theorem rts : Statement .rts := fun _ => rfl
theorem rti : Statement .rti := fun _ => rfl
theorem brk : Statement .brk := fun _ => rfl
theorem clc : Statement .clc := fun _ => rfl
theorem sec : Statement .sec := fun _ => rfl
theorem cli : Statement .cli := fun _ => rfl
theorem sei : Statement .sei := fun _ => rfl
theorem cld : Statement .cld := fun _ => rfl
theorem sed : Statement .sed := fun _ => rfl
theorem clv : Statement .clv := fun _ => rfl
theorem nop : Statement .nop := fun _ => rfl
theorem slo (m : Mem) : Statement (.slo m) := by
  intro h
  cases m <;> first | rfl | cases h
theorem rla (m : Mem) : Statement (.rla m) := by
  intro h
  cases m <;> first | rfl | cases h
theorem sre (m : Mem) : Statement (.sre m) := by
  intro h
  cases m <;> first | rfl | cases h
theorem rra (m : Mem) : Statement (.rra m) := by
  intro h
  cases m <;> first | rfl | cases h
theorem dcp (m : Mem) : Statement (.dcp m) := by
  intro h
  cases m <;> first | rfl | cases h
theorem isc (m : Mem) : Statement (.isc m) := by
  intro h
  cases m <;> first | rfl | cases h
theorem lax (m : Mem) : Statement (.lax m) := by
  intro h
  cases m <;> first | rfl | cases h
theorem sax (m : Mem) : Statement (.sax m) := by
  intro h
  cases m <;> first | rfl | cases h
theorem alr (v : Byte) : Statement (.alr v) := fun _ => rfl
theorem anc (b v : Byte) : Statement (.anc b v) := fun _ => rfl
theorem arr (v : Byte) : Statement (.arr v) := fun _ => rfl
theorem axs (v : Byte) : Statement (.axs v) := fun _ => rfl
theorem sbcDup (v : Byte) : Statement (.sbcDup v) := fun _ => rfl
theorem nopDup (b : Byte) (o : NopOperand) : Statement (.nopDup b o) := by
  intro _
  cases o with
  | mem m => cases m <;> rfl
  | _ => rfl
theorem shx (w : Word) : Statement (.shx w) := fun _ => rfl
theorem shy (w : Word) : Statement (.shy w) := fun _ => rfl
theorem stp (b : Byte) : Statement (.stp b) := fun _ => rfl
theorem invalid (b : Byte) : Statement (.invalid b) := fun _ => rfl

end Sys2Proof.Laws.EncodedLength
end

