-- ==== Sys2Proof/Laws/Step.lean ====
section
/-!
SUPPORT. What any instruction and any step can do: `Steady`, everything that holds of every instruction but STP, its
small lemmas for the operations the meanings are built from, and the fetch.
-/

namespace Sys2Proof.Machine

/-- What every instruction but STP does to the state: it evolves by bus operations, keeps Unused and Break as they
stand in the register, and keeps the run state. -/
structure Steady (s t : State) : Prop where
  evolves : Evolves s t
  status : s.statusOk = true → t.statusOk = true
  run : t.run = s.run

theorem Steady.refl (s : State) : Steady s s := ⟨Evolves.refl s, id, rfl⟩

theorem Steady.trans {s t u : State} (h : Steady s t) (k : Steady t u) : Steady s u :=
  ⟨h.evolves.trans k.evolves, k.status ∘ h.status, k.run.trans h.run⟩

theorem statusOk_iff (s : State) : s.statusOk = true ↔ Flag.u.read s.p = true ∧ Flag.b.read s.p = false := by
  simp [State.statusOk]

theorem statusOk_congr {s t : State} (hu : Flag.u.read t.p = Flag.u.read s.p) (hb : Flag.b.read t.p = Flag.b.read s.p)
    (h : s.statusOk = true) : t.statusOk = true := by
  rw [statusOk_iff] at h ⊢; rwa [hu, hb]

/-- An operation that leaves the status register alone. -/
theorem Evolves.steady {s t : State} (h : Evolves s t) (hp : t.p = s.p) (hr : t.run = s.run) : Steady s t :=
  ⟨h, statusOk_congr (by rw [hp]) (by rw [hp]), hr⟩

/-- An operation on registers, PC and outcome that keeps Unused and Break. -/
theorem Steady.of_registers {s t : State} (h1 : t.ram = s.ram) (h2 : t.prgRam = s.prgRam) (h3 : t.vram = s.vram)
    (h4 : t.palette = s.palette) (hc : KeepsConstants s t) (h5 : t.gfx = s.gfx) (h6 : t.events = s.events)
    (hr : t.run = s.run) (hu : Flag.u.read t.p = Flag.u.read s.p) (hb : Flag.b.read t.p = Flag.b.read s.p) :
    Steady s t := ⟨Evolves.of_registers h1 h2 h3 h4 hc h5 h6, statusOk_congr hu hb, hr⟩

theorem Steady.finishOk (s : State) (n : Nat) : Steady s (s.finishOk n) := (Evolves.finishOk s n).steady rfl rfl
theorem Steady.advance (s : State) (n : Nat) : Steady s (s.advance n) := (Evolves.advance s n).steady rfl rfl
theorem Steady.afterRead (s : State) (c : Word) : Steady s (s.afterRead c) := (Evolves.afterRead s c).steady rfl rfl
theorem Steady.afterWrite (s : State) (c : Word) (v : Byte) : Steady s (s.afterWrite c v) :=
  (Evolves.afterWrite s c v).steady rfl rfl
theorem Steady.push (s : State) (v : Byte) : Steady s (s.push v) := (Evolves.push s v).steady rfl rfl
theorem Steady.afterPull (s : State) : Steady s s.afterPull := (Evolves.afterPull s).steady rfl rfl
theorem Steady.resolved (s : State) (m : Mem) : Steady s (s.resolved m) :=
  (Evolves.resolved s m).steady (by simp) (by simp)
theorem Steady.afterOperand (s : State) (o : Src) : Steady s (s.afterOperand o) :=
  (Evolves.afterOperand s o).steady (by simp) (by simp)

/-- PC set, everything else as it is. -/
theorem Steady.jump (s : State) (pc : Word) : Steady s (s.jump pc) :=
  Steady.of_registers rfl rfl rfl rfl ⟨rfl, rfl, rfl, rfl, rfl⟩ rfl rfl rfl rfl rfl

theorem Steady.loadA (s : State) (v : Byte) : Steady s (s.loadA v) :=
  Steady.of_registers rfl rfl rfl rfl ⟨rfl, rfl, rfl, rfl, rfl⟩ rfl rfl rfl (by simp) (by simp)

theorem Steady.loadX (s : State) (v : Byte) : Steady s (s.loadX v) :=
  Steady.of_registers rfl rfl rfl rfl ⟨rfl, rfl, rfl, rfl, rfl⟩ rfl rfl rfl (by simp) (by simp)

theorem Steady.loadY (s : State) (v : Byte) : Steady s (s.loadY v) :=
  Steady.of_registers rfl rfl rfl rfl ⟨rfl, rfl, rfl, rfl, rfl⟩ rfl rfl rfl (by simp) (by simp)

theorem Steady.addCore (s : State) (m : Byte) : Steady s (s.addCore m) :=
  Steady.of_registers rfl rfl rfl rfl ⟨rfl, rfl, rfl, rfl, rfl⟩ rfl rfl rfl (by simp) (by simp)

theorem Steady.compareCore (s : State) (reg m : Byte) : Steady s (s.compareCore reg m) :=
  Steady.of_registers rfl rfl rfl rfl ⟨rfl, rfl, rfl, rfl, rfl⟩ rfl rfl rfl (by simp) (by simp)

theorem Steady.setFlag (s : State) {f : Flag} (b : Bool) (hu : f ≠ .u) (hb : f ≠ .b) : Steady s (s.setFlag f b) :=
  Steady.of_registers rfl rfl rfl rfl ⟨rfl, rfl, rfl, rfl, rfl⟩ rfl rfl rfl (by simp [hu.symm]) (by simp [hb.symm])

theorem Steady.shiftModify (c : Bool → Byte → Byte × Bool) (v : Byte) (s : State) : Steady s (shiftModify c v s).2 :=
  Steady.of_registers rfl rfl rfl rfl ⟨rfl, rfl, rfl, rfl, rfl⟩ rfl rfl rfl (by simp [Machine.shiftModify])
    (by simp [Machine.shiftModify])

theorem Steady.stepModify (f : Byte → Byte) (v : Byte) (s : State) : Steady s (stepModify f v s).2 :=
  Steady.of_registers rfl rfl rfl rfl ⟨rfl, rfl, rfl, rfl, rfl⟩ rfl rfl rfl (by simp [Machine.stepModify])
    (by simp [Machine.stepModify])

/-- A pulled status has Unused set and Break clear, whatever was pulled. -/
theorem Steady.pulled {s t : State} (h : Evolves s t) (hr : t.run = s.run) {v : Byte} (hp : t.p = pulledStatus v) :
    Steady s t := ⟨h, fun _ => by simp [statusOk_iff, hp], hr⟩

/-! ### The shapes of instruction -/

theorem readInstr_steady {i : Instr} {o : Src} {k : Byte → State → State} {s t : State}
    (hk : ∀ v u, Steady u (k v u)) (h : readInstr i o k s = .next t) : Steady s t := by
  rw [(readInstr_eq_next h).2]
  exact ((Steady.afterOperand s o).trans (hk _ _)).trans (Steady.finishOk _ _)

theorem storeInstr_steady {i : Instr} {m : Mem} {f : State → Byte} {s t : State} (h : storeInstr i m f s = .next t) :
    Steady s t := by
  rw [(storeInstr_eq_next h).2]
  exact ((Steady.resolved s m).trans (Steady.afterWrite _ _ _)).trans (Steady.finishOk _ _)

theorem modifyInstr_steady {i : Instr} {m : Mem} {f : Byte → State → Byte × State} {k : Byte → State → State}
    {s t : State} (hf : ∀ v u, Steady u (f v u).2) (hk : ∀ v u, Steady u (k v u)) (h : modifyInstr i m f k s = .next t) :
    Steady s t := by
  rw [(modifyInstr_eq_next (fun v u => (hf v u).evolves.constants.1) h).2]
  exact ((((Steady.resolved s m).trans (Steady.afterRead _ _)).trans (hf _ _)).trans
    (Steady.afterWrite _ _ _)).trans ((hk _ _).trans (Steady.finishOk _ _))

theorem impliedInstr_steady {i : Instr} {k : State → State} {s t : State} (hk : ∀ u, Steady u (k u))
    (h : impliedInstr i k s = .next t) : Steady s t := by
  rw [← Host.Outcome.next.inj h]
  exact ((Steady.advance s 1).trans (hk _)).trans (Steady.finishOk _ _)

theorem shiftInstr_steady {i : Instr} {o : Shiftee} {c : Bool → Byte → Byte × Bool} {s t : State}
    (h : shiftInstr i o c s = .next t) : Steady s t := by
  cases o with
  | accumulator =>
    simp only [shiftInstr] at h
    refine impliedInstr_steady (fun u => ?_) h
    exact (Steady.shiftModify c u.a u).trans
      (Steady.of_registers rfl rfl rfl rfl ⟨rfl, rfl, rfl, rfl, rfl⟩ rfl rfl rfl rfl rfl)
  | mem m =>
    simp only [shiftInstr] at h
    exact modifyInstr_steady (Steady.shiftModify c) (fun _ u => Steady.refl u) h

theorem branchInstr_steady {i : Instr} {f : Flag} {b : Bool} {d : Byte} {s t : State}
    (h : branchInstr i f b d s = .next t) : Steady s t := by
  rw [← Host.Outcome.next.inj h]
  exact ((Steady.advance s 2).trans (Steady.jump _ _)).trans (Steady.finishOk _ _)

/-! ### Bus reads and writes of more than one byte -/

theorem toResult_eq_next {e : Except Fault State} {t : State} : toResult e = .next t ↔ e = .ok t := by
  cases e <;> simp [toResult]

theorem Steady.saveForBreak (s : State) : Steady s s.saveForBreak :=
  (((Steady.push s _).trans (Steady.push _ _)).trans (Steady.push _ _)).trans
    (Steady.setFlag _ true (by decide) (by decide))

/-- BRK's entry answers exactly where the vector's two reads do. -/
theorem takeBreak_eq_ok {s t : State} (h : takeBreak s = .ok t) :
    s.busOk brkVector = true ∧
    t = ((s.saveForBreak.afterRead brkVector).afterRead (brkVector + 1)).jump
      (word ((s.saveForBreak.afterRead brkVector).readByte (brkVector + 1)) (s.saveForBreak.readByte brkVector)) := by
  unfold takeBreak at h
  cases hw : memReadWord brkVector (brkVector + 1) s.saveForBreak with
  | error f => rw [hw] at h; cases h
  | ok r =>
    obtain ⟨w, u⟩ := r
    rw [hw] at h
    obtain ⟨h1, -, rfl, rfl⟩ := memReadWord_eq_ok.1 hw
    rw [busOk_congr (s := s) (t := s.saveForBreak) (by simp)] at h1
    simp only [bind, Except.bind, pure, Except.pure, Except.ok.injEq] at h
    exact ⟨h1, h.symm⟩

theorem takeBreak_steady {s t : State} (h : takeBreak s = .ok t) : Steady s t := by
  rw [(takeBreak_eq_ok h).2]
  exact (((Steady.saveForBreak s).trans (Steady.afterRead _ _)).trans (Steady.afterRead _ _)).trans (Steady.jump _ _)

theorem returnFromInterrupt_steady (s : State) : Steady s s.returnFromInterrupt := by
  have h1 : Steady s { s.afterPull with p := pulledStatus s.pullByte } :=
    Steady.pulled ((Evolves.afterPull s).trans
      (Evolves.of_registers rfl rfl rfl rfl ⟨rfl, rfl, rfl, rfl, rfl⟩ rfl rfl)) rfl rfl
  exact ((h1.trans (Steady.afterPull _)).trans (Steady.afterPull _)).trans (Steady.jump _ _)

/-! ### Any instruction -/

/-- Every instruction but STP. -/
theorem exec_steady {i : Instr} {s t : State} (hi : ∀ b, i ≠ .stp b) (h : exec i s = .next t) : Steady s t := by
  cases i with
  | lda o => exact readInstr_steady (fun v u => Steady.loadA u v) h
  | ldx o => exact readInstr_steady (fun v u => Steady.loadX u v) h
  | ldy o => exact readInstr_steady (fun v u => Steady.loadY u v) h
  | sta m => exact storeInstr_steady h
  | stx m => exact storeInstr_steady h
  | sty m => exact storeInstr_steady h
  | tax => exact impliedInstr_steady (fun u => Steady.loadX u _) h
  | tay => exact impliedInstr_steady (fun u => Steady.loadY u _) h
  | txa => exact impliedInstr_steady (fun u => Steady.loadA u _) h
  | tya => exact impliedInstr_steady (fun u => Steady.loadA u _) h
  | tsx => exact impliedInstr_steady (fun u => Steady.loadX u _) h
  | txs =>
    simp only [exec, execTxs] at h
    refine impliedInstr_steady (fun u => ?_) h
    exact Steady.of_registers rfl rfl rfl rfl ⟨rfl, rfl, rfl, rfl, rfl⟩ rfl rfl rfl rfl rfl
  | adc o => exact readInstr_steady (fun v u => Steady.addCore u v) h
  | sbc o => exact readInstr_steady (fun v u => Steady.addCore u _) h
  | and o => exact readInstr_steady (fun v u => Steady.loadA u _) h
  | ora o => exact readInstr_steady (fun v u => Steady.loadA u _) h
  | eor o => exact readInstr_steady (fun v u => Steady.loadA u _) h
  | cmp o => exact readInstr_steady (fun v u => Steady.compareCore u _ v) h
  | cpx o => exact readInstr_steady (fun v u => Steady.compareCore u _ v) h
  | cpy o => exact readInstr_steady (fun v u => Steady.compareCore u _ v) h
  | bit m =>
    simp only [exec, execBit] at h
    refine readInstr_steady (fun v u => ?_) h
    exact Steady.of_registers rfl rfl rfl rfl ⟨rfl, rfl, rfl, rfl, rfl⟩ rfl rfl rfl (by simp) (by simp)
  | inc m =>
    simp only [exec, execInc] at h
    exact modifyInstr_steady (Steady.stepModify _) (fun _ u => Steady.refl u) h
  | dec m =>
    simp only [exec, execDec] at h
    exact modifyInstr_steady (Steady.stepModify _) (fun _ u => Steady.refl u) h
  | inx => exact impliedInstr_steady (fun u => Steady.loadX u _) h
  | iny => exact impliedInstr_steady (fun u => Steady.loadY u _) h
  | dex => exact impliedInstr_steady (fun u => Steady.loadX u _) h
  | dey => exact impliedInstr_steady (fun u => Steady.loadY u _) h
  | asl o => exact shiftInstr_steady h
  | lsr o => exact shiftInstr_steady h
  | rol o => exact shiftInstr_steady h
  | ror o => exact shiftInstr_steady h
  | pha => exact impliedInstr_steady (fun u => Steady.push u _) h
  | pla => exact impliedInstr_steady (fun u => (Steady.afterPull u).trans (Steady.loadA _ _)) h
  | php => exact impliedInstr_steady (fun u => Steady.push u _) h
  | plp =>
    simp only [exec, execPlp] at h
    refine impliedInstr_steady (fun u => ?_) h
    exact Steady.pulled ((Evolves.afterPull u).trans
      (Evolves.of_registers rfl rfl rfl rfl ⟨rfl, rfl, rfl, rfl, rfl⟩ rfl rfl)) rfl rfl
  | bcc d => exact branchInstr_steady h
  | bcs d => exact branchInstr_steady h
  | beq d => exact branchInstr_steady h
  | bne d => exact branchInstr_steady h
  | bmi d => exact branchInstr_steady h
  | bpl d => exact branchInstr_steady h
  | bvc d => exact branchInstr_steady h
  | bvs d => exact branchInstr_steady h
  | jmp j =>
    cases j with
    | absolute w =>
      rw [← Host.Outcome.next.inj h]
      exact (Steady.jump s w).trans (Steady.finishOk _ _)
    | indirect ptr =>
      have h := toResult_eq_next.1 h
      cases hw : memReadWord ptr (pointerHigh ptr) s with
      | error f => rw [hw] at h; cases h
      | ok r =>
        obtain ⟨w, u⟩ := r
        rw [hw] at h
        obtain ⟨-, -, rfl, rfl⟩ := memReadWord_eq_ok.1 hw
        simp only [bind, Except.bind, pure, Except.pure, Except.ok.injEq] at h
        rw [← h]
        exact (((Steady.afterRead _ _).trans (Steady.afterRead _ _)).trans (Steady.jump _ _)).trans (Steady.finishOk _ _)
  | jsr w =>
    rw [← Host.Outcome.next.inj h]
    exact ((((Steady.advance s 3).trans (Steady.push _ _)).trans (Steady.push _ _)).trans (Steady.jump _ _)).trans
      (Steady.finishOk _ _)
  | rts =>
    rw [← Host.Outcome.next.inj h]
    exact (((Steady.afterPull s).trans (Steady.afterPull _)).trans (Steady.jump _ _)).trans (Steady.finishOk _ _)
  | rti =>
    rw [← Host.Outcome.next.inj h]
    exact (returnFromInterrupt_steady s).trans (Steady.finishOk _ _)
  | brk =>
    have h := toResult_eq_next.1 h
    cases hb : takeBreak (s.advance 1) with
    | error f => rw [hb] at h; cases h
    | ok u =>
      rw [hb] at h
      simp only [bind, Except.bind, pure, Except.pure, Except.ok.injEq] at h
      rw [← h]
      exact ((Steady.advance s 1).trans (takeBreak_steady hb)).trans (Steady.finishOk _ _)
  | clc => exact impliedInstr_steady (fun u => Steady.setFlag u _ (by decide) (by decide)) h
  | sec => exact impliedInstr_steady (fun u => Steady.setFlag u _ (by decide) (by decide)) h
  | cli => exact impliedInstr_steady (fun u => Steady.setFlag u _ (by decide) (by decide)) h
  | sei => exact impliedInstr_steady (fun u => Steady.setFlag u _ (by decide) (by decide)) h
  | cld => exact impliedInstr_steady (fun u => Steady.setFlag u _ (by decide) (by decide)) h
  | sed => exact impliedInstr_steady (fun u => Steady.setFlag u _ (by decide) (by decide)) h
  | clv => exact impliedInstr_steady (fun u => Steady.setFlag u _ (by decide) (by decide)) h
  | nop => exact impliedInstr_steady (fun u => Steady.refl u) h
  | slo m =>
    simp only [exec, execSlo] at h
    exact modifyInstr_steady (Steady.shiftModify _) (fun _ u => Steady.loadA u _) h
  | rla m =>
    simp only [exec, execRla] at h
    exact modifyInstr_steady (Steady.shiftModify _) (fun _ u => Steady.loadA u _) h
  | sre m =>
    simp only [exec, execSre] at h
    exact modifyInstr_steady (Steady.shiftModify _) (fun _ u => Steady.loadA u _) h
  | rra m =>
    simp only [exec, execRra] at h
    exact modifyInstr_steady (Steady.shiftModify _) (fun v u => Steady.addCore u _) h
  | dcp m =>
    simp only [exec, execDcp] at h
    exact modifyInstr_steady (Steady.stepModify _) (fun v u => Steady.compareCore u _ _) h
  | isc m =>
    simp only [exec, execIsc] at h
    exact modifyInstr_steady (Steady.stepModify _) (fun v u => Steady.addCore u _) h
  | lax m =>
    simp only [exec, execLax] at h
    refine readInstr_steady (fun v u => ?_) h
    exact Steady.of_registers rfl rfl rfl rfl ⟨rfl, rfl, rfl, rfl, rfl⟩ rfl rfl rfl (by simp) (by simp)
  | sax m =>
    simp only [exec, execSax] at h
    exact storeInstr_steady h
  | alr v =>
    simp only [exec, execAlr] at h
    refine readInstr_steady (fun v u => ?_) h
    exact Steady.of_registers rfl rfl rfl rfl ⟨rfl, rfl, rfl, rfl, rfl⟩ rfl rfl rfl (by simp) (by simp)
  | anc b v =>
    simp only [exec, execAnc] at h
    refine readInstr_steady (fun v u => ?_) h
    exact Steady.of_registers rfl rfl rfl rfl ⟨rfl, rfl, rfl, rfl, rfl⟩ rfl rfl rfl (by simp) (by simp)
  | arr v =>
    simp only [exec, execArr] at h
    refine readInstr_steady (fun v u => ?_) h
    exact Steady.of_registers rfl rfl rfl rfl ⟨rfl, rfl, rfl, rfl, rfl⟩ rfl rfl rfl (by simp) (by simp)
  | axs v =>
    simp only [exec, execAxs] at h
    refine readInstr_steady (fun v u => ?_) h
    exact Steady.of_registers rfl rfl rfl rfl ⟨rfl, rfl, rfl, rfl, rfl⟩ rfl rfl rfl (by simp) (by simp)
  | sbcDup v =>
    simp only [exec, execSbcDup] at h
    exact readInstr_steady (fun v u => Steady.addCore u _) h
  | nopDup b o =>
    cases o with
    | implied => exact impliedInstr_steady (fun u => Steady.refl u) h
    | immediate v =>
      rw [← Host.Outcome.next.inj h]
      exact (Steady.advance s 2).trans (Steady.finishOk _ _)
    | mem m =>
      rw [← Host.Outcome.next.inj h]
      exact (Steady.resolved s m).trans (Steady.finishOk _ _)
  | shx w =>
    have h := toResult_eq_next.1 h
    simp only [memWrite] at h
    split_ifs at h with h1
    · simp only [bind, Except.bind, pure, Except.pure, Except.ok.injEq] at h
      rw [← h]
      exact ((Steady.advance s 3).trans (Steady.afterWrite _ _ _)).trans (Steady.finishOk _ _)
    · cases h
  | shy w =>
    have h := toResult_eq_next.1 h
    simp only [memWrite] at h
    split_ifs at h with h1
    · simp only [bind, Except.bind, pure, Except.pure, Except.ok.injEq] at h
      rw [← h]
      exact ((Steady.advance s 3).trans (Steady.afterWrite _ _ _)).trans (Steady.finishOk _ _)
    · cases h
  | stp b => exact absurd rfl (hi b)
  | invalid b =>
    rw [← Host.Outcome.next.inj h]
    exact Steady.of_registers rfl rfl rfl rfl ⟨rfl, rfl, rfl, rfl, rfl⟩ rfl rfl rfl rfl rfl

/-! ### Fetch and step -/

theorem Steady.afterFetch (s : State) (k : Nat) : Steady s.beginStep (s.afterFetch k) := by
  induction k with
  | zero => exact Steady.refl _
  | succ k ih => exact ih.trans (Steady.afterRead _ _)

@[simp] theorem afterFetch_busOk (s : State) (k : Nat) (b : Word) : (s.afterFetch k).busOk b = s.busOk b :=
  (busOk_congr (Steady.afterFetch s k).evolves.constants.1 b).trans (busOk_congr rfl b)

/-- The read of the next byte of the instruction. -/
theorem memRead_fetch (s : State) (k : Nat) : memRead (s.pc + BitVec.ofNat 16 k) (s.afterFetch k) =
    if s.busOk (s.pc + BitVec.ofNat 16 k) = true then .ok (s.fetchedByte k, s.afterFetch (k + 1))
    else .error .noMapperInvoked := by
  simp [memRead, State.fetchedByte, State.afterFetch]

/-- The fetch of a step, byte by byte. -/
theorem fetch_beginStep (s : State) : fetch s.beginStep =
    if s.busOk s.pc = true then
      match (descriptor (s.fetchedByte 0)).length with
      | 1 => .ok (instrOf (s.fetchedByte 0) 0 0, s.afterFetch 1)
      | 2 =>
        if s.busOk (s.pc + 1) = true then .ok (instrOf (s.fetchedByte 0) (s.fetchedByte 1) 0, s.afterFetch 2)
        else .error .noMapperInvoked
      | _ =>
        if s.busOk (s.pc + 1) = true then
          if s.busOk (s.pc + 2) = true then
            .ok (instrOf (s.fetchedByte 0) (s.fetchedByte 1) (s.fetchedByte 2), s.afterFetch 3)
          else .error .noMapperInvoked
        else .error .noMapperInvoked
    else .error .noMapperInvoked := by
  have m0 : memRead s.pc s.beginStep = if s.busOk s.pc = true then .ok (s.fetchedByte 0, s.afterFetch 1)
      else .error .noMapperInvoked := by
    simpa [State.afterFetch] using memRead_fetch s 0
  have m1 := memRead_fetch s 1
  have m2 := memRead_fetch s 2
  rw [show s.pc + BitVec.ofNat 16 1 = s.pc + 1 from rfl] at m1
  rw [show s.pc + BitVec.ofNat 16 2 = s.pc + 2 from rfl] at m2
  unfold fetch
  rw [State.beginStep_pc, m0]
  rcases descriptor_length_cases (s.fetchedByte 0) with hd | hd | hd <;> cases h0 : s.busOk s.pc <;>
    cases h1 : s.busOk (s.pc + 1) <;> cases h2 : s.busOk (s.pc + 2) <;>
    simp_all [bind, Except.bind, pure, Except.pure]

/-- What the fetch of a step answers: the instruction of the bytes it read, and the state after as many reads as the
instruction is long. -/
theorem fetch_eq_ok {s t : State} {i : Instr} : fetch s.beginStep = .ok (i, t) ↔
    (∀ k < i.length, s.busOk (s.pc + BitVec.ofNat 16 k) = true) ∧ t = s.afterFetch i.length ∧
    i = instrOf (s.fetchedByte 0) (if 2 ≤ i.length then s.fetchedByte 1 else 0)
      (if i.length = 3 then s.fetchedByte 2 else 0) := by
  have e0 : s.pc + BitVec.ofNat 16 0 = s.pc := by simp
  have hl := fun a b => instrOf_length (s.fetchedByte 0) a b
  rw [fetch_beginStep]
  constructor
  · intro h
    split at h
    · rename_i h0
      rw [← e0] at h0
      split at h
      · rename_i hd
        obtain ⟨rfl, rfl⟩ := Prod.mk.inj (Except.ok.inj h)
        have hi := (hl 0 0).trans hd
        rw [hi]
        refine ⟨fun k hk => ?_, rfl, rfl⟩
        obtain rfl : k = 0 := by omega
        exact h0
      · rename_i hd
        split at h
        · rename_i h1
          obtain ⟨rfl, rfl⟩ := Prod.mk.inj (Except.ok.inj h)
          have hi := (hl (s.fetchedByte 1) 0).trans hd
          rw [hi]
          refine ⟨fun k hk => ?_, rfl, rfl⟩
          obtain rfl | rfl : k = 0 ∨ k = 1 := by omega
          · exact h0
          · exact h1
        · cases h
      · rename_i hd1 hd2
        have hd : (descriptor (s.fetchedByte 0)).length = 3 := by
          rcases descriptor_length_cases (s.fetchedByte 0) with hd | hd | hd
          · exact absurd hd hd1
          · exact absurd hd hd2
          · exact hd
        split at h
        · rename_i h1
          split at h
          · rename_i h2
            obtain ⟨rfl, rfl⟩ := Prod.mk.inj (Except.ok.inj h)
            have hi := (hl (s.fetchedByte 1) (s.fetchedByte 2)).trans hd
            rw [hi]
            refine ⟨fun k hk => ?_, rfl, rfl⟩
            obtain rfl | rfl | rfl : k = 0 ∨ k = 1 ∨ k = 2 := by omega
            · exact h0
            · exact h1
            · exact h2
          · cases h
        · cases h
    · cases h
  · rintro ⟨hb, ht, hi⟩
    have hlen : i.length = (descriptor (s.fetchedByte 0)).length := by
      have := congrArg Instr.length hi
      rwa [hl] at this
    have h0 := hb 0 (by rcases descriptor_length_cases (s.fetchedByte 0) with hd | hd | hd <;> omega)
    rw [e0] at h0
    rw [if_pos h0]
    rcases descriptor_length_cases (s.fetchedByte 0) with hd | hd | hd
    · rw [hlen, hd] at hi ht
      rw [hd, ht, hi]; rfl
    · have h1 : s.busOk (s.pc + 1) = true := hb 1 (by omega)
      rw [hlen, hd] at hi ht
      rw [hd, ht, hi]
      exact if_pos h1
    · have h1 : s.busOk (s.pc + 1) = true := hb 1 (by omega)
      have h2 : s.busOk (s.pc + 2) = true := hb 2 (by omega)
      rw [hlen, hd] at hi ht
      rw [hd, ht, hi]
      exact (if_pos h1).trans (if_pos h2)

/-- What a step that answers a next state did: nothing if the machine is stopped; else it ran the instruction fetched. -/
theorem step_eq_next {s t : State} (h : step s = .next t) :
    (s.run = .stopped ∧ t = s.beginStep.raiseHalt) ∨
    (s.run = .running ∧ ∃ i, fetch s.beginStep = .ok (i, s.afterFetch i.length) ∧ exec i (s.afterFetch i.length) = .next t) := by
  cases hr : s.run with
  | stopped => simp only [step, hr] at h; exact .inl ⟨rfl, (Host.Outcome.next.inj h).symm⟩
  | running =>
    simp only [step, hr] at h
    cases hf : fetch s.beginStep with
    | error f => rw [hf] at h; cases h
    | ok r =>
      obtain ⟨i, u⟩ := r
      rw [hf] at h
      obtain ⟨-, rfl, -⟩ := fetch_eq_ok.1 hf
      exact .inr ⟨rfl, i, rfl, h⟩

end Sys2Proof.Machine
end

