-- ==== Sys2Proof/Tests/Slice0.lean ====
section
/-!
SUPPORT. Tests of the model: ill-formed terms that `wellFormed` refuses, words written out from the spec's encodings,
one step of each instruction with the end state of a vector of `95_test_vectors.md` (its number stands above the
test), and for each statement with hypotheses a witness that meets them.
-/

namespace Sys2Proof.Tests

open Sys2Proof.Machine

/-! ### Ill-formed terms: each check of `Instr.wellFormed` refuses one -/

theorem test_ill_formed_forms :
    ([.lda (.mem (.zeroPageY 0x10)), .adc (.mem (.zeroPageY 0)), .sbc (.mem (.zeroPageY 0)), .and (.mem (.zeroPageY 0)),
      .ora (.mem (.zeroPageY 0)), .eor (.mem (.zeroPageY 0)), .cmp (.mem (.zeroPageY 0)),
      .ldx (.mem (.zeroPageX 0)), .ldy (.mem (.zeroPageY 0)), .cpx (.mem (.absoluteX 0)), .cpy (.mem (.indirectX 0)),
      .sta (.zeroPageY 0), .slo (.zeroPageY 0), .rla (.zeroPageY 0), .sre (.zeroPageY 0), .rra (.zeroPageY 0),
      .dcp (.zeroPageY 0), .isc (.zeroPageY 0), .stx (.zeroPageX 0), .sty (.zeroPageY 0), .bit (.zeroPageX 0),
      .inc (.absoluteY 0), .dec (.indirectY 0), .asl (.mem (.absoluteY 0)), .lsr (.mem (.zeroPageY 0)),
      .rol (.mem (.indirectX 0)), .ror (.mem (.indirectY 0)), .lax (.zeroPageX 0), .sax (.absoluteX 0)] :
      List Instr).all (!·.wellFormed) = true := by decide

theorem test_ill_formed_opcodes :
    ([.anc 0x4B 0x00, .nopDup 0xEA .implied, .nopDup 0x1A (.immediate 0), .nopDup 0x04 (.mem (.zeroPageX 0)),
      .stp 0xB3, .invalid 0xEA] : List Instr).all (!·.wellFormed) = true := by decide

/-! ### Decoding: bytes written out from the "Encoding" lists of the family rules -/

/-- The bytes decode to the instruction, and nothing is left over. -/
def decodesTo (c : List Byte × Instr) : Bool :=
  match decode c.1 with
  | .ok (i, []) => i == c.2
  | .ok (_, _ :: _) | .error _ => false

/-- R150 to R161. -/
theorem test_decode_loads_stores_transfers :
    ([([0xA9, 0x80], .lda (.immediate 0x80)), ([0xA1, 0x20], .lda (.mem (.indirectX 0x20))),
      ([0xB1, 0x20], .lda (.mem (.indirectY 0x20))), ([0xBE, 0xFF, 0xFE], .ldx (.mem (.absoluteY 0xFEFF))),
      ([0xB4, 0x01], .ldy (.mem (.zeroPageX 0x01))), ([0x9D, 0xF0, 0x02], .sta (.absoluteX 0x02F0)),
      ([0x96, 0x10], .stx (.zeroPageY 0x10)), ([0x8C, 0x34, 0x12], .sty (.absolute 0x1234)),
      ([0xAA], .tax), ([0xA8], .tay), ([0x8A], .txa), ([0x98], .tya), ([0xBA], .tsx), ([0x9A], .txs)] :
      List (List Byte × Instr)).all decodesTo = true := by decide

/-- R172 to R186. -/
theorem test_decode_arithmetic :
    ([([0x79, 0x00, 0x03], .adc (.mem (.absoluteY 0x0300))), ([0xF1, 0x20], .sbc (.mem (.indirectY 0x20))),
      ([0x29, 0x0F], .and (.immediate 0x0F)), ([0x15, 0x10], .ora (.mem (.zeroPageX 0x10))),
      ([0x4D, 0x01, 0x02], .eor (.mem (.absolute 0x0201))), ([0xDD, 0x01, 0x02], .cmp (.mem (.absoluteX 0x0201))),
      ([0xE4, 0x10], .cpx (.mem (.zeroPage 0x10))), ([0xCC, 0x01, 0x02], .cpy (.mem (.absolute 0x0201))),
      ([0x2C, 0x00, 0x03], .bit (.absolute 0x0300)), ([0xF6, 0x10], .inc (.zeroPageX 0x10)),
      ([0xDE, 0x00, 0x03], .dec (.absoluteX 0x0300)), ([0xE8], .inx), ([0xC8], .iny), ([0xCA], .dex), ([0x88], .dey)] :
      List (List Byte × Instr)).all decodesTo = true := by decide

/-- R201 to R204, R211 to R214. -/
theorem test_decode_shifts_and_stack :
    ([([0x0A], .asl .accumulator), ([0x5E, 0x00, 0x03], .lsr (.mem (.absoluteX 0x0300))),
      ([0x36, 0x10], .rol (.mem (.zeroPageX 0x10))), ([0x66, 0x10], .ror (.mem (.zeroPage 0x10))),
      ([0x48], .pha), ([0x68], .pla), ([0x08], .php), ([0x28], .plp)] :
      List (List Byte × Instr)).all decodesTo = true := by decide

/-- R221 to R233, R240 to R247. -/
theorem test_decode_control_and_flags :
    ([([0x90, 0x7F], .bcc 0x7F), ([0xB0, 0x80], .bcs 0x80), ([0xF0, 0xFB], .beq 0xFB), ([0xD0, 0x05], .bne 0x05),
      ([0x30, 0x02], .bmi 0x02), ([0x10, 0x02], .bpl 0x02), ([0x50, 0x02], .bvc 0x02), ([0x70, 0x02], .bvs 0x02),
      ([0x4C, 0xF5, 0xC5], .jmp (.absolute 0xC5F5)), ([0x6C, 0xFF, 0x02], .jmp (.indirect 0x02FF)),
      ([0x20, 0x00, 0x90], .jsr 0x9000), ([0x60], .rts), ([0x40], .rti), ([0x00], .brk),
      ([0x18], .clc), ([0x38], .sec), ([0x58], .cli), ([0x78], .sei), ([0xD8], .cld), ([0xF8], .sed), ([0xB8], .clv),
      ([0xEA], .nop)] :
      List (List Byte × Instr)).all decodesTo = true := by decide

/-- R251 to R267, R108. -/
theorem test_decode_unofficial :
    ([([0x1B, 0x00, 0x03], .slo (.absoluteY 0x0300)), ([0x37, 0x10], .rla (.zeroPageX 0x10)),
      ([0x53, 0x20], .sre (.indirectY 0x20)), ([0x63, 0x20], .rra (.indirectX 0x20)),
      ([0xCF, 0x00, 0x03], .dcp (.absolute 0x0300)), ([0xFF, 0x00, 0x03], .isc (.absoluteX 0x0300)),
      ([0xB7, 0x10], .lax (.zeroPageY 0x10)), ([0x83, 0x20], .sax (.indirectX 0x20)),
      ([0x4B, 0xFF], .alr 0xFF), ([0x2B, 0x7F], .anc 0x2B 0x7F), ([0x6B, 0xFF], .arr 0xFF), ([0xCB, 0x01], .axs 0x01),
      ([0xEB, 0x01], .sbcDup 0x01), ([0x3C, 0xFF, 0x02], .nopDup 0x3C (.mem (.absoluteX 0x02FF))),
      ([0x80, 0xFF], .nopDup 0x80 (.immediate 0xFF)), ([0x7A], .nopDup 0x7A .implied),
      ([0x9E, 0xF0, 0x02], .shx 0x02F0), ([0x9C, 0xF0, 0x02], .shy 0x02F0), ([0xB2], .stp 0xB2),
      ([0x9B], .invalid 0x9B)] : List (List Byte × Instr)).all decodesTo = true := by decide

/-- The host's numbering: the first byte is the low byte of the word; the bits above `nbits` are zero. -/
theorem test_decode_table_word :
    decodeTableWord 24 0x0002BD = some (.lda (.mem (.absoluteX 0x0002))) ∧
    decodeTableWord 8 0xFF20 = some (.jsr 0x0000) := by decide

/-! ### One step -/

/-- The reset machine with the bytes of an instruction at `pc`, and bytes of memory, as a loader places them. -/
def placed (pc : Word) (bytes : List Byte) (memory : List (Word × Byte)) : State :=
  let code := bytes.zipIdx.map fun c => (pc + BitVec.ofNat 16 c.2, c.1)
  { (code ++ memory).foldl (fun s c => s.loadByte c.1 c.2) State.reset with pc := pc }

/-- The registers a vector gives. -/
structure Registers where
  a : Byte
  x : Byte
  y : Byte
  sp : Byte
  p : Byte
  pc : Word
deriving DecidableEq, Repr

/-- One step of `s` answers a next state that passes the check. -/
def stepped (s : State) (check : State → Bool) : Bool :=
  match step s with
  | .next t => check t
  | .fault _ | .refused _ => false

theorem stepped_spec {s : State} {check : State → Bool} (h : stepped s check = true) :
    ∃ t, step s = .next t ∧ check t = true := by
  unfold stepped at h
  split at h
  · exact ⟨_, ‹_›, h⟩
  all_goals cases h

/-- One step of `s` ends with these registers, these bytes of memory and this outcome. -/
def ends (s : State) (registers : Registers) (memory : List (Word × Byte)) (outcome : StepOutcome) : Bool :=
  stepped s fun t =>
    (⟨t.a, t.x, t.y, t.sp, t.p, t.pc⟩ : Registers) == registers && t.outcome == some outcome
      && memory.all fun c => t.readByte c.1 == c.2

/-! ### Loads, stores and transfers -/

/-- V4. -/
theorem test_lda_index_wraps_in_page_zero : ends { placed 0x8000 [0xB5, 0x10] [(0x0008, 0x33), (0x0108, 0x99)] with x := 0xF8 }
    ⟨0x33, 0xF8, 0x00, 0xFD, 0x24, 0x8002⟩ [] (.ok 4) = true := by decide

/-- V17. -/
theorem test_lda_pointer_wraps_in_page_zero : ends (placed 0x8000 [0xB1, 0xFF] [(0x0000, 0x05), (0x00FF, 0x10), (0x0100, 0x06), (0x0510, 0xC3), (0x0610, 0xEE)])
    ⟨0xC3, 0x00, 0x00, 0xFD, 0xA4, 0x8002⟩ [] (.ok 5) = true := by decide

/-- V11. -/
theorem test_ldx_address_wraps : ends { placed 0x8000 [0xBE, 0xFF, 0xFF] [(0x0001, 0x66)] with y := 0x02 }
    ⟨0x00, 0x66, 0x02, 0xFD, 0x24, 0x8003⟩ [] (.ok 5) = true := by decide

/-- V10. -/
theorem test_ldy_page_cross : ends { placed 0x8000 [0xBC, 0xFF, 0x02] [(0x0300, 0xF0)] with x := 0x01 }
    ⟨0x00, 0x01, 0xF0, 0xFD, 0xA4, 0x8003⟩ [] (.ok 5) = true := by decide

/-- V27. -/
theorem test_sta_through_ram_mirror : ends { placed 0x8000 [0x8D, 0x00, 0x1A] [] with a := 0x43 }
    ⟨0x43, 0x00, 0x00, 0xFD, 0x24, 0x8003⟩ [(0x0200, 0x43)] (.ok 4) = true := by decide

/-- V28. -/
theorem test_sta_rom_write_dropped : ends { placed 0x8000 [0x8D, 0x00, 0x80] [] with a := 0x44 }
    ⟨0x44, 0x00, 0x00, 0xFD, 0x24, 0x8003⟩ [(0x8000, 0x8D)] (.ok 4) = true := by decide

/-- V36. -/
theorem test_stx_zero_page_y : ends { placed 0x8000 [0x96, 0x10] [] with x := 0x21, y := 0xFF }
    ⟨0x00, 0x21, 0xFF, 0xFD, 0x24, 0x8002⟩ [(0x000F, 0x21)] (.ok 4) = true := by decide

/-- V37. -/
theorem test_sty_zero_page_x : ends { placed 0x8000 [0x94, 0x10] [] with x := 0x01, y := 0x22 }
    ⟨0x00, 0x01, 0x22, 0xFD, 0x24, 0x8002⟩ [(0x0011, 0x22)] (.ok 4) = true := by decide

/-- V39. -/
theorem test_tax : ends { placed 0x8000 [0xAA] [] with a := 0x80 }
    ⟨0x80, 0x80, 0x00, 0xFD, 0xA4, 0x8001⟩ [] (.ok 2) = true := by decide

/-- V40. -/
theorem test_tay : ends { placed 0x8000 [0xA8] [] with y := 0x55 }
    ⟨0x00, 0x00, 0x00, 0xFD, 0x26, 0x8001⟩ [] (.ok 2) = true := by decide

/-- V41. -/
theorem test_txa : ends { placed 0x8000 [0x8A] [] with a := 0x80, x := 0x7F, p := 0xA4 }
    ⟨0x7F, 0x7F, 0x00, 0xFD, 0x24, 0x8001⟩ [] (.ok 2) = true := by decide

/-- V42. -/
theorem test_tya : ends { placed 0x8000 [0x98] [] with y := 0xFF }
    ⟨0xFF, 0x00, 0xFF, 0xFD, 0xA4, 0x8001⟩ [] (.ok 2) = true := by decide

/-- V43. -/
theorem test_tsx : ends (placed 0x8000 [0xBA] [])
    ⟨0x00, 0xFD, 0x00, 0xFD, 0xA4, 0x8001⟩ [] (.ok 2) = true := by decide

/-- V44. -/
theorem test_txs_sets_no_flag : ends (placed 0x8000 [0x9A] [])
    ⟨0x00, 0x00, 0x00, 0x00, 0x24, 0x8001⟩ [] (.ok 2) = true := by decide

/-! ### Arithmetic and logic -/

/-- V48. -/
theorem test_adc_carry_overflow_zero : ends { placed 0x8000 [0x69, 0x80] [] with a := 0x80 }
    ⟨0x00, 0x00, 0x00, 0xFD, 0x67, 0x8002⟩ [] (.ok 2) = true := by decide

/-- V51. -/
theorem test_adc_ignores_decimal : ends { placed 0x8000 [0x69, 0x09] [] with a := 0x09, p := 0x2C }
    ⟨0x12, 0x00, 0x00, 0xFD, 0x2C, 0x8002⟩ [] (.ok 2) = true := by decide

/-- V56. -/
theorem test_sbc_overflow : ends { placed 0x8000 [0xE9, 0x01] [] with a := 0x80, p := 0x25 }
    ⟨0x7F, 0x00, 0x00, 0xFD, 0x65, 0x8002⟩ [] (.ok 2) = true := by decide

/-- V57. -/
theorem test_sbc_borrow_in : ends (placed 0x8000 [0xE9, 0x00] [])
    ⟨0xFF, 0x00, 0x00, 0xFD, 0xA4, 0x8002⟩ [] (.ok 2) = true := by decide

/-- V60. -/
theorem test_and : ends { placed 0x8000 [0x29, 0x80] [] with a := 0xFF }
    ⟨0x80, 0x00, 0x00, 0xFD, 0xA4, 0x8002⟩ [] (.ok 2) = true := by decide

/-- V62. -/
theorem test_ora : ends { placed 0x8000 [0x09, 0x81] [] with a := 0x02 }
    ⟨0x83, 0x00, 0x00, 0xFD, 0xA4, 0x8002⟩ [] (.ok 2) = true := by decide

/-- V64. -/
theorem test_eor : ends { placed 0x8000 [0x49, 0xFF] [] with a := 0x0F }
    ⟨0xF0, 0x00, 0x00, 0xFD, 0xA4, 0x8002⟩ [] (.ok 2) = true := by decide

/-- V67. -/
theorem test_cmp_greater_keeps_v : ends { placed 0x8000 [0xC9, 0x3F] [] with a := 0x40, p := 0x64 }
    ⟨0x40, 0x00, 0x00, 0xFD, 0x65, 0x8002⟩ [] (.ok 2) = true := by decide

/-- V70. -/
theorem test_cpx_less : ends { placed 0x8000 [0xE4, 0x10] [(0x0010, 0x20)] with x := 0x10 }
    ⟨0x00, 0x10, 0x00, 0xFD, 0xA4, 0x8002⟩ [] (.ok 3) = true := by decide

/-- V71. -/
theorem test_cpy_greater : ends { placed 0x8000 [0xC0, 0x7F] [] with y := 0xFF }
    ⟨0x00, 0x00, 0xFF, 0xFD, 0xA5, 0x8002⟩ [] (.ok 2) = true := by decide

/-- V73. -/
theorem test_bit_clears_n_v : ends { placed 0x8000 [0x24, 0x10] [(0x0010, 0x3F)] with a := 0xFF, p := 0xE4 }
    ⟨0xFF, 0x00, 0x00, 0xFD, 0x24, 0x8002⟩ [] (.ok 3) = true := by decide

/-- V79. -/
theorem test_inc_of_rom_sets_flags : ends (placed 0x8000 [0xEE, 0x00, 0x80] [])
    ⟨0x00, 0x00, 0x00, 0xFD, 0xA4, 0x8003⟩ [(0x8000, 0xEE)] (.ok 6) = true := by decide

/-- V77. -/
theorem test_dec_wraps : ends { placed 0x8000 [0xDE, 0x00, 0x03] [(0x0301, 0x00)] with x := 0x01 }
    ⟨0x00, 0x01, 0x00, 0xFD, 0xA4, 0x8003⟩ [(0x0301, 0xFF)] (.ok 7) = true := by decide

/-- V80. -/
theorem test_inx_wraps : ends { placed 0x8000 [0xE8] [] with x := 0xFF }
    ⟨0x00, 0x00, 0x00, 0xFD, 0x26, 0x8001⟩ [] (.ok 2) = true := by decide

/-- V81. -/
theorem test_iny : ends { placed 0x8000 [0xC8] [] with y := 0x7F }
    ⟨0x00, 0x00, 0x80, 0xFD, 0xA4, 0x8001⟩ [] (.ok 2) = true := by decide

/-- V82. -/
theorem test_dex : ends { placed 0x8000 [0xCA] [] with x := 0x01 }
    ⟨0x00, 0x00, 0x00, 0xFD, 0x26, 0x8001⟩ [] (.ok 2) = true := by decide

/-- V83. -/
theorem test_dey_wraps : ends (placed 0x8000 [0x88] [])
    ⟨0x00, 0x00, 0xFF, 0xFD, 0xA4, 0x8001⟩ [] (.ok 2) = true := by decide

/-! ### Shifts and rotates -/

/-- V85. -/
theorem test_asl_shifts_zero_in : ends { placed 0x8000 [0x0A] [] with a := 0x41, p := 0x25 }
    ⟨0x82, 0x00, 0x00, 0xFD, 0xA4, 0x8001⟩ [] (.ok 2) = true := by decide

/-- V92. -/
theorem test_asl_memory : ends (placed 0x8000 [0x06, 0x10] [(0x0010, 0xC0)])
    ⟨0x00, 0x00, 0x00, 0xFD, 0xA5, 0x8002⟩ [(0x0010, 0x80)] (.ok 5) = true := by decide

/-- V87. -/
theorem test_lsr_clears_n : ends { placed 0x8000 [0x4A] [] with a := 0x80, p := 0xA4 }
    ⟨0x40, 0x00, 0x00, 0xFD, 0x24, 0x8001⟩ [] (.ok 2) = true := by decide

/-- V93. -/
theorem test_lsr_memory : ends (placed 0x8000 [0x4E, 0x00, 0x03] [(0x0300, 0x03)])
    ⟨0x00, 0x00, 0x00, 0xFD, 0x25, 0x8003⟩ [(0x0300, 0x01)] (.ok 6) = true := by decide

/-- V88. -/
theorem test_rol : ends { placed 0x8000 [0x2A] [] with a := 0x80, p := 0x25 }
    ⟨0x01, 0x00, 0x00, 0xFD, 0x25, 0x8001⟩ [] (.ok 2) = true := by decide

/-- V94. -/
theorem test_rol_memory : ends { placed 0x8000 [0x36, 0x10] [(0x0011, 0x7F)] with x := 0x01, p := 0x25 }
    ⟨0x00, 0x01, 0x00, 0xFD, 0xA4, 0x8002⟩ [(0x0011, 0xFF)] (.ok 6) = true := by decide

/-- V90. -/
theorem test_ror : ends { placed 0x8000 [0x6A] [] with a := 0x01, p := 0x25 }
    ⟨0x80, 0x00, 0x00, 0xFD, 0xA5, 0x8001⟩ [] (.ok 2) = true := by decide

/-- V95. -/
theorem test_ror_memory : ends { placed 0x8000 [0x7E, 0x00, 0x03] [(0x03FF, 0x00)] with x := 0xFF, p := 0x25 }
    ⟨0x00, 0xFF, 0x00, 0xFD, 0xA4, 0x8003⟩ [(0x03FF, 0x80)] (.ok 7) = true := by decide

/-! ### The stack -/

/-- V97. -/
theorem test_pha_wraps : ends { placed 0x8000 [0x48] [] with a := 0x5B, sp := 0x00 }
    ⟨0x5B, 0x00, 0x00, 0xFF, 0x24, 0x8001⟩ [(0x0100, 0x5B)] (.ok 3) = true := by decide

/-- V99. -/
theorem test_pla_wraps : ends { placed 0x8000 [0x68] [(0x0100, 0x00)] with a := 0x77, sp := 0xFF }
    ⟨0x00, 0x00, 0x00, 0x00, 0x26, 0x8001⟩ [] (.ok 4) = true := by decide

/-- V101. -/
theorem test_php : ends { placed 0x8000 [0x08] [] with p := 0xE5 }
    ⟨0x00, 0x00, 0x00, 0xFC, 0xE5, 0x8001⟩ [(0x01FD, 0xF5)] (.ok 3) = true := by decide

/-- V104. -/
theorem test_plp : ends { placed 0x8000 [0x28] [(0x01FD, 0x10)] with sp := 0xFC, p := 0xE5 }
    ⟨0x00, 0x00, 0x00, 0xFD, 0x20, 0x8001⟩ [] (.ok 4) = true := by decide

/-! ### Control flow -/

/-- V109. -/
theorem test_bcc_page_cross : ends (placed 0x80F0 [0x90, 0x7F] [])
    ⟨0x00, 0x00, 0x00, 0xFD, 0x24, 0x8171⟩ [] (.ok 4) = true := by decide

/-- V111. -/
theorem test_bcs : ends { placed 0x8000 [0xB0, 0x10] [] with p := 0x25 }
    ⟨0x00, 0x00, 0x00, 0xFD, 0x25, 0x8012⟩ [] (.ok 3) = true := by decide

/-- V108. -/
theorem test_beq_backward_page_cross : ends { placed 0x8000 [0xF0, 0x80] [] with p := 0x26 }
    ⟨0x00, 0x00, 0x00, 0xFD, 0x26, 0x7F82⟩ [] (.ok 4) = true := by decide

/-- V116. -/
theorem test_bne_page_end_no_cross : ends (placed 0x80FE [0xD0, 0x00] [])
    ⟨0x00, 0x00, 0x00, 0xFD, 0x24, 0x8100⟩ [] (.ok 3) = true := by decide

/-- V117. -/
theorem test_bne_page_end_cross : ends (placed 0x80FE [0xD0, 0xFF] [])
    ⟨0x00, 0x00, 0x00, 0xFD, 0x24, 0x80FF⟩ [] (.ok 4) = true := by decide

/-- V112. -/
theorem test_bmi : ends { placed 0x8000 [0x30, 0x02] [] with p := 0xA4 }
    ⟨0x00, 0x00, 0x00, 0xFD, 0xA4, 0x8004⟩ [] (.ok 3) = true := by decide

/-- V113. -/
theorem test_bpl_not_taken : ends { placed 0x8000 [0x10, 0x02] [] with p := 0xA4 }
    ⟨0x00, 0x00, 0x00, 0xFD, 0xA4, 0x8002⟩ [] (.ok 2) = true := by decide

/-- V114. -/
theorem test_bvc : ends (placed 0x8000 [0x50, 0x02] [])
    ⟨0x00, 0x00, 0x00, 0xFD, 0x24, 0x8004⟩ [] (.ok 3) = true := by decide

/-- V115. -/
theorem test_bvs : ends { placed 0x8000 [0x70, 0x02] [] with p := 0x64 }
    ⟨0x00, 0x00, 0x00, 0xFD, 0x64, 0x8004⟩ [] (.ok 3) = true := by decide

/-- V118. -/
theorem test_jmp_absolute : ends (placed 0x8000 [0x4C, 0xF5, 0xC5] [])
    ⟨0x00, 0x00, 0x00, 0xFD, 0x24, 0xC5F5⟩ [] (.ok 3) = true := by decide

/-- V120. -/
theorem test_jmp_indirect_page_end : ends (placed 0x8000 [0x6C, 0xFF, 0x02] [(0x0200, 0x90), (0x02FF, 0x00), (0x0300, 0xA0)])
    ⟨0x00, 0x00, 0x00, 0xFD, 0x24, 0x9000⟩ [] (.ok 5) = true := by decide

/-- V122. -/
theorem test_jsr_stack_wraps : ends { placed 0x8000 [0x20, 0x00, 0x90] [] with sp := 0x00 }
    ⟨0x00, 0x00, 0x00, 0xFE, 0x24, 0x9000⟩ [(0x0100, 0x80), (0x01FF, 0x02)] (.ok 6) = true := by decide

/-- V124. -/
theorem test_rts_wraps : ends { placed 0x8000 [0x60] [(0x01FC, 0xFF), (0x01FD, 0xFF)] with sp := 0xFB }
    ⟨0x00, 0x00, 0x00, 0xFD, 0x24, 0x0000⟩ [] (.ok 6) = true := by decide

/-- V125. -/
theorem test_rti : ends { placed 0x8000 [0x40] [(0x01FB, 0xB4), (0x01FC, 0x02), (0x01FD, 0x80)] with sp := 0xFA }
    ⟨0x00, 0x00, 0x00, 0xFD, 0xA4, 0x8002⟩ [] (.ok 6) = true := by decide

/-- V126. -/
theorem test_brk : ends { placed 0x8000 [0x00] [(0xFFFE, 0x00), (0xFFFF, 0x90)] with p := 0x61 }
    ⟨0x00, 0x00, 0x00, 0xFA, 0x65, 0x9000⟩ [(0x01FD, 0x80), (0x01FC, 0x02), (0x01FB, 0x71)] (.ok 7) = true := by decide

/-! ### Flags and NOP -/

/-- V127. -/
theorem test_clc : ends { placed 0x8000 [0x18] [] with p := 0xE5 }
    ⟨0x00, 0x00, 0x00, 0xFD, 0xE4, 0x8001⟩ [] (.ok 2) = true := by decide

/-- V128. -/
theorem test_sec : ends (placed 0x8000 [0x38] [])
    ⟨0x00, 0x00, 0x00, 0xFD, 0x25, 0x8001⟩ [] (.ok 2) = true := by decide

/-- V129. -/
theorem test_cli : ends (placed 0x8000 [0x58] [])
    ⟨0x00, 0x00, 0x00, 0xFD, 0x20, 0x8001⟩ [] (.ok 2) = true := by decide

/-- V130. -/
theorem test_sei : ends { placed 0x8000 [0x78] [] with p := 0x20 }
    ⟨0x00, 0x00, 0x00, 0xFD, 0x24, 0x8001⟩ [] (.ok 2) = true := by decide

/-- V131. -/
theorem test_cld : ends { placed 0x8000 [0xD8] [] with p := 0x2C }
    ⟨0x00, 0x00, 0x00, 0xFD, 0x24, 0x8001⟩ [] (.ok 2) = true := by decide

/-- V132. -/
theorem test_sed : ends (placed 0x8000 [0xF8] [])
    ⟨0x00, 0x00, 0x00, 0xFD, 0x2C, 0x8001⟩ [] (.ok 2) = true := by decide

/-- V133. -/
theorem test_clv : ends { placed 0x8000 [0xB8] [] with p := 0xE5 }
    ⟨0x00, 0x00, 0x00, 0xFD, 0xA5, 0x8001⟩ [] (.ok 2) = true := by decide

/-- V134. -/
theorem test_nop : ends { placed 0x8000 [0xEA] [] with a := 0x01, x := 0x02, y := 0x03, p := 0xE5 }
    ⟨0x01, 0x02, 0x03, 0xFD, 0xE5, 0x8001⟩ [] (.ok 2) = true := by decide

/-! ### Unofficial instructions -/

/-- V135. -/
theorem test_slo : ends { placed 0x8000 [0x07, 0x10] [(0x0010, 0xC0)] with a := 0x01 }
    ⟨0x81, 0x00, 0x00, 0xFD, 0xA5, 0x8002⟩ [(0x0010, 0x80)] (.ok 5) = true := by decide

/-- V137. -/
theorem test_rla : ends { placed 0x8000 [0x27, 0x10] [(0x0010, 0x40)] with a := 0xFF, p := 0x25 }
    ⟨0x81, 0x00, 0x00, 0xFD, 0xA4, 0x8002⟩ [(0x0010, 0x81)] (.ok 5) = true := by decide

/-- V138. -/
theorem test_sre : ends { placed 0x8000 [0x47, 0x10] [(0x0010, 0x03)] with a := 0xFF }
    ⟨0xFE, 0x00, 0x00, 0xFD, 0xA5, 0x8002⟩ [(0x0010, 0x01)] (.ok 5) = true := by decide

/-- V140. -/
theorem test_rra_uses_rotated_carry : ends { placed 0x8000 [0x67, 0x10] [(0x0010, 0x03)] with a := 0x7F }
    ⟨0x81, 0x00, 0x00, 0xFD, 0xE4, 0x8002⟩ [(0x0010, 0x01)] (.ok 5) = true := by decide

/-- V141. -/
theorem test_dcp : ends { placed 0x8000 [0xC7, 0x10] [(0x0010, 0x41)] with a := 0x40 }
    ⟨0x40, 0x00, 0x00, 0xFD, 0x27, 0x8002⟩ [(0x0010, 0x40)] (.ok 5) = true := by decide

/-- V144. -/
theorem test_isc_wraps : ends { placed 0x8000 [0xE7, 0x10] [(0x0010, 0xFF)] with p := 0x25 }
    ⟨0x00, 0x00, 0x00, 0xFD, 0x27, 0x8002⟩ [(0x0010, 0x00)] (.ok 5) = true := by decide

/-- V146. -/
theorem test_lax_page_cross : ends { placed 0x8000 [0xB3, 0x20] [(0x0020, 0x01), (0x0021, 0x03), (0x0400, 0x00)] with y := 0xFF }
    ⟨0x00, 0x00, 0xFF, 0xFD, 0x26, 0x8002⟩ [] (.ok 6) = true := by decide

/-- V147. -/
theorem test_sax_sets_no_flag : ends { placed 0x8000 [0x87, 0x10] [] with a := 0xF0, x := 0x3C, p := 0xA4 }
    ⟨0xF0, 0x3C, 0x00, 0xFD, 0xA4, 0x8002⟩ [(0x0010, 0x30)] (.ok 3) = true := by decide

/-- V149. -/
theorem test_alr : ends { placed 0x8000 [0x4B, 0xFF] [] with a := 0x03 }
    ⟨0x01, 0x00, 0x00, 0xFD, 0x25, 0x8002⟩ [] (.ok 2) = true := by decide

/-- V152. -/
theorem test_anc_second_encoding : ends { placed 0x8000 [0x2B, 0x7F] [] with a := 0xFF, p := 0x25 }
    ⟨0x7F, 0x00, 0x00, 0xFD, 0x24, 0x8002⟩ [] (.ok 2) = true := by decide

/-- V154. -/
theorem test_arr : ends { placed 0x8000 [0x6B, 0xFF] [] with a := 0x80 }
    ⟨0x40, 0x00, 0x00, 0xFD, 0x65, 0x8002⟩ [] (.ok 2) = true := by decide

/-- V158. -/
theorem test_axs_borrow : ends { placed 0x8000 [0xCB, 0x31] [] with a := 0xF0, x := 0x3C, p := 0x25 }
    ⟨0xF0, 0xFF, 0x00, 0xFD, 0xA4, 0x8002⟩ [] (.ok 2) = true := by decide

/-- V159. -/
theorem test_sbc_duplicate : ends { placed 0x8000 [0xEB, 0x01] [] with p := 0x25 }
    ⟨0xFF, 0x00, 0x00, 0xFD, 0xA4, 0x8002⟩ [] (.ok 2) = true := by decide

/-- V164. -/
theorem test_nop_duplicate_reads_nothing : ends (placed 0x8000 [0x0C, 0x02, 0x20] [])
    ⟨0x00, 0x00, 0x00, 0xFD, 0x24, 0x8003⟩ [] (.ok 4) = true := by decide

/-- V165. -/
theorem test_nop_duplicate_page_cross : ends { placed 0x8000 [0x1C, 0xFF, 0x02] [] with x := 0x01 }
    ⟨0x00, 0x01, 0x00, 0xFD, 0x24, 0x8003⟩ [] (.ok 5) = true := by decide

/-- V166. -/
theorem test_shx_page_cross : ends { placed 0x8000 [0x9E, 0xF0, 0x02] [] with x := 0x05, y := 0x20 }
    ⟨0x00, 0x05, 0x20, 0xFD, 0x24, 0x8003⟩ [(0x0110, 0x01), (0x0310, 0x00)] (.ok 5) = true := by decide

/-- V168. -/
theorem test_shy : ends { placed 0x8000 [0x9C, 0xF0, 0x02] [] with x := 0x20, y := 0x0F }
    ⟨0x00, 0x20, 0x0F, 0xFD, 0x24, 0x8003⟩ [(0x0310, 0x03)] (.ok 5) = true := by decide

/-- V170. -/
theorem test_stp : ends { placed 0x8000 [0xF2] [] with a := 0x09, p := 0xE5 }
    ⟨0x09, 0x00, 0x00, 0xFD, 0xE5, 0x8001⟩ [] (.halt) = true := by decide

/-- V171. -/
theorem test_unassigned_opcode : ends { placed 0x8000 [0x8B, 0x12, 0x34] [] with a := 0x11, p := 0x65 }
    ⟨0x11, 0x00, 0x00, 0xFD, 0x65, 0x8000⟩ [] (.decodeError 0x8B) = true := by decide

/-! ### Witnesses: for each statement with hypotheses, concrete values that meet them -/

/-- The reset machine with LDA of a zero-page byte at 0x8000. -/
def loading : State := placed 0x8000 [0xA5, 0x10] [(0x0010, 0x80)]

/-- The reset machine with INC of a zero-page byte at 0x8000. -/
def stepping : State := placed 0x8000 [0xE6, 0x10] [(0x0010, 0x80)]

/-- A machine with the guard mapper. -/
def guarded : State := { State.reset with mapper := .noMapper }

theorem witness_DecodeOfEncode :
    (Instr.lax (.absoluteY 0xFFFF)).wellFormed = true ∧ (Instr.nopDup 0xFA .implied).wellFormed = true := by decide

theorem witness_EncodeOfDecode :
    decode [0xBD, 0xFF, 0xFF, 0x00] = .ok (.lda (.mem (.absoluteX 0xFFFF)), [0x00]) ∧
    decode [0xBD, 0xFF] = .error (.truncated 0xBD) ∧ [(0xFF : Byte)].length + 1 < (descriptor 0xBD).length :=
  ⟨rfl, rfl, by decide⟩

theorem fetched_loading : loading.fetchedByte 0 = 0xA5 ∧ loading.fetchedByte 1 = 0x10 ∧ loading.fetchedByte 2 = 0 := by
  decide

theorem witness_StepRunsDecodedInstruction :
    loading.run = .running ∧
    decode [loading.fetchedByte 0, loading.fetchedByte 1, loading.fetchedByte 2]
      = .ok (.lda (.mem (.zeroPage 0x10)), [0x00]) ∧
    ∀ k < (Instr.lda (.mem (.zeroPage 0x10))).length, loading.busOk (loading.pc + BitVec.ofNat 16 k) = true := by
  obtain ⟨h0, h1, h2⟩ := fetched_loading
  rw [h0, h1, h2]
  exact ⟨rfl, rfl, by decide⟩

theorem witness_FetchOnlyReads : (0 : Nat) ≤ 3 ∧ (3 : Nat) ≤ 3 := by decide

theorem witness_StepKeepsWellFormed : loading.wellFormed = true ∧ ∃ t, step loading = .next t ∧ t.a == 0x80 :=
  ⟨by decide, stepped_spec (by decide)⟩

theorem witness_StepAlwaysAnswers : State.reset.mapper = .nrom := rfl

theorem witness_NoMapperFaults :
    guarded.mapper = .noMapper ∧ 0x6000 ≤ (0x6000 : Word).toNat ∧ (0x5FFF : Word).toNat < 0x6000 ∧
    guarded.operandOk (.mem (.absolute 0x6000)) = false ∧ guarded.busOk (guarded.effAddr (.absoluteX 0xFFFF)) = false ∧
    guarded.busOk (highAndAddr (indexed 0x6000 guarded.y) (highAnd guarded.x 0x6000)) = false ∧
    guarded.busOk (highAndAddr (indexed 0x6000 guarded.x) (highAnd guarded.y 0x6000)) = false ∧
    { guarded with pc := 0x6000 }.run = .running ∧ { guarded with pc := 0x6000 }.busOk 0x6000 = false := by decide

theorem witness_StoppedIsTerminal : { State.reset with run := .stopped }.run = .stopped := rfl

theorem witness_OnlyStpStops :
    (placed 0x8000 [0xF2] []).run = .running ∧
    (∃ t, step (placed 0x8000 [0xF2] []) = .next t ∧ (t.run == .stopped) = true) ∧
    ∃ t, step loading = .next t ∧ (t.run == .running) = true :=
  ⟨by decide, stepped_spec (by decide), stepped_spec (by decide)⟩

theorem witness_DecodeErrorChangesNothing :
    let s := placed 0x8000 [0xBB] []
    s.run = .running ∧ s.busOk s.pc = true ∧ s.fetchedByte 0 = 0xBB := by decide

theorem witness_StepIsSequentiallyConsistent :
    ∃ t, step stepping = .next t ∧ (t.events ==
      [.read 0x8000 0xE6, .read 0x8001 0x10, .read 0x0010 0x80, .write 0x0010 0x81]) = true :=
  stepped_spec (by decide)

theorem witness_StepCallsOncePerAccess :
    (∃ t, step { placed 0x8000 [0x8D, 0xFF, 0x3F] [] with a := 0x1E } = .next t ∧
      (callsOf t.events == [.write 7 0x1E]) = true) ∧
    ∃ t, step stepping = .next t ∧ (callsOf t.events == []) = true :=
  ⟨stepped_spec (by decide), stepped_spec (by decide)⟩

theorem witness_ReadAfterWrite :
    [(0x0000 : Word), 0x1FFF, 0x4000, 0x6000, 0x7FFF, 0x8000, 0xFFFF].map isGfx = List.replicate 7 false ∧
    (∃ t, memWrite 0x1FFF 0xAA State.reset = .ok t) ∧ (∃ t, memWrite 0x7FFF 0xAA State.reset = .ok t) ∧
    ∃ t, memWrite 0x8000 0xAA State.reset = .ok t :=
  ⟨by decide, ⟨_, memWrite_eq_ok.2 ⟨by decide, rfl⟩⟩, ⟨_, memWrite_eq_ok.2 ⟨by decide, rfl⟩⟩,
    ⟨_, memWrite_eq_ok.2 ⟨by decide, rfl⟩⟩⟩

theorem witness_RamIsMirrored :
    (0x0000 : Word).toNat < 0x2000 ∧ (0x1FFF : Word).toNat < 0x2000 ∧
    (∃ t, memWrite 0x1FFF 0xAA State.reset = .ok t) ∧ ∃ u, memWrite 0x07FF 0xAA State.reset = .ok u :=
  ⟨by decide, by decide, ⟨_, memWrite_eq_ok.2 ⟨by decide, rfl⟩⟩, ⟨_, memWrite_eq_ok.2 ⟨by decide, rfl⟩⟩⟩

theorem witness_RegionsAreExclusive :
    [(0x6000 : Word), 0xFFFF].map region = [.cartridge, .cartridge] ∧
    [(0x4020 : Word), 0x5FFF].map region = [.expansion, .expansion] ∧
    [(0x4000 : Word), 0x401F].map region = [.audioIo, .audioIo] ∧
    [(0x2008 : Word), 0x3FFF].map region = [.gfxMirror, .gfxMirror] ∧
    [(0x2000 : Word), 0x2007].map region = [.gfxRegister, .gfxRegister] ∧
    [(0x0800 : Word), 0x1FFF].map region = [.ramMirror, .ramMirror] ∧
    [(0x0000 : Word), 0x07FF].map region = [.ram, .ram] := by decide

theorem witness_GraphicsRegistersAreCalls :
    ∀ b ∈ [(0x2000 : Word), 0x2007, 0x2008, 0x3FFF], 0x2000 ≤ b.toNat ∧ b.toNat ≤ 0x3FFF := by simp

theorem witness_StubsAndCartridge :
    State.reset.mapper = .nrom ∧ { State.reset with prgSize := .kib16 }.mapper = .nrom ∧
    (∀ b ∈ [(0x4000 : Word), 0x401F, 0x4020, 0x5FFF], 0x4000 ≤ b.toNat ∧ b.toNat < 0x6000) ∧
    (∀ b ∈ [(0x6000 : Word), 0x7FFF], 0x6000 ≤ b.toNat ∧ b.toNat < 0x8000) ∧
    (∀ b ∈ [(0x8000 : Word), 0xFFFF], 0x8000 ≤ b.toNat) ∧
    ∀ b ∈ [(0x8000 : Word), 0xBFFF], 0x8000 ≤ b.toNat ∧ b.toNat < 0xC000 := by
  simp [State.reset]

theorem witness_ZeroPageModes :
    (descriptor 0xA5).mode = .zeroPage ∧ (descriptor 0xB5).mode = .zeroPageX ∧ (descriptor 0x97).mode = .zeroPageY := by
  decide

theorem witness_IndirectModes : (descriptor 0xA1).mode = .indirectX := by decide

theorem witness_LoadResults :
    State.reset.operandOk (.immediate 0xFF) = true ∧ State.reset.operandOk (.mem (.absoluteX 0xFFFF)) = true ∧
    guarded.operandOk (.mem (.absolute 0x5FFF)) = true ∧ guarded.busOk (guarded.effAddr (.indirectY 0xFF)) = true := by
  decide

theorem witness_StoreResults :
    State.reset.busOk (State.reset.effAddr (.absolute 0xFFFF)) = true ∧
    guarded.busOk (guarded.effAddr (.absolute 0x5FFF)) = true := by decide

theorem witness_AddSubtractResults :
    State.reset.operandOk (.immediate 0x80) = true ∧ State.reset.operandOk (.mem (.indirectX 0xFF)) = true := by decide

theorem witness_AddThenSubtractRestoresA :
    let s := { State.reset with a := 0x80 }
    ∃ t u, exec (.adc (.immediate 0x90)) s = .next t ∧
      (t.setFlag .c (!Flag.c.read s.p)).operand (.immediate 0x90) = s.operand (.immediate 0x90) ∧
      exec (.sbc (.immediate 0x90)) (t.setFlag .c (!Flag.c.read s.p)) = .next u :=
  ⟨_, _, rfl, rfl, rfl⟩

theorem witness_LogicResults : State.reset.operandOk (.mem (.zeroPageX 0xFF)) = true := by decide

theorem witness_CompareResults : State.reset.operandOk (.mem (.absoluteY 0xFFFF)) = true := by decide

theorem witness_BitResult : State.reset.busOk (State.reset.effAddr (.absolute 0xFFFF)) = true := by decide

theorem witness_MemoryStepResults : State.reset.busOk (State.reset.effAddr (.absoluteX 0x8000)) = true := by decide

theorem witness_ShiftCoreResults : (0 : Nat) < 8 ∧ (7 : Nat) < 8 := by decide

theorem witness_MemoryShiftResults : State.reset.busOk (State.reset.effAddr (.zeroPageX 0xFF)) = true := by decide

theorem witness_StackDiscipline :
    ([] : List Byte).length ≤ 256 ∧ (List.replicate 256 (0xAA : Byte)).length ≤ 256 :=
  ⟨by decide, (List.length_replicate ..).le⟩

theorem witness_BranchResults :
    Flag.z.read State.reset.p = false ∧ Flag.i.read State.reset.p = true ∧
    (relativeTarget 0x80FE 0x00).crossed = false ∧ (relativeTarget 0x80FE 0xFF).crossed = true := by decide

theorem witness_JumpResults :
    (0x0200 : Word).toNat = (if (0x02FF : Word).toNat % 256 = 255 then (0x02FF : Word).toNat - 255 else 0) ∧
    (0x0301 : Word).toNat = (if (0x0300 : Word).toNat % 256 = 255 then 0 else (0x0300 : Word).toNat + 1) ∧
    State.reset.busOk 0x02FF = true ∧ State.reset.busOk 0x0300 = true := by decide

theorem witness_BrkResult : State.reset.mapper = .nrom := rfl

theorem witness_CallReturns :
    ∃ t v, exec (.jsr 0x9000) State.reset = .next t ∧ SameStackTop 2 t t ∧ exec .rts t = .next v :=
  ⟨_, _, rfl, ⟨rfl, fun _ _ _ => rfl⟩, rfl⟩

theorem witness_BreakReturns :
    State.reset.statusOk = true ∧
    ∃ t v, exec .brk State.reset = .next t ∧ SameStackTop 3 t t ∧ exec .rti t = .next v :=
  ⟨by decide, _, _, rfl, ⟨rfl, fun _ _ _ => rfl⟩, rfl⟩

theorem witness_DecimalAndInterruptAreInert :
    Instr.adc (.immediate 0x09) ∉ [Instr.sed, .cld, .php, .plp, .rti, .brk] ∧
    Instr.sed ∉ [Instr.sei, .cli, .php, .plp, .rti, .brk] ∧
    (∃ t, exec (.adc (.immediate 0x09)) State.reset = .next t) ∧ (∃ t, exec .sed State.reset = .next t) ∧
    exec (.lda (.mem (.absolute 0x6000))) guarded = .fault .noMapperInvoked :=
  ⟨by decide, by decide, ⟨_, rfl⟩, ⟨_, rfl⟩, rfl⟩

theorem witness_ShiftCombinationResults : State.reset.busOk (State.reset.effAddr (.indirectY 0xFF)) = true := by decide

theorem witness_ArithmeticCombinationResults : State.reset.busOk (State.reset.effAddr (.absoluteY 0xFFFF)) = true := by
  decide

/-- One address without and one with a page cross, for each of the two. -/
theorem witness_HighAndStoreResults :
    ∀ s ∈ [State.reset, { State.reset with x := 0x20, y := 0x20 }],
      let v := s.x &&& (hiByte (0x02F0 : Word) + 1)
      let ea := (0x02F0 : Word) + zext16 s.y
      s.busOk (if hiByte ea = hiByte (0x02F0 : Word) then ea else word v (loByte ea)) = true := by decide

/-- Parameters with images of the given lengths. -/
def sized (code prg chr : Nat) : Params :=
  ⟨code, .replicate prg 0xEA, .replicate chr 0x00, .horizontal, [], [], [], [], none⟩

theorem witness_ConstructChecksSizes :
    (sized 1 0 0).mapperCode ≠ 0 ∧ (sized 0 16383 0).prgRom.length ≠ 16384 ∧ (sized 0 16383 0).prgRom.length ≠ 32768 ∧
    (sized 0 16384 8191).prgRom.length = 16384 ∧ (sized 0 16384 8191).chrRom.length ≠ 8192 ∧
    (sized 0 32768 8192).mapperCode = 0 ∧ (sized 0 32768 8192).prgRom.length = 32768 ∧
    (sized 0 32768 8192).chrRom.length = 8192 := by
  simp only [sized, List.length_replicate]; decide

theorem witness_GraphicsSpaceReadsAndWrites :
    State.reset.mapper = .nrom ∧
    (∀ b ∈ [(0x0000 : GfxAddr), 0x1FFF], b.toNat < 0x2000) ∧
    (∀ b ∈ [(0x2000 : GfxAddr), 0x2FFF], 0x2000 ≤ b.toNat ∧ b.toNat < 0x3000) ∧
    (∀ b ∈ [(0x3000 : GfxAddr), 0x3EFF], 0x3000 ≤ b.toNat ∧ b.toNat < 0x3F00) ∧
    (∀ b ∈ [(0x3F00 : GfxAddr), 0x3FFF], 0x3F00 ≤ b.toNat) := by simp [State.reset]

theorem witness_TraceReturnsFetchedBytes :
    loading.run = .running ∧
    decode [loading.fetchedByte 0, loading.fetchedByte 1, loading.fetchedByte 2]
      = .ok (.lda (.mem (.zeroPage 0x10)), [0x00]) ∧
    (∃ t, step loading = .next t ∧ t.completed = true) ∧ { State.reset with run := .stopped }.run = .stopped :=
  ⟨witness_StepRunsDecodedInstruction.1, witness_StepRunsDecodedInstruction.2.1, stepped_spec (by decide), rfl⟩

/-- The last two lines of the trace of 3.5: the line of the step that executes STP shows its byte, the next one none. -/
theorem test_trace_line_of_stp : ∃ t u, step (placed 0x8006 [0x02] []) = .next t ∧ step t = .next u ∧
    (traceLine (placed 0x8006 [0x02] []) t).fetched = [0x02] ∧ (traceLine t u).fetched = [] ∧
    (traceLine t u).pc = 0x8007 :=
  ⟨_, _, rfl, rfl, by decide, by decide, by decide⟩

end Sys2Proof.Tests
end

section
/-!
PROOF. The memory family: RAM and its mirrors (`20_memory.md` R55) and the graphics registers (R56), each settled from
what one bus access of that range does to the state.
-/

namespace Sys2Proof.Machine

/-! ### One access of the internal RAM (R55) -/

theorem isGfx_of_lt_2000 {b : Word} (hb : b.toNat < 0x2000) : isGfx b = false := by
  rw [Bool.eq_false_iff, Ne, isGfx_iff]; omega

theorem readByte_of_lt_2000 (s : State) {b : Word} (hb : b.toNat < 0x2000) :
    s.readByte b = s.ram.read (b.toNat % 0x800) := by
  simp [readByte_eq s (isGfx_of_lt_2000 hb), storageOf_eq, hb, ramIndex]

/-- A read that reaches no graphics register has no effect but its record. -/
theorem afterRead_of_not_isGfx (s : State) {b : Word} (hb : isGfx b = false) :
    s.afterRead b = s.log (.read b (s.readByte b) :: readDiags b) := by
  simp [State.afterRead, State.gfxAfterRead, State.log, hb]

/-- A write to RAM replaces the one byte and has no other effect but its record. -/
theorem afterWrite_of_lt_2000 (s : State) {b : Word} (v : Byte) (hb : b.toNat < 0x2000) :
    s.afterWrite b v =
      { s.log (.write b v :: writeDiags b) with ram := s.ram.write (b.toNat % 0x800) v } := by
  have hram : isRam b = true := (isRam_iff b).2 hb
  have hprg : isPrgRam b = false := by rw [Bool.eq_false_iff, Ne, isPrgRam_iff]; omega
  simp [State.afterWrite, State.gfxAfterWrite, State.nromWrite, State.log, ramIndex, isGfx_of_lt_2000 hb, hram, hprg]

/-- The address below 0x0800 that an address mirrors has that number. -/
theorem toNat_mirrorBase (b : Word) : (BitVec.ofNat 16 (b.toNat % 0x800)).toNat = b.toNat % 0x800 := by
  rw [BitVec.toNat_ofNat]; omega

/-- Settles O17: an address enters a RAM access only by its index, and so does its mirror below 0x0800. -/
theorem ramIsMirrored : Obligations.RamIsMirrored := by
  intro s b v hb
  have hc : (BitVec.ofNat 16 (b.toNat % 0x800)).toNat < 0x2000 := by rw [toNat_mirrorBase]; omega
  have hbus : s.busOk b = true := (busOk_iff s b).2 (.inr (by omega))
  refine ⟨⟨s.afterRead b, ?_, ?_⟩, ⟨s.afterWrite b v, memWrite_eq_ok.2 ⟨hbus, rfl⟩, ?_, fun k => ?_⟩, ?_, ?_⟩
  · exact memRead_eq_ok.2 ⟨hbus, (readByte_of_lt_2000 s hb).symm, rfl⟩
  · rw [afterRead_of_not_isGfx s (isGfx_of_lt_2000 hb)]; rfl
  · rw [afterWrite_of_lt_2000 s v hb]; rfl
  · rw [afterWrite_of_lt_2000 s v hb]; exact Memory.read_write ..
  · rw [readByte_of_lt_2000 s hb, readByte_of_lt_2000 s hc, toNat_mirrorBase, Nat.mod_mod]
  · intro t u ht hu
    obtain ⟨-, rfl⟩ := memWrite_eq_ok.1 ht
    obtain ⟨-, rfl⟩ := memWrite_eq_ok.1 hu
    rw [afterWrite_of_lt_2000 s v hb, afterWrite_of_lt_2000 s v hc, toNat_mirrorBase, Nat.mod_mod]
    rfl

/-! ### One access of a graphics register (R56) -/

theorem toNat_gfxIndex (b : Word) : (gfxIndex b).toNat = b.toNat % 8 := by
  simp [gfxIndex, BitVec.extractLsb'_toNat]

theorem readByte_of_isGfx (s : State) {b : Word} (hb : isGfx b = true) : s.readByte b = s.gfxAnswer b := by
  cases hr : region b <;> simp_all [isGfx, State.readByte]

theorem afterRead_gfx_of_isGfx (s : State) {b : Word} (hb : isGfx b = true) :
    (s.afterRead b).gfx = s.gfx ++ [.read (gfxIndex b) (s.readByte b)] := by
  simp [State.afterRead, State.gfxAfterRead, hb, readByte_of_isGfx s hb]

theorem afterWrite_gfx_of_isGfx (s : State) {b : Word} (v : Byte) (hb : isGfx b = true) :
    (s.afterWrite b v).gfx = s.gfx ++ [.write (gfxIndex b) v] := by
  simp [State.afterWrite, State.gfxAfterWrite, hb]

/-- Settles O19: the range is that of `isGfx`, no access of it reaches the mapper, and each makes its one call. -/
theorem graphicsRegistersAreCalls : Obligations.GraphicsRegistersAreCalls := by
  intro s b v hlo hhi
  have hg : isGfx b = true := (isGfx_iff b).2 ⟨hlo, by omega⟩
  have hbus : s.busOk b = true := (busOk_iff s b).2 (.inr (by omega))
  exact ⟨toNat_gfxIndex b,
    ⟨_, _, memRead_eq_ok.2 ⟨hbus, rfl, rfl⟩, afterRead_gfx_of_isGfx s hg⟩,
    ⟨_, memWrite_eq_ok.2 ⟨hbus, rfl⟩, afterWrite_gfx_of_isGfx s v hg⟩⟩

end Sys2Proof.Machine
end

section
/-!
PROOF. The addressing family: the zero-page modes (`40_addressing.md` R131 to R133) and the indirect modes (R138, R139),
each settled from the resolver's parts in numbers: a zero-page address, a pointer of page zero, an indexed address.
-/

namespace Sys2Proof.Machine

/-! ### Addresses of page zero -/

/-- The zero-page address of a sum of bytes: the carry out of bit 7 is dropped. -/
theorem toNat_zext16_add (i j : Byte) : (zext16 (i + j)).toNat = (i.toNat + j.toNat) % 256 := by
  rw [toNat_zext16, BitVec.toNat_add]

/-- A zero-page address is the word of its number. -/
theorem zext16_eq_ofNat {z : Byte} {n : Nat} (h : z.toNat = n) : zext16 z = BitVec.ofNat 16 n := by
  rw [← h, ← toNat_zext16, BitVec.ofNat_toNat, BitVec.setWidth_eq]

@[simp] theorem readDiags_zext16 (z : Byte) : readDiags (zext16 z) = [] := by
  have hz : z.toNat < 0x100 := z.isLt
  have hr : region (zext16 z) = .ram := by
    rw [region_eq, toNat_zext16]
    repeat rw [if_neg (by omega)]
  rw [readDiags, hr]

/-- A read of page zero has no effect but its record. -/
theorem afterRead_zext16 (s : State) (z : Byte) :
    s.afterRead (zext16 z) = s.log [.read (zext16 z) (s.readByte (zext16 z))] := by
  rw [afterRead_of_not_isGfx s (isGfx_zext16 z), readDiags_zext16]

/-! ### A pointer of page zero (R138, R139) -/

theorem log_log (s : State) (es fs : List Event) : (s.log es).log fs = s.log (es ++ fs) := by
  simp only [State.log, List.append_assoc]

/-- A pointer is read from memory as it stands, and the two reads are the only effect. -/
theorem zeroPagePointer_eq (s : State) (z : Byte) :
    s.zeroPagePointer z =
      (word (s.readByte (zext16 (z + 1))) (s.readByte (zext16 z)),
        s.log [.read (zext16 z) (s.readByte (zext16 z)), .read (zext16 (z + 1)) (s.readByte (zext16 (z + 1)))]) := by
  simp only [State.zeroPagePointer, afterRead_zext16, readByte_log, log_log, List.cons_append, List.nil_append]

/-- The pointer at the zero-page address `n` in numbers: its bytes lie at `n` and, wrapping inside page zero, at
`n + 1`, and are read in this order. -/
theorem zeroPagePointer_of_toNat_eq (s : State) {z : Byte} {n : Nat} (hz : z.toNat = n) :
    let lo : Word := BitVec.ofNat 16 n
    let hi : Word := BitVec.ofNat 16 ((n + 1) % 256)
    (s.zeroPagePointer z).1.toNat = 256 * (s.readByte hi).toNat + (s.readByte lo).toNat ∧
    (s.zeroPagePointer z).2 = s.log [.read lo (s.readByte lo), .read hi (s.readByte hi)] := by
  have hnext : (z + 1).toNat = (n + 1) % 256 := by rw [BitVec.toNat_add, hz]; rfl
  rw [← zext16_eq_ofNat hz, ← zext16_eq_ofNat hnext, zeroPagePointer_eq]
  exact ⟨toNat_word .., rfl⟩

/-! ### An indexed address and its page cross (R135, R136, R139, R144) -/

theorem toNat_hiByte (w : Word) : (hiByte w).toNat = w.toNat / 256 := by
  have h := toNat_word (hiByte w) (loByte w)
  rw [word_hiByte_loByte] at h
  have := (loByte w).isLt
  omega

theorem pageCrossed_iff (base ea : Word) : pageCrossed base ea = true ↔ ea.toNat / 256 ≠ base.toNat / 256 := by
  rw [pageCrossed, bne_iff_ne, Ne, ← BitVec.toNat_inj, toNat_hiByte, toNat_hiByte]

theorem toNat_indexed_ea (base : Word) (index : Byte) :
    (indexed base index).ea.toNat = (base.toNat + index.toNat) % 65536 := by
  rw [indexed, BitVec.toNat_add, toNat_zext16]

theorem indexed_crossed_iff (base : Word) (index : Byte) :
    (indexed base index).crossed = true ↔ (base.toNat + index.toNat) % 65536 / 256 ≠ base.toNat / 256 := by
  rw [← toNat_indexed_ea]; exact pageCrossed_iff ..

/-! ### The table's rows in these modes (R106, R133, R144) -/

/-- Only the three modes that add an index to a 16-bit base carry a page-cross bonus. -/
theorem pageCrossBonus_eq_zero (op : Byte) :
    (descriptor op).mode ∉ [Mode.absoluteX, .absoluteY, .indirectY] → (descriptor op).pageCrossBonus = 0 := by
  revert op; decide +kernel

theorem op_of_mode_zeroPageY (op : Byte) :
    (descriptor op).mode = .zeroPageY → (descriptor op).op ∈ [Op.ldx, .stx, .lax, .sax] := by
  revert op; decide +kernel

/-- Settles O21: each address is a byte extended to 16 bits, and the table has no such row with a bonus. -/
theorem zeroPageModes : Obligations.ZeroPageModes := by
  refine ⟨fun s i => ⟨toNat_zext16 i, toNat_zext16_add i s.x, toNat_zext16_add i s.y, fun m hm => ?_⟩,
    fun op hop => pageCrossBonus_eq_zero op ?_, op_of_mode_zeroPageY⟩
  · simp only [List.mem_cons, List.not_mem_nil, or_false] at hm
    rcases hm with rfl | rfl | rfl <;> exact ⟨rfl, rfl⟩
  · simp only [List.mem_cons, List.not_mem_nil, or_false] at hop
    rcases hop with hop | hop | hop <;> rw [hop] <;> decide

/-- Settles O23: both modes read a pointer of page zero, at operand plus X or at the operand; IndirectY indexes it. -/
theorem indirectModes : Obligations.IndirectModes := by
  refine ⟨fun s i => ⟨?_, ?_⟩, fun op hop => pageCrossBonus_eq_zero op (by rw [hop]; decide)⟩
  · have hz : (i + s.x).toNat = (i.toNat + s.x.toNat) % 256 := BitVec.toNat_add ..
    obtain ⟨hpointer, hreads⟩ := zeroPagePointer_of_toNat_eq s hz
    exact ⟨hpointer, rfl, hreads⟩
  · obtain ⟨hpointer, hreads⟩ := zeroPagePointer_of_toNat_eq s (rfl : i.toNat = i.toNat)
    refine ⟨?_, ?_, hreads⟩
    · rw [← hpointer]; exact toNat_indexed_ea ..
    · rw [← hpointer]; exact indexed_crossed_iff ..

end Sys2Proof.Machine
end

section
/-!
PROOF. The comparator of the arithmetic family (`42_arith_logic.md` R171): what `CompareCore` writes in numbers, and that
the old Carry has no part in it.
-/

namespace Sys2Proof.Machine

/-! ### `SetZN` and the 8-bit difference, in numbers (R27, R171) -/

theorem FlagsZN.z_iff {r : Byte} {t : State} (h : FlagsZN r t) : Flag.z.read t.p = true ↔ r.toNat = 0 := by
  rw [h.1, beq_iff_eq, ← BitVec.toNat_inj, BitVec.ofNat_eq_ofNat, BitVec.toNat_zero]

theorem FlagsZN.n_iff {r : Byte} {t : State} (h : FlagsZN r t) : Flag.n.read t.p = true ↔ 128 ≤ r.toNat := by
  rw [h.2, ← BitVec.msb_eq_getLsbD_last, BitVec.msb_eq_decide, decide_eq_true_iff]

theorem toNat_byte_sub (reg m : Byte) : (reg - m).toNat = (256 + reg.toNat - m.toNat) % 256 := by
  rw [BitVec.toNat_sub]
  have := m.isLt
  omega

/-! ### `CompareCore` (R171) -/

theorem compareCore_holdsComparison (s : State) (reg m : Byte) : HoldsComparison reg m (s.compareCore reg m) := by
  simp [HoldsComparison, FlagsZN, BitVec.le_def]

theorem compareCore_keepsFlags (s : State) (reg m : Byte) : KeepsFlags [.c, .z, .n] s (s.compareCore reg m) := by
  intro f hf
  simp only [List.mem_cons, List.not_mem_nil, or_false, not_or] at hf
  obtain ⟨hc, hz, hn⟩ := hf
  simp [hc, hz, hn]

/-- Carry is overwritten, not read. -/
@[simp] theorem compareFlags_write_c (reg m p : Byte) (b : Bool) :
    compareFlags reg m (Flag.c.write b p) = compareFlags reg m p := by
  refine Flag.ext_read fun f => ?_
  by_cases hc : f = .c <;> simp [hc]

/-- Settles O33: the three flags are the comparison in numbers, and the old Carry is overwritten unread. -/
theorem compareCoreResult : Obligations.CompareCoreResult := by
  intro s reg m
  obtain ⟨hzn, hc⟩ := compareCore_holdsComparison s reg m
  rw [← toNat_byte_sub]
  refine ⟨hc, hzn.z_iff, hzn.n_iff, compareCore_keepsFlags s reg m, rfl, fun b => ?_⟩
  exact congrArg s.loadStatus (compareFlags_write_c reg m s.p b)

end Sys2Proof.Machine
end

section
/-!
PROOF. The four shift cores (`43_shift_rotate.md` R200), bit by bit. Two facts carry it: ASL and LSR are the rotates whose
previous Carry is 0, and what a shift writes to the state is the same for every core.
-/

namespace Sys2Proof.Machine

/-! ### What a shift writes, whichever its core (R200) -/

@[simp] theorem shiftModify_fst (core : Bool → Byte → Byte × Bool) (v : Byte) (s : State) :
    (shiftModify core v s).1 = (core (Flag.c.read s.p) v).1 := rfl

@[simp] theorem shiftModify_p (core : Bool → Byte → Byte × Bool) (v : Byte) (s : State) :
    (shiftModify core v s).2.p = shiftFlags (core (Flag.c.read s.p) v) s.p := rfl

theorem shiftModify_read_c (core : Bool → Byte → Byte × Bool) (v : Byte) (s : State) :
    Flag.c.read (shiftModify core v s).2.p = (core (Flag.c.read s.p) v).2 := by simp

theorem shiftModify_flagsZN (core : Bool → Byte → Byte × Bool) (v : Byte) (s : State) :
    FlagsZN (shiftModify core v s).1 (shiftModify core v s).2 := by simp [FlagsZN]

theorem shiftModify_keepsFlags (core : Bool → Byte → Byte × Bool) (v : Byte) (s : State) :
    KeepsFlags [.c, .z, .n] s (shiftModify core v s).2 := by
  intro f hf
  simp only [List.mem_cons, List.not_mem_nil, or_false, not_or] at hf
  obtain ⟨hc, hz, hn⟩ := hf
  simp [hc, hz, hn]

theorem shiftModify_with_old_p (core : Bool → Byte → Byte × Bool) (v : Byte) (s : State) :
    { (shiftModify core v s).2 with p := s.p } = s := rfl

/-! ### The cores, bit by bit (R200) -/

/-- ASL is ROL with a previous Carry of 0. -/
theorem aslCore_eq_rolCore (v : Byte) : aslCore v = rolCore false v := by simp [aslCore, rolCore]

/-- LSR is ROR with a previous Carry of 0. -/
theorem lsrCore_eq_rorCore (v : Byte) : lsrCore v = rorCore false v := by simp [lsrCore, rorCore]

/-- ROL's mask sets bit 0, the one the left shift has vacated. -/
theorem getLsbD_rolCore (c : Bool) (v : Byte) {k : Nat} (hk : k < 8) :
    (rolCore c v).1.getLsbD k = if k = 0 then c else v.getLsbD (k - 1) := by
  have hmask : (if c then 0x01 else 0x00 : Byte).getLsbD k = (decide (k = 0) && c) := by
    cases c <;> simp [BitVec.getLsbD_one]
  simp only [rolCore, BitVec.getLsbD_or, BitVec.getLsbD_shiftLeft, hmask]
  by_cases h0 : k = 0 <;> simp [h0, hk]

/-- ROR's mask sets bit 7, the one the right shift has vacated. -/
theorem getLsbD_rorCore (c : Bool) (v : Byte) {k : Nat} (hk : k < 8) :
    (rorCore c v).1.getLsbD k = if k = 7 then c else v.getLsbD (k + 1) := by
  have hmask : (if c then 0x80 else 0x00 : Byte).getLsbD k = (decide (k = 7) && c) := by
    cases c
    · simp
    · have h80 : (0x80 : Byte) = BitVec.twoPow 8 7 := rfl
      simp [h80, hk]
  simp only [rorCore, BitVec.getLsbD_or, BitVec.getLsbD_ushiftRight, hmask]
  by_cases h7 : k = 7 <;> simp [h7, Nat.add_comm]

theorem getLsbD_aslCore (v : Byte) {k : Nat} (hk : k < 8) :
    (aslCore v).1.getLsbD k = if k = 0 then false else v.getLsbD (k - 1) := by
  rw [aslCore_eq_rolCore, getLsbD_rolCore false v hk]

theorem getLsbD_lsrCore (v : Byte) {k : Nat} (hk : k < 8) :
    (lsrCore v).1.getLsbD k = if k = 7 then false else v.getLsbD (k + 1) := by
  rw [lsrCore_eq_rorCore, getLsbD_rorCore false v hk]

/-- Settles O37: the result is each core's bits under the Carry read before it is overwritten, and the flags written are
those every core's shift writes. -/
theorem shiftCoreResults : Obligations.ShiftCoreResults := by
  intro s v
  refine ⟨fun core _ => ?_, fun k hk => ?_, ?_⟩
  · exact ⟨shiftModify_flagsZN core v s, shiftModify_keepsFlags core v s, shiftModify_with_old_p core v s⟩
  · exact ⟨getLsbD_aslCore v hk, getLsbD_rolCore _ v hk, getLsbD_lsrCore v hk, getLsbD_rorCore _ v hk⟩
  · exact ⟨shiftModify_read_c .., shiftModify_read_c .., shiftModify_read_c .., shiftModify_read_c ..⟩

end Sys2Proof.Machine
end

section
/-!
PROOF. The encoding family (`30_encoding.md` R100 to R108): encoder and decoder are inverse to each other. An instruction
is held against its row of the table by its operation tag and its mode; the operand bytes are then read back form by form.
-/

namespace Sys2Proof

/-! ### Facts about every row of the table -/

theorem length_iTable : iTable.length = 256 := by decide +kernel

/-- What holds of the rows in the order of their opcode bytes holds of the row each byte selects. One pass over the table
is much cheaper to check than 256 lookups. -/
theorem forall_descriptor {P : Byte → Descriptor → Prop} (h : ∀ e ∈ iTable.zipIdx, P (BitVec.ofNat 8 e.2) e.1)
    (op : Byte) : P op (descriptor op) := by
  have hlt : op.toNat < iTable.length := length_iTable ▸ op.isLt
  have hrow := h (iTable[op.toNat], op.toNat) (List.mem_zipIdx_iff_getElem?.2 (List.getElem?_eq_getElem hlt))
  rw [BitVec.ofNat_toNat, BitVec.setWidth_eq] at hrow
  rwa [descriptor, List.getD_eq_getElem _ _ hlt]

/-! ### The operation tag and the mode of an instruction -/

/-- The operation tag of an instruction: the constructor. -/
def Instr.op : Instr → Op
  | .lda _ => .lda | .ldx _ => .ldx | .ldy _ => .ldy | .sta _ => .sta | .stx _ => .stx | .sty _ => .sty
  | .tax => .tax | .tay => .tay | .txa => .txa | .tya => .tya | .tsx => .tsx | .txs => .txs
  | .adc _ => .adc | .sbc _ => .sbc | .and _ => .and | .ora _ => .ora | .eor _ => .eor
  | .cmp _ => .cmp | .cpx _ => .cpx | .cpy _ => .cpy | .bit _ => .bit | .inc _ => .inc | .dec _ => .dec
  | .inx => .inx | .iny => .iny | .dex => .dex | .dey => .dey
  | .asl _ => .asl | .lsr _ => .lsr | .rol _ => .rol | .ror _ => .ror
  | .pha => .pha | .pla => .pla | .php => .php | .plp => .plp
  | .bcc _ => .bcc | .bcs _ => .bcs | .beq _ => .beq | .bne _ => .bne
  | .bmi _ => .bmi | .bpl _ => .bpl | .bvc _ => .bvc | .bvs _ => .bvs
  | .jmp _ => .jmp | .jsr _ => .jsr | .rts => .rts | .rti => .rti | .brk => .brk
  | .clc => .clc | .sec => .sec | .cli => .cli | .sei => .sei | .cld => .cld | .sed => .sed | .clv => .clv
  | .nop => .nop
  | .slo _ => .slo | .rla _ => .rla | .sre _ => .sre | .rra _ => .rra | .dcp _ => .dcp | .isc _ => .isc
  | .lax _ => .lax | .sax _ => .sax | .alr _ => .alr | .anc _ _ => .anc | .arr _ => .arr | .axs _ => .axs
  | .sbcDup _ => .sbcDup | .nopDup _ _ => .nopDup | .shx _ => .shx | .shy _ => .shy
  | .stp _ => .stp | .invalid _ => .invalid

/-- The addressing mode of an instruction, as its family rule lists it (R104). -/
def Instr.mode : Instr → Mode
  | .lda o | .ldx o | .ldy o | .adc o | .sbc o | .and o | .ora o | .eor o | .cmp o | .cpx o | .cpy o => o.mode
  | .sta m | .stx m | .sty m | .bit m | .inc m | .dec m
  | .slo m | .rla m | .sre m | .rra m | .dcp m | .isc m | .lax m | .sax m => m.mode
  | .asl o | .lsr o | .rol o | .ror o => o.mode
  | .nopDup _ o => o.mode
  | .jmp t => t.mode
  | .jsr _ => .absolute
  | .shx _ => .absoluteY
  | .shy _ => .absoluteX
  | .bcc _ | .bcs _ | .beq _ | .bne _ | .bmi _ | .bpl _ | .bvc _ | .bvs _ => .relative
  | .alr _ | .anc _ _ | .arr _ | .axs _ | .sbcDup _ => .immediate
  | .tax | .tay | .txa | .tya | .tsx | .txs | .inx | .iny | .dex | .dey
  | .pha | .pla | .php | .plp | .rts | .rti | .brk
  | .clc | .sec | .cli | .sei | .cld | .sed | .clv | .nop
  | .stp _ | .invalid _ => .implied

/-- The row of the table at `op` has this operation and this mode. -/
def HasRow (op : Byte) (o : Op) (mode : Mode) : Prop := (descriptor op).op = o ∧ (descriptor op).mode = mode

/-- A list of encodings and the table agree as soon as they do entry by entry. -/
theorem hasRow_of_encodingOf {encodings : List (Mode × Byte)} {o : Op}
    (hall : ∀ e ∈ encodings, (descriptor e.2).op = o ∧ (descriptor e.2).mode = e.1) {mode : Mode} {b : Byte}
    (h : encodingOf encodings mode = some b) : HasRow b o mode := by
  obtain ⟨before, after, rfl, -⟩ := List.lookup_eq_some_iff.1 h
  exact hall (mode, b) (by simp)

/-- The opcode byte the family rules give a well-formed instruction selects its row of the table (R105, R106). -/
theorem hasRow_of_opcode {i : Instr} {b : Byte} (hw : i.wellFormed = true) (h : i.opcode? = some b) :
    HasRow b i.op i.mode := by
  cases i with
  | anc c v =>
    obtain rfl := Option.some.inj h
    have hall : ∀ c ∈ ancOpcodes, HasRow c .anc .immediate := by unfold HasRow; decide +kernel
    exact hall _ (by simpa [Instr.wellFormed] using hw)
  | nopDup c o =>
    obtain rfl := Option.some.inj h
    have hall : ∀ e ∈ nopDupEncodings, HasRow e.1 .nopDup e.2 := by unfold HasRow; decide +kernel
    exact hall (c, o.mode) (by simpa [Instr.wellFormed] using hw)
  | stp c =>
    obtain rfl := Option.some.inj h
    have hall : ∀ c ∈ stpOpcodes, HasRow c .stp .implied := by unfold HasRow; decide +kernel
    exact hall _ (by simpa [Instr.wellFormed] using hw)
  | invalid c =>
    obtain rfl := Option.some.inj h
    have hall : ∀ c ∈ invalidOpcodes, HasRow c .invalid .implied := by unfold HasRow; decide +kernel
    exact hall _ (by simpa [Instr.wellFormed] using hw)
  | lda | ldx | ldy | sta | stx | sty | adc | sbc | and | ora | eor | cmp | cpx | cpy | bit | inc | dec
  | asl | lsr | rol | ror | jmp | slo | rla | sre | rra | dcp | isc | lax | sax =>
    exact hasRow_of_encodingOf (by simp only [Instr.op]; decide +kernel) h
  | _ =>
    obtain rfl := Option.some.inj h
    exact ⟨rfl, rfl⟩

/-! ### Operand bytes (R101, R104) -/

/-- The two operand bytes of a literal, read back. -/
theorem memOperand_bytes (m : Mem) : memOperand m.mode (m.bytes.getD 0 0) (m.bytes.getD 1 0) = some m := by
  cases m <;> simp [Mem.mode, Mem.bytes, literalBytes, memOperand]

theorem srcOperand_bytes (o : Src) : srcOperand o.mode (o.bytes.getD 0 0) (o.bytes.getD 1 0) = some o := by
  cases o with
  | immediate v => rfl
  | mem m =>
    have h := memOperand_bytes m
    cases m <;> exact congrArg (Option.map Src.mem) h

theorem shiftOperand_bytes (o : Shiftee) :
    shiftOperand o.mode ((Instr.asl o).operandBytes.getD 0 0) ((Instr.asl o).operandBytes.getD 1 0) = some o := by
  cases o with
  | accumulator => rfl
  | mem m =>
    have h := memOperand_bytes m
    cases m <;> exact congrArg (Option.map Shiftee.mem) h

theorem jumpOperand_bytes (t : JumpTarget) :
    jumpOperand t.mode ((Instr.jmp t).operandBytes.getD 0 0) ((Instr.jmp t).operandBytes.getD 1 0) = some t := by
  cases t <;> simp [JumpTarget.mode, Instr.operandBytes, literalBytes, jumpOperand]

theorem nopOperand_bytes (b : Byte) (o : NopOperand) :
    nopOperand o.mode ((Instr.nopDup b o).operandBytes.getD 0 0) ((Instr.nopDup b o).operandBytes.getD 1 0) = some o := by
  cases o with
  | implied | immediate v => rfl
  | mem m =>
    have h := memOperand_bytes m
    cases m <;> exact congrArg (Option.map NopOperand.mem) h

/-- The operand bytes of an instruction, put back into the form its row has, are the instruction. -/
theorem instrOfOp_operandBytes {i : Instr} {b : Byte} {d : Descriptor} (hb : i.opcode? = some b)
    (hop : d.op = i.op) (hmode : d.mode = i.mode) :
    instrOfOp d b (i.operandBytes.getD 0 0) (i.operandBytes.getD 1 0) = some i := by
  obtain ⟨op, mode, length, base, bonus⟩ := d
  subst hop hmode
  cases i with
  | lda o | ldx o | ldy o | adc o | sbc o | and o | ora o | eor o | cmp o | cpx o | cpy o =>
    exact Option.map_eq_some_iff.2 ⟨o, srcOperand_bytes o, rfl⟩
  | sta m | stx m | sty m | bit m | inc m | dec m | slo m | rla m | sre m | rra m | dcp m | isc m | lax m | sax m =>
    exact Option.map_eq_some_iff.2 ⟨m, memOperand_bytes m, rfl⟩
  | asl o | lsr o | rol o | ror o => exact Option.map_eq_some_iff.2 ⟨o, shiftOperand_bytes o, rfl⟩
  | jmp t => exact Option.map_eq_some_iff.2 ⟨t, jumpOperand_bytes t, rfl⟩
  | jsr w => exact congrArg (some ∘ Instr.jsr) (word_hiByte_loByte w)
  | shx w => exact congrArg (some ∘ Instr.shx) (word_hiByte_loByte w)
  | shy w => exact congrArg (some ∘ Instr.shy) (word_hiByte_loByte w)
  | nopDup c o =>
    obtain rfl := Option.some.inj hb
    exact Option.map_eq_some_iff.2 ⟨o, nopOperand_bytes c o, rfl⟩
  | anc c v | stp c | invalid c =>
    obtain rfl := Option.some.inj hb
    rfl
  | _ => rfl

open Laws in
/-- The encoding of a well-formed instruction is as long as the instruction (R101, R102). -/
theorem encode_length {i : Instr} (hw : i.wellFormed = true) : (encode i).length = i.length := by
  have h : EncodedLength.Statement i := by
    cases i
    exacts [EncodedLength.lda _, EncodedLength.ldx _, EncodedLength.ldy _, EncodedLength.sta _, EncodedLength.stx _,
      EncodedLength.sty _, EncodedLength.tax, EncodedLength.tay, EncodedLength.txa, EncodedLength.tya,
      EncodedLength.tsx, EncodedLength.txs, EncodedLength.adc _, EncodedLength.sbc _, EncodedLength.and _,
      EncodedLength.ora _, EncodedLength.eor _, EncodedLength.cmp _, EncodedLength.cpx _, EncodedLength.cpy _,
      EncodedLength.bit _, EncodedLength.inc _, EncodedLength.dec _, EncodedLength.inx, EncodedLength.iny,
      EncodedLength.dex, EncodedLength.dey, EncodedLength.asl _, EncodedLength.lsr _, EncodedLength.rol _,
      EncodedLength.ror _, EncodedLength.pha, EncodedLength.pla, EncodedLength.php, EncodedLength.plp,
      EncodedLength.bcc _, EncodedLength.bcs _, EncodedLength.beq _, EncodedLength.bne _, EncodedLength.bmi _,
      EncodedLength.bpl _, EncodedLength.bvc _, EncodedLength.bvs _, EncodedLength.jmp _, EncodedLength.jsr _,
      EncodedLength.rts, EncodedLength.rti, EncodedLength.brk, EncodedLength.clc, EncodedLength.sec,
      EncodedLength.cli, EncodedLength.sei, EncodedLength.cld, EncodedLength.sed, EncodedLength.clv,
      EncodedLength.nop, EncodedLength.slo _, EncodedLength.rla _, EncodedLength.sre _, EncodedLength.rra _,
      EncodedLength.dcp _, EncodedLength.isc _, EncodedLength.lax _, EncodedLength.sax _, EncodedLength.alr _,
      EncodedLength.anc _ _, EncodedLength.arr _, EncodedLength.axs _, EncodedLength.sbcDup _,
      EncodedLength.nopDup _ _, EncodedLength.shx _, EncodedLength.shy _, EncodedLength.stp _,
      EncodedLength.invalid _]
  exact h hw

theorem Mode.length_pos (m : Mode) : 0 < m.length := by cases m <;> decide

theorem Instr.length_pos (i : Instr) : 0 < i.length := by
  cases i <;> first | exact Mode.length_pos _ | exact Nat.succ_pos _

/-- The encoding of a well-formed instruction is its opcode byte and its operand bytes. -/
theorem encode_of_wellFormed {i : Instr} (hw : i.wellFormed = true) :
    ∃ b, i.opcode? = some b ∧ encode i = b :: i.operandBytes := by
  have hlen := encode_length hw
  cases h : i.opcode? with
  | some b => exact ⟨b, rfl, by rw [encode, h]⟩
  | none =>
    rw [encode, h, List.length_nil] at hlen
    exact absurd hlen (Instr.length_pos i).ne

/-! ### The decoder on an opcode byte and its operand bytes (R101, R102) -/

theorem decode_append {b : Byte} {bytes : List Byte} (h : bytes.length + 1 = (descriptor b).length) (rest : List Byte) :
    decode (b :: bytes ++ rest) = .ok (instrOf b (bytes.getD 0 0) (bytes.getD 1 0), rest) := by
  rcases descriptor_length_cases b with hd | hd | hd
  · obtain rfl : bytes = [] := List.length_eq_zero_iff.1 (by omega)
    simp [decode, hd]
  · obtain ⟨i, rfl⟩ := List.length_eq_one_iff.1 (show bytes.length = 1 by omega)
    simp [decode, hd]
  · obtain ⟨i, j, rfl⟩ := List.length_eq_two.1 (show bytes.length = 2 by omega)
    simp [decode, hd]

/-- Settles O1: the opcode byte selects the row of the instruction's operation and mode, and the operand bytes are those
the decoder takes. -/
theorem decodeOfEncode : Obligations.DecodeOfEncode := by
  intro i bytes hw
  obtain ⟨b, hb, henc⟩ := encode_of_wellFormed hw
  obtain ⟨hop, hmode⟩ := hasRow_of_opcode hw hb
  have hi : instrOf b (i.operandBytes.getD 0 0) (i.operandBytes.getD 1 0) = i := by
    rw [instrOf, instrOfOp_operandBytes hb hop hmode, Option.getD_some]
  have hlen : i.operandBytes.length + 1 = (descriptor b).length := by
    rw [← instrOf_length b, hi, ← encode_length hw, henc, List.length_cons]
  rw [henc, decode_append hlen, hi]

/-! ### What the decoder accepts (R102) -/

/-- A decoded instruction, with the operand bytes it was made of. -/
theorem decode_eq_ok {bs rest : List Byte} {i : Instr} (h : decode bs = .ok (i, rest)) :
    ∃ op operands, bs = op :: operands ++ rest ∧ operands.length + 1 = (descriptor op).length ∧
      i = instrOf op (operands.getD 0 0) (operands.getD 1 0) := by
  cases bs with
  | nil => cases h
  | cons op bs =>
    rcases descriptor_length_cases op with hd | hd | hd
    · simp only [decode, hd, Except.ok.injEq, Prod.mk.injEq] at h
      obtain ⟨rfl, rfl⟩ := h
      exact ⟨op, [], rfl, hd.symm, rfl⟩
    · rcases bs with _ | ⟨a, bs⟩ <;> simp only [decode, hd, reduceCtorEq, Except.ok.injEq, Prod.mk.injEq] at h
      obtain ⟨rfl, rfl⟩ := h
      exact ⟨op, [a], rfl, hd.symm, rfl⟩
    · rcases bs with _ | ⟨a, _ | ⟨b, bs⟩⟩ <;>
        simp only [decode, hd, reduceCtorEq, Except.ok.injEq, Prod.mk.injEq] at h
      obtain ⟨rfl, rfl⟩ := h
      exact ⟨op, [a, b], rfl, hd.symm, rfl⟩

/-- The decoder rejects as truncated exactly the sequences shorter than the opcode's length. -/
theorem decode_eq_truncated_iff (op : Byte) (rest : List Byte) :
    decode (op :: rest) = .error (.truncated op) ↔ rest.length + 1 < (descriptor op).length := by
  rcases descriptor_length_cases op with hd | hd | hd
  · simp [decode, hd]
  · rcases rest with _ | ⟨a, rest⟩ <;> simp [decode, hd]
  · rcases rest with _ | ⟨a, _ | ⟨b, rest⟩⟩ <;> simp [decode, hd]

/-! ### The operand bytes of a decoded instruction (R101, R104) -/

theorem memOperand_eq_bytes {mode : Mode} {i j : Byte} {m : Mem} (h : memOperand mode i j = some m) :
    m.bytes = [i, j].take (m.mode.length - 1) := by
  cases mode <;> simp [memOperand] at h <;> subst h <;> simp [Mem.bytes, literalBytes, Mem.mode, Mode.length]

theorem srcOperand_eq_mem {mode : Mode} {i j : Byte} {m : Mem} (h : srcOperand mode i j = some (.mem m)) :
    memOperand mode i j = some m := by
  cases mode <;> simp_all [srcOperand]

theorem shiftOperand_eq_mem {mode : Mode} {i j : Byte} {m : Mem} (h : shiftOperand mode i j = some (.mem m)) :
    memOperand mode i j = some m := by
  cases mode <;> simp_all [shiftOperand]

theorem nopOperand_eq_mem {mode : Mode} {i j : Byte} {m : Mem} (h : nopOperand mode i j = some (.mem m)) :
    memOperand mode i j = some m := by
  cases mode <;> simp_all [nopOperand]

/-- The operand bytes of a decoded instruction are those it was decoded from, as many as it is long. -/
theorem operandBytes_of_instrOfOp {d : Descriptor} {op i j : Byte} {x : Instr} (h : instrOfOp d op i j = some x) :
    x.operandBytes = [i, j].take (x.length - 1) := by
  obtain ⟨o, mode, length, base, bonus⟩ := d
  cases o with
  | lda | ldx | ldy | adc | sbc | and | ora | eor | cmp | cpx | cpy =>
    obtain ⟨y, hy, rfl⟩ := Option.map_eq_some_iff.1 h
    cases y with
    | immediate v => cases mode <;> simp [srcOperand, memOperand] at hy; subst hy; rfl
    | mem m => exact memOperand_eq_bytes (srcOperand_eq_mem hy)
  | sta | stx | sty | bit | inc | dec | slo | rla | sre | rra | dcp | isc | lax | sax =>
    obtain ⟨m, hm, rfl⟩ := Option.map_eq_some_iff.1 h
    exact memOperand_eq_bytes hm
  | asl | lsr | rol | ror =>
    obtain ⟨y, hy, rfl⟩ := Option.map_eq_some_iff.1 h
    cases y with
    | accumulator => rfl
    | mem m => exact memOperand_eq_bytes (shiftOperand_eq_mem hy)
  | nopDup =>
    obtain ⟨y, hy, rfl⟩ := Option.map_eq_some_iff.1 h
    cases y with
    | implied => rfl
    | immediate v => cases mode <;> simp [nopOperand, memOperand] at hy; subst hy; rfl
    | mem m => exact memOperand_eq_bytes (nopOperand_eq_mem hy)
  | jmp =>
    obtain ⟨t, ht, rfl⟩ := Option.map_eq_some_iff.1 h
    cases mode <;> simp [jumpOperand] at ht <;> subst ht <;>
      simp [Instr.operandBytes, literalBytes, Instr.length, JumpTarget.mode, Mode.length]
  | jsr | shx | shy =>
    obtain rfl := Option.some.inj h
    simp [Instr.operandBytes, literalBytes, Instr.length]
  | _ =>
    obtain rfl := Option.some.inj h
    rfl

/-! ### Well-formedness and opcode of a decoded instruction: the same at every operand value -/

/-- Two instructions of one row differ in their operand bytes at most. -/
theorem form_of_instrOfOp {d : Descriptor} {op i j k l : Byte} {x y : Instr} (hx : instrOfOp d op i j = some x)
    (hy : instrOfOp d op k l = some y) : x.wellFormed = y.wellFormed ∧ x.opcode? = y.opcode? := by
  obtain ⟨o, mode, length, base, bonus⟩ := d
  cases o with
  | lda | ldx | ldy | adc | sbc | and | ora | eor | cmp | cpx | cpy =>
    obtain ⟨u, hu, rfl⟩ := Option.map_eq_some_iff.1 hx
    obtain ⟨v, hv, rfl⟩ := Option.map_eq_some_iff.1 hy
    simp only [Instr.wellFormed, Instr.opcode?, srcOperand_mode hu, srcOperand_mode hv, and_self]
  | sta | stx | sty | bit | inc | dec | slo | rla | sre | rra | dcp | isc | lax | sax =>
    obtain ⟨u, hu, rfl⟩ := Option.map_eq_some_iff.1 hx
    obtain ⟨v, hv, rfl⟩ := Option.map_eq_some_iff.1 hy
    simp only [Instr.wellFormed, Instr.opcode?, memOperand_mode hu, memOperand_mode hv, and_self]
  | asl | lsr | rol | ror =>
    obtain ⟨u, hu, rfl⟩ := Option.map_eq_some_iff.1 hx
    obtain ⟨v, hv, rfl⟩ := Option.map_eq_some_iff.1 hy
    simp only [Instr.wellFormed, Instr.opcode?, shiftOperand_mode hu, shiftOperand_mode hv, and_self]
  | nopDup =>
    obtain ⟨u, hu, rfl⟩ := Option.map_eq_some_iff.1 hx
    obtain ⟨v, hv, rfl⟩ := Option.map_eq_some_iff.1 hy
    simp only [Instr.wellFormed, Instr.opcode?, nopOperand_mode hu, nopOperand_mode hv, and_self]
  | jmp =>
    obtain ⟨u, hu, rfl⟩ := Option.map_eq_some_iff.1 hx
    obtain ⟨v, hv, rfl⟩ := Option.map_eq_some_iff.1 hy
    simp only [Instr.wellFormed, Instr.opcode?, jumpOperand_mode hu, jumpOperand_mode hv, and_self]
  | _ =>
    obtain rfl := Option.some.inj hx
    obtain rfl := Option.some.inj hy
    exact ⟨rfl, rfl⟩

/-- Whether a row has such a form does not depend on the operand bytes. -/
theorem isSome_instrOfOp (d : Descriptor) (op i j k l : Byte) :
    (instrOfOp d op i j).isSome = (instrOfOp d op k l).isSome := by
  obtain ⟨o, mode, length, base, bonus⟩ := d
  cases o with
  | lda | ldx | ldy | adc | sbc | and | ora | eor | cmp | cpx | cpy | sta | stx | sty | bit | inc | dec | slo | rla | sre
  | rra | dcp | isc | lax | sax | asl | lsr | rol | ror | nopDup | jmp =>
    simp only [instrOfOp, Option.isSome_map]
    cases mode <;> rfl
  | _ => rfl

/-- At zero operand bytes every row has the form its operation and mode name, and that form is well formed and has the
row's opcode byte (R103, R105, R106). -/
theorem exists_instrOfOp_zero (op : Byte) : ∃ x, instrOfOp (descriptor op) op 0 0 = some x ∧
    (x.wellFormed && x.opcode? == some op) = true := by
  have hrows : ∀ e ∈ iTable.zipIdx, (instrOfOp e.1 (BitVec.ofNat 8 e.2) 0 0).any
      (fun x => x.wellFormed && x.opcode? == some (BitVec.ofNat 8 e.2)) = true := by decide +kernel
  have hrow := forall_descriptor (P := fun op d => (instrOfOp d op 0 0).any
    (fun x => x.wellFormed && x.opcode? == some op) = true) hrows op
  exact (Option.any_eq_true _ _).1 hrow

theorem instrOfOp_descriptor (op i j : Byte) : instrOfOp (descriptor op) op i j = some (instrOf op i j) := by
  obtain ⟨y, hy, -⟩ := exists_instrOfOp_zero op
  have hsome := isSome_instrOfOp (descriptor op) op i j 0 0
  rw [hy] at hsome
  obtain ⟨x, hx⟩ := Option.isSome_iff_exists.1 hsome
  rw [instrOf, hx, Option.getD_some]

/-- Every decoded instruction is well formed and has the opcode byte it was decoded from. -/
theorem form_instrOf (op i j : Byte) : (instrOf op i j).wellFormed = true ∧ (instrOf op i j).opcode? = some op := by
  obtain ⟨y, hy, hform⟩ := exists_instrOfOp_zero op
  obtain ⟨hw, hop⟩ := form_of_instrOfOp (instrOfOp_descriptor op i j) hy
  rw [hw, hop]
  simpa using hform

/-- A decoded instruction encodes to the bytes it was decoded from. -/
theorem encode_instrOf {op : Byte} {operands : List Byte} (h : operands.length + 1 = (descriptor op).length) :
    encode (instrOf op (operands.getD 0 0) (operands.getD 1 0)) = op :: operands := by
  rw [encode, (form_instrOf ..).2]
  refine congrArg (op :: ·) ?_
  rw [operandBytes_of_instrOfOp (instrOfOp_descriptor ..), instrOf_length, ← h]
  rcases operands with _ | ⟨a, _ | ⟨b, _ | ⟨c, operands⟩⟩⟩
  · rfl
  · rfl
  · rfl
  · rcases descriptor_length_cases op with hd | hd | hd <;> simp [hd] at h

/-- Settles O2: a decoded instruction is well formed and encodes to its bytes because its opcode's row does, whatever
the operand bytes. -/
theorem encodeOfDecode : Obligations.EncodeOfDecode := by
  refine ⟨fun bs i rest h => ?_, rfl, decode_eq_truncated_iff⟩
  obtain ⟨op, operands, rfl, hlen, rfl⟩ := decode_eq_ok h
  exact ⟨(form_instrOf ..).1, by rw [encode_instrOf hlen]⟩

/-! ### The table (R103, R104, R108) -/

theorem descriptor_eq_sentinel_iff (op : Byte) :
    descriptor op = sentinel ↔ op ∈ [0x8B, 0x93, 0x9B, 0x9F, 0xAB, 0xBB] :=
  forall_descriptor (P := fun op d => d = sentinel ↔ op ∈ [0x8B, 0x93, 0x9B, 0x9F, 0xAB, 0xBB]) (by decide +kernel) op

theorem descriptor_length_eq_mode_length (op : Byte) : (descriptor op).length = (descriptor op).mode.length :=
  forall_descriptor (P := fun _ d => d.length = d.mode.length) (by decide +kernel) op

/-- Settles O3: two counts of the table, two facts about every row, and thirteen words. -/
theorem tableAndWords : Obligations.TableAndWords := by
  refine ⟨length_iTable, by decide +kernel, descriptor_eq_sentinel_iff, descriptor_length_eq_mode_length,
    rfl, rfl, rfl, rfl, rfl, rfl, rfl, rfl, rfl, rfl, rfl, rfl, rfl⟩

end Sys2Proof
end

section
/-!
PROOF. The step family (`60_exceptions.md` R280 to R291): what a whole step does to the state is what its fetch and its one
instruction do, `Steady` for every instruction but STP. Everything here is read off that.
-/

namespace Sys2Proof.Machine

/-! ### The two branches of a step (R280, R283) -/

theorem step_of_stopped {s : State} (h : s.run = .stopped) :
    step s = .next s.beginStep.raiseHalt := by simp only [step, h]

theorem step_of_fetch {s t : State} {i : Instr} (hr : s.run = .running) (hf : fetch s.beginStep = .ok (i, t)) :
    step s = exec i t := by
  simp only [step, hr, hf]

theorem step_of_not_busOk {s : State} (hr : s.run = .running) (h : s.busOk s.pc = false) :
    step s = .fault .noMapperInvoked := by
  simp only [step, hr, fetch_beginStep, h, Bool.false_eq_true, if_false]

/-! ### One step, from the state in which it starts -/

/-- STP evolves the state like any instruction; only the run state sets it apart (R267). -/
theorem Evolves.execStp (b : Byte) {s t : State} (h : exec (.stp b) s = .next t) : Evolves s t := by
  rw [← Host.Outcome.next.inj h]
  exact Evolves.of_registers rfl rfl rfl rfl ⟨rfl, rfl, rfl, rfl, rfl⟩ rfl rfl

theorem execStp_p (b : Byte) {s t : State} (h : exec (.stp b) s = .next t) : t.p = s.p := by
  rw [← Host.Outcome.next.inj h]; rfl

/-- Every instruction evolves the state by bus operations and keeps Unused and Break. -/
theorem exec_evolves {i : Instr} {s t : State} (h : exec i s = .next t) :
    Evolves s t ∧ (s.statusOk = true → t.statusOk = true) := by
  by_cases hi : ∃ b, i = .stp b
  · obtain ⟨b, rfl⟩ := hi
    have hp := execStp_p b h
    exact ⟨Evolves.execStp b h, statusOk_congr (by rw [hp]) (by rw [hp])⟩
  · have hsteady := exec_steady (fun b hb => hi ⟨b, hb⟩) h
    exact ⟨hsteady.evolves, hsteady.status⟩

/-- Every step does, from the state in which it starts. -/
theorem step_evolves {s t : State} (h : step s = .next t) :
    Evolves s.beginStep t ∧ (s.statusOk = true → t.statusOk = true) := by
  rcases step_eq_next h with ⟨-, rfl⟩ | ⟨-, i, -, hexec⟩
  · exact ⟨Evolves.of_registers rfl rfl rfl rfl ⟨rfl, rfl, rfl, rfl, rfl⟩ rfl rfl, id⟩
  · have hfetch := Steady.afterFetch s i.length
    obtain ⟨hev, hst⟩ := exec_evolves hexec
    exact ⟨hfetch.evolves.trans hev, fun hs => hst (hfetch.status hs)⟩

/-- The record of a step starts empty, so it holds the step's own events and no others. -/
theorem step_bus {s t : State} (h : step s = .next t) :
    BytesAfter (writesOf t.events) s.beginStep t ∧ t.gfx = s.gfx ++ callsOf t.events ∧
      ReadsLatest s.beginStep t.events := by
  obtain ⟨es, hes, hbytes, hcalls, hreads⟩ := (step_evolves h).1.bus
  obtain rfl : t.events = es := hes
  exact ⟨hbytes, hcalls, hreads⟩

/-- Settles O6: a step evolves by operations that keep the memories and the mapper, and keeps Unused and Break. -/
theorem stepKeepsWellFormed : Obligations.StepKeepsWellFormed := by
  intro s t hwf h
  obtain ⟨hev, hst⟩ := step_evolves h
  simp only [State.wellFormed, State.mapperOk, Bool.and_eq_true, beq_iff_eq] at hwf ⊢
  obtain ⟨⟨hstatus, hmem⟩, hmapper⟩ := hwf
  exact ⟨⟨hst hstatus, hev.memories hmem⟩, hev.constants.1.trans hmapper⟩

/-- Settles O14: clearing the record changes no byte, so the bytes a step starts from are those of the state before it. -/
theorem stepIsSequentiallyConsistent : Obligations.StepIsSequentiallyConsistent := by
  intro s t h
  obtain ⟨hbytes, -, hreads⟩ := step_bus h
  exact ⟨hbytes, hreads⟩

/-- Settles O15: the calls a step records are those its events stand for, and only a call changes the graphics memories. -/
theorem stepCallsOncePerAccess : Obligations.StepCallsOncePerAccess := by
  intro s t h
  have hev := (step_evolves h).1
  obtain ⟨-, hcalls, -⟩ := step_bus h
  exact ⟨hcalls, fun hnone => hev.graphics (by rw [hcalls, hnone, List.append_nil]; rfl), hev.constants⟩

/-! ### The instructions that make their accesses themselves: an answer, or the guard mapper's fault -/

theorem toResult_memWrite (a : Word) (v : Byte) (s : State) (f : State → State) :
    toResult (do let t ← memWrite a v s; pure (f t)) =
      if s.busOk a = true then .next (f (s.afterWrite a v)) else .fault .noMapperInvoked := by
  cases h : s.busOk a <;> simp [memWrite, h, toResult, bind, Except.bind, pure, Except.pure]

theorem toResult_memReadWord (lo hi : Word) (s : State) (f : Word → State → State) :
    toResult (do let (w, t) ← memReadWord lo hi s; pure (f w t)) =
      if s.busOk lo = true ∧ s.busOk hi = true then
        .next (f (word ((s.afterRead lo).readByte hi) (s.readByte lo)) ((s.afterRead lo).afterRead hi))
      else .fault .noMapperInvoked := by
  have e : (s.afterRead lo).busOk hi = s.busOk hi := busOk_congr rfl hi
  cases h1 : s.busOk lo <;> cases h2 : s.busOk hi <;>
    simp [memReadWord, memRead, h1, h2, e, toResult, bind, Except.bind, pure, Except.pure]

theorem exec_shx (w : Word) (s : State) :
    let a := highAndAddr (indexed w s.y) (highAnd s.x w)
    exec (.shx w) s = if s.busOk a = true then
        .next (((s.advance 3).afterWrite a (highAnd s.x w)).finishOk (cycles (.shx w) (indexed w s.y).crossed))
      else .fault .noMapperInvoked :=
  toResult_memWrite _ _ (s.advance 3) (·.finishOk _)

theorem exec_shy (w : Word) (s : State) :
    let a := highAndAddr (indexed w s.x) (highAnd s.y w)
    exec (.shy w) s = if s.busOk a = true then
        .next (((s.advance 3).afterWrite a (highAnd s.y w)).finishOk (cycles (.shy w) (indexed w s.x).crossed))
      else .fault .noMapperInvoked :=
  toResult_memWrite _ _ (s.advance 3) (·.finishOk _)

theorem exec_jmp_indirect (ptr : Word) (s : State) :
    exec (.jmp (.indirect ptr)) s = if s.busOk ptr = true ∧ s.busOk (pointerHigh ptr) = true then
        .next ((((s.afterRead ptr).afterRead (pointerHigh ptr)).jump
          (word ((s.afterRead ptr).readByte (pointerHigh ptr)) (s.readByte ptr))).finishOk
            (cycles (.jmp (.indirect ptr)) false))
      else .fault .noMapperInvoked :=
  toResult_memReadWord _ _ s fun w t => (t.jump w).finishOk _

/-- BRK, from the state in which it has saved PC and status. -/
theorem exec_brk (s : State) :
    let u := (s.advance 1).saveForBreak
    exec .brk s = if s.mapper = .nrom then
        .next ((((u.afterRead brkVector).afterRead (brkVector + 1)).jump
          (word ((u.afterRead brkVector).readByte (brkVector + 1)) (u.readByte brkVector))).finishOk (cycles .brk false))
      else .fault .noMapperInvoked := by
  intro u
  have hmapper : u.mapper = s.mapper := by simp [u]
  have hbus : (u.busOk brkVector = true ∧ u.busOk (brkVector + 1) = true) ↔ s.mapper = .nrom := by
    rw [busOk_iff, busOk_iff, hmapper]; simp [brkVector]
  have h := toResult_memReadWord brkVector (brkVector + 1) u fun w t => (t.jump w).finishOk (cycles .brk false)
  simp only [hbus] at h
  rw [← h]
  simp only [exec, execBrk, takeBreak, bind_assoc, pure_bind]
  rfl

/-! ### How an instruction ends (R280, R284) -/

/-- An instruction that completes: its outcome is `Ok`, unless the guard mapper makes it fault. -/
def Finishes (s : State) : Result → Prop
  | .next t => ∃ n, t.outcome = some (.ok n)
  | .fault _ => s.mapper = .noMapper
  | .refused _ => False

theorem mapper_of_not_nrom {s : State} (h : s.mapper ≠ .nrom) : s.mapper = .noMapper := by
  cases hm : s.mapper <;> simp_all

theorem mapper_of_not_busOk {s : State} {b : Word} (h : ¬s.busOk b = true) : s.mapper = .noMapper :=
  mapper_of_not_nrom fun hm => h (busOk_of_nrom hm b)

/-- An answer with the outcome `Ok` where the accesses are answered, a fault elsewhere. -/
theorem Finishes.ite {s t : State} {c : Prop} [Decidable c] {n : Nat} (hc : ¬c → s.mapper = .noMapper) :
    Finishes s (if c then .next (t.finishOk n) else .fault .noMapperInvoked) := by
  split
  · exact ⟨n, rfl⟩
  · exact hc ‹_›

theorem readInstr_finishes (i : Instr) (o : Src) (k : Byte → State → State) (s : State) :
    Finishes s (readInstr i o k s) := by
  refine Finishes.ite fun ho => ?_
  cases o with
  | immediate v => exact absurd rfl ho
  | mem m => exact mapper_of_not_busOk ho

theorem storeInstr_finishes (i : Instr) (m : Mem) (f : State → Byte) (s : State) : Finishes s (storeInstr i m f s) := by
  cases h : s.busOk (s.effAddr m)
  · rw [storeInstr_of_not_ok i f h]; exact mapper_of_not_busOk (ne_true_of_eq_false h)
  · rw [storeInstr_of_ok i f h]; exact ⟨_, rfl⟩

theorem modifyInstr_finishes (i : Instr) (m : Mem) (f : Byte → State → Byte × State) (k : Byte → State → State)
    (hf : ∀ v t, (f v t).2.mapper = t.mapper) (s : State) : Finishes s (modifyInstr i m f k s) := by
  cases h : s.busOk (s.effAddr m)
  · rw [modifyInstr_of_not_ok i f k h]; exact mapper_of_not_busOk (ne_true_of_eq_false h)
  · rw [modifyInstr_of_ok i f k hf h]; exact ⟨_, rfl⟩

theorem shiftInstr_finishes (i : Instr) (o : Shiftee) (core : Bool → Byte → Byte × Bool) (s : State) :
    Finishes s (shiftInstr i o core s) := by
  cases o with
  | accumulator => exact ⟨_, rfl⟩
  | mem m => rw [shiftInstr]; exact modifyInstr_finishes i m _ _ (shiftModify_mapper core) s

/-- Every instruction but STP and the sentinel completes (R280). -/
theorem exec_finishes {i : Instr} (hstp : ∀ b, i ≠ .stp b) (hinv : ∀ b, i ≠ .invalid b) (s : State) :
    Finishes s (exec i s) := by
  cases i with
  | lda o | ldx o | ldy o | adc o | sbc o | and o | ora o | eor o | cmp o | cpx o | cpy o =>
    rw [exec]; exact readInstr_finishes _ o _ s
  | bit m | lax m => rw [exec]; exact readInstr_finishes _ (.mem m) _ s
  | alr v | anc b v | arr v | axs v | sbcDup v => rw [exec]; exact readInstr_finishes _ (.immediate v) _ s
  | sta m | stx m | sty m | sax m => rw [exec]; exact storeInstr_finishes _ m _ s
  | inc m | dec m | dcp m | isc m => rw [exec]; exact modifyInstr_finishes _ m _ _ (stepModify_mapper _) s
  | slo m | rla m | sre m | rra m => rw [exec]; exact modifyInstr_finishes _ m _ _ (shiftModify_mapper _) s
  | asl o | lsr o | rol o | ror o => rw [exec]; exact shiftInstr_finishes _ o _ s
  | jmp t =>
    cases t with
    | absolute w => exact ⟨_, rfl⟩
    | indirect ptr =>
      rw [exec_jmp_indirect]
      exact Finishes.ite fun h => mapper_of_not_nrom fun hm => h ⟨busOk_of_nrom hm _, busOk_of_nrom hm _⟩
  | brk => rw [exec_brk]; exact Finishes.ite mapper_of_not_nrom
  | shx w => rw [exec_shx]; exact Finishes.ite mapper_of_not_busOk
  | shy w => rw [exec_shy]; exact Finishes.ite mapper_of_not_busOk
  | nopDup b o => cases o <;> exact ⟨_, rfl⟩
  | stp b => exact absurd rfl (hstp b)
  | invalid b => exact absurd rfl (hinv b)
  | _ => exact ⟨_, rfl⟩

/-- How an instruction that answers a next state ends: with the outcome of its kind. -/
theorem exec_outcome {i : Instr} {s t : State} (h : exec i s = .next t) :
    (∃ n, t.outcome = some (.ok n)) ∨ (∃ b, i = .invalid b ∧ t.outcome = some (.decodeError b)) ∨
      ∃ b, i = .stp b ∧ t.outcome = some .halt := by
  by_cases hstp : ∃ b, i = .stp b
  · obtain ⟨b, rfl⟩ := hstp
    exact .inr (.inr ⟨b, rfl, by rw [← Host.Outcome.next.inj h]; rfl⟩)
  by_cases hinv : ∃ b, i = .invalid b
  · obtain ⟨b, rfl⟩ := hinv
    exact .inr (.inl ⟨b, rfl, by rw [← Host.Outcome.next.inj h]; rfl⟩)
  · have hfin := exec_finishes (fun b hb => hstp ⟨b, hb⟩) (fun b hb => hinv ⟨b, hb⟩) s
    rw [h] at hfin
    exact .inl hfin

/-- With NROM every instruction answers a next state. -/
theorem exec_answers {s : State} (hm : s.mapper = .nrom) (i : Instr) : ∃ t, exec i s = .next t := by
  by_cases hstp : ∃ b, i = .stp b
  · obtain ⟨b, rfl⟩ := hstp; exact ⟨_, rfl⟩
  by_cases hinv : ∃ b, i = .invalid b
  · obtain ⟨b, rfl⟩ := hinv; exact ⟨_, rfl⟩
  · have hfin := exec_finishes (fun b hb => hstp ⟨b, hb⟩) (fun b hb => hinv ⟨b, hb⟩) s
    cases hr : exec i s with
    | next t => exact ⟨t, rfl⟩
    | fault r => rw [hr] at hfin; cases hm.symm.trans hfin
    | refused r => rw [hr] at hfin; exact hfin.elim

/-- How a step that answers a next state ends. -/
theorem step_outcome {s t : State} (h : step s = .next t) : ∃ o, t.outcome = some o := by
  rcases step_eq_next h with ⟨-, rfl⟩ | ⟨-, i, -, hexec⟩
  · exact ⟨_, rfl⟩
  · rcases exec_outcome hexec with ⟨n, hn⟩ | ⟨b, -, hb⟩ | ⟨b, -, hb⟩
    · exact ⟨_, hn⟩
    · exact ⟨_, hb⟩
    · exact ⟨_, hb⟩

theorem afterFetch_mapper (s : State) (k : Nat) : (s.afterFetch k).mapper = s.mapper :=
  (Steady.afterFetch s k).evolves.constants.1

/-- Settles O8: the fetch of an NROM machine is answered, and so is every instruction. -/
theorem stepAlwaysAnswers : Obligations.StepAlwaysAnswers := by
  intro s hm
  have hanswer : ∃ t, step s = .next t := by
    cases hr : s.run with
    | stopped => exact ⟨_, step_of_stopped hr⟩
    | running =>
      have hbus : ∀ b, s.busOk b = true := busOk_of_nrom hm
      obtain ⟨i, u, hf⟩ : ∃ i u, fetch s.beginStep = .ok (i, u) := by
        rw [fetch_beginStep]
        simp only [hbus, if_true]
        split <;> exact ⟨_, _, rfl⟩
      obtain ⟨-, rfl, -⟩ := fetch_eq_ok.1 hf
      obtain ⟨t, ht⟩ := exec_answers ((afterFetch_mapper s i.length).trans hm) i
      exact ⟨t, (step_of_fetch hr hf).trans ht⟩
  obtain ⟨t, ht⟩ := hanswer
  exact ⟨t, ht, (step_evolves ht).1.constants.1.trans hm, step_outcome ht⟩

/-! ### Decoding what was fetched (R101, R102) -/

/-- The instruction of three bytes is made of as many of them as it is long. -/
theorem decode_fetched {a b c : Byte} {i : Instr} {rest : List Byte} (h : decode [a, b, c] = .ok (i, rest)) :
    i = instrOf a (if 2 ≤ i.length then b else 0) (if i.length = 3 then c else 0) ∧ encode i = [a, b, c].take i.length := by
  obtain ⟨op, operands, hbs, hlen, rfl⟩ := decode_eq_ok h
  rw [encode_instrOf hlen, instrOf_length, ← hlen]
  rcases operands with _ | ⟨x, _ | ⟨y, _ | ⟨z, operands⟩⟩⟩
  · cases hbs; exact ⟨rfl, rfl⟩
  · cases hbs; exact ⟨rfl, rfl⟩
  · cases hbs; exact ⟨rfl, rfl⟩
  · rcases descriptor_length_cases op with hd | hd | hd <;> simp [hd] at hlen

/-- Settles O4: the fetch reads as many of the three bytes as the instruction is long, and they decode to it. -/
theorem stepRunsDecodedInstruction : Obligations.StepRunsDecodedInstruction := by
  intro s i rest hr hdecode hbus
  exact step_of_fetch hr (fetch_eq_ok.2 ⟨hbus, rfl, (decode_fetched hdecode).1⟩)

/-- The instruction a step that answers a next state ran is the one its bytes decode to. -/
theorem step_runs {s t : State} (hr : s.run = .running) (h : step s = .next t) :
    ∃ a b, exec (instrOf (s.fetchedByte 0) a b) (s.afterFetch (instrOf (s.fetchedByte 0) a b).length) = .next t := by
  rcases step_eq_next h with ⟨hs, -⟩ | ⟨-, i, hf, hexec⟩
  · cases hr.symm.trans hs
  · obtain ⟨-, -, hi⟩ := fetch_eq_ok.1 hf
    exact ⟨_, _, hi ▸ hexec⟩

/-! ### The fetch (R101, R280) -/

theorem afterFetch_succ (s : State) (k : Nat) :
    s.afterFetch (k + 1) = (s.afterFetch k).afterRead (s.pc + BitVec.ofNat 16 k) := rfl

theorem afterFetch_registers (s : State) (n : Nat) :
    KeepsRegs [] s (s.afterFetch n) ∧ (s.afterFetch n).p = s.p ∧ (s.afterFetch n).pc = s.pc ∧
      (s.afterFetch n).outcome = none := by
  induction n with
  | zero => exact ⟨fun r _ => by cases r <;> rfl, rfl, rfl, rfl⟩
  | succ n ih =>
    obtain ⟨hregs, hp, hpc, hout⟩ := ih
    exact ⟨fun r hr => (by cases r <;> rfl : r.read (s.afterFetch (n + 1)) = r.read (s.afterFetch n)).trans (hregs r hr),
      hp, hpc, hout⟩

theorem afterFetch_bytes (s : State) (n : Nat) : BytesAfter [] s (s.afterFetch n) := by
  intro b hb
  induction n with
  | zero => rfl
  | succ n ih => rw [afterFetch_succ, readByte_afterRead _ _ hb]; exact ih

theorem afterFetch_events (s : State) (n : Nat) : (s.afterFetch n).events = (List.range n).flatMap
    fun k => .read (s.pc + BitVec.ofNat 16 k) (s.fetchedByte k) :: readDiags (s.pc + BitVec.ofNat 16 k) := by
  induction n with
  | zero => rfl
  | succ n ih =>
    rw [afterFetch_succ, State.afterRead_events, ih, List.range_succ, List.flatMap_append, List.flatMap_singleton]
    rfl

/-- Settles O5: a fetch is reads and nothing else. -/
theorem fetchOnlyReads : Obligations.FetchOnlyReads := by
  intro s n _
  obtain ⟨hregs, hp, hpc, hout⟩ := afterFetch_registers s n
  have hsteady := Steady.afterFetch s n
  exact ⟨hregs, hp, hpc, afterFetch_bytes s n, ⟨hsteady.evolves.constants, hsteady.run⟩, hout, afterFetch_events s n⟩

/-! ### Reset, STP and the sentinel (R34, R267, R281 to R283) -/

/-- Settles O7: reset lists no byte, so the word at 0xFFFC is 0x0000. -/
theorem resetIsWellFormed : Obligations.ResetIsWellFormed := by
  exact ⟨by decide, rfl, rfl, rfl, rfl, by decide⟩

theorem core_run_succ {s t : State} (h : step s = .next t) (n : Nat) : core.run (n + 1) s = core.run n t := by
  have hcore : core.step s = .next t := h
  simp only [Host.Core.run, hcore]

/-- Settles O10: a stopped machine's step clears the record and sets the outcome, so further steps change nothing. -/
theorem stoppedIsTerminal : Obligations.StoppedIsTerminal := by
  intro s n hs
  rw [core_run_succ (step_of_stopped hs)]
  induction n with
  | zero => rfl
  | succ n ih => rw [core_run_succ (step_of_stopped (s := s.beginStep.raiseHalt) hs)]; exact ih

/-- Settles O13: STP's meaning, written out. -/
theorem stpHalts : Obligations.StpHalts := fun _ _ => rfl

/-- The sentinel's six bytes decode to it (R108). -/
theorem instrOf_of_sentinel {op : Byte} (h : op ∈ [0x8B, 0x93, 0x9B, 0x9F, 0xAB, 0xBB]) (i j : Byte) :
    instrOf op i j = .invalid op := by
  rw [instrOf, (descriptor_eq_sentinel_iff op).2 h]; rfl

/-- Settles O12: the sentinel is one byte long, so its step makes one read and then answers the decode error. -/
theorem decodeErrorChangesNothing : Obligations.DecodeErrorChangesNothing := by
  refine ⟨fun _ _ => rfl, fun s hr hbus hop => ?_⟩
  have hlen : (descriptor (s.fetchedByte 0)).length = 1 := by rw [(descriptor_eq_sentinel_iff _).2 hop]; rfl
  have hf : fetch s.beginStep = .ok (.invalid (s.fetchedByte 0), s.afterFetch 1) := by
    simp only [fetch_beginStep, hbus, if_true, hlen, instrOf_of_sentinel hop]
  rw [step_of_fetch hr hf, afterFetch_succ, BitVec.add_zero]
  rfl

theorem op_eq_stp_iff (op : Byte) : (descriptor op).op = .stp ↔
    op ∈ [0x02, 0x12, 0x22, 0x32, 0x42, 0x52, 0x62, 0x72, 0x92, 0xB2, 0xD2, 0xF2] :=
  forall_descriptor (P := fun op d => d.op = .stp ↔
    op ∈ [0x02, 0x12, 0x22, 0x32, 0x42, 0x52, 0x62, 0x72, 0x92, 0xB2, 0xD2, 0xF2]) (by decide +kernel) op

/-- The instruction a byte decodes to has the operation of the byte's row. -/
theorem op_instrOf (op i j : Byte) : (instrOf op i j).op = (descriptor op).op := by
  obtain ⟨hw, hop⟩ := form_instrOf op i j
  exact (hasRow_of_opcode hw hop).1.symm

/-- Settles O11: STP alone writes the run state, and the bytes of the rows with its operation are the twelve. -/
theorem onlyStpStops : Obligations.OnlyStpStops := by
  intro s t hr h
  obtain ⟨a, b, hexec⟩ := step_runs hr h
  rw [← op_eq_stp_iff, ← op_instrOf _ a b]
  generalize instrOf (s.fetchedByte 0) a b = i at hexec
  have hfetch : (s.afterFetch i.length).run = .running := (Steady.afterFetch s i.length).run.trans hr
  by_cases hi : ∃ c, i = .stp c
  · obtain ⟨c, rfl⟩ := hi
    simp [Instr.op, ← Host.Outcome.next.inj hexec]
  · have hrun := (exec_steady (fun c hc => hi ⟨c, hc⟩) hexec).run.trans hfetch
    have hop : i.op ≠ .stp := by cases i <;> simp_all [Instr.op]
    simp [hrun, hop]

/-! ### The guard mapper (R60, R72) -/

theorem exec_jmp_indirect_of_not_ok {ptr : Word} {s : State} (h : s.busOk ptr = false) :
    exec (.jmp (.indirect ptr)) s = .fault .noMapperInvoked := by
  rw [exec_jmp_indirect, h]; rfl

theorem exec_brk_of_noMapper {s : State} (h : s.mapper = .noMapper) : exec .brk s = .fault .noMapperInvoked := by
  rw [exec_brk, h]; rfl

theorem exec_shx_of_not_ok {w : Word} {s : State} (h : s.busOk (highAndAddr (indexed w s.y) (highAnd s.x w)) = false) :
    exec (.shx w) s = .fault .noMapperInvoked := by
  rw [exec_shx, h]; rfl

theorem exec_shy_of_not_ok {w : Word} {s : State} (h : s.busOk (highAndAddr (indexed w s.x) (highAnd s.y w)) = false) :
    exec (.shy w) s = .fault .noMapperInvoked := by
  rw [exec_shy, h]; rfl

/-- One access under the guard mapper: a fault from 0x6000 on, as usual below. -/
theorem noMapper_access {s : State} (hm : s.mapper = .noMapper) (b : Word) (v : Byte) :
    (0x6000 ≤ b.toNat → memRead b s = .error .noMapperInvoked ∧ memWrite b v s = .error .noMapperInvoked) ∧
    (b.toNat < 0x6000 → memRead b s = .ok (s.readByte b, s.afterRead b) ∧ memWrite b v s = .ok (s.afterWrite b v)) := by
  have hbus : s.busOk b = true ↔ b.toNat < 0x6000 := by simp [busOk_iff, hm]
  by_cases h : b.toNat < 0x6000
  · exact ⟨fun hge => absurd h (by omega), fun _ => ⟨if_pos (hbus.2 h), if_pos (hbus.2 h)⟩⟩
  · exact ⟨fun _ => ⟨if_neg (mt hbus.1 h), if_neg (mt hbus.1 h)⟩, fun hlt => absurd hlt h⟩

/-- Settles O9: an access that reaches the guard mapper faults, and each shape of instruction hands its fault on. -/
theorem noMapperFaults : Obligations.NoMapperFaults := by
  refine ⟨fun s b v hm => noMapper_access hm b v, fun o s h => ?_, fun m s h => ?_,
    fun ptr s h => exec_jmp_indirect_of_not_ok h, fun s h => exec_brk_of_noMapper h,
    fun w s h => exec_shx_of_not_ok h, fun w s h => exec_shy_of_not_ok h, fun s hr h => step_of_not_busOk hr h⟩
  · have hread := fun i k => readInstr_of_not_ok (s := s) (o := o) i k h
    simp only [List.forall_mem_cons, exec]
    exact ⟨hread _ _, hread _ _, hread _ _, hread _ _, hread _ _, hread _ _, hread _ _, hread _ _, hread _ _,
      hread _ _, hread _ _, List.forall_mem_nil _⟩
  · have hread := fun i k => readInstr_of_not_ok (s := s) (o := .mem m) i k h
    have hstore := fun i f => storeInstr_of_not_ok (s := s) (m := m) i f h
    have hmodify := fun i f k => modifyInstr_of_not_ok (s := s) (m := m) i f k h
    have hshift : ∀ i core, shiftInstr i (.mem m) core s = .fault .noMapperInvoked := fun i core => by
      rw [shiftInstr, hmodify]
    simp only [List.forall_mem_cons, exec]
    exact ⟨hstore _ _, hstore _ _, hstore _ _, hstore _ _, hread _ _, hread _ _, hmodify _ _ _, hmodify _ _ _,
      hshift _ _, hshift _ _, hshift _ _, hshift _ _, hmodify _ _ _, hmodify _ _ _, hmodify _ _ _, hmodify _ _ _,
      hmodify _ _ _, hmodify _ _ _, List.forall_mem_nil _⟩

/-! ### The trace variant and the trace line (R294, R297) -/

theorem readValues_append (es fs : List Event) : readValues (es ++ fs) = readValues es ++ readValues fs :=
  List.filterMap_append

theorem readValues_diag {es : List Event} (h : ∀ e ∈ es, ∃ d, e = .diag d) : readValues es = [] := by
  refine List.filterMap_eq_nil_iff.2 fun e he => ?_
  obtain ⟨d, rfl⟩ := h e he; rfl

/-- The reads of the fetch returned the fetched bytes. -/
theorem readValues_afterFetch (s : State) (n : Nat) :
    readValues (s.afterFetch n).events = (List.range n).map s.fetchedByte := by
  induction n with
  | zero => rfl
  | succ n ih =>
    have hlast : ∀ v, readValues (.read (s.pc + BitVec.ofNat 16 n) v :: readDiags (s.pc + BitVec.ofNat 16 n)) = [v] :=
      fun v => congrArg (v :: ·) (readValues_diag (readDiags_diag _))
    rw [afterFetch_succ, State.afterRead_events, readValues_append, ih, hlast, List.range_succ, List.map_append]
    rfl

/-- The instruction a step ran is the one the three bytes at PC decode to. -/
theorem exec_of_decode {s t : State} {i : Instr} {rest : List Byte} (hr : s.run = .running)
    (hdecode : decode [s.fetchedByte 0, s.fetchedByte 1, s.fetchedByte 2] = .ok (i, rest)) (h : step s = .next t) :
    exec i (s.afterFetch i.length) = .next t := by
  have hlen : ∀ {j : Instr} {a b : Byte}, j = instrOf (s.fetchedByte 0) a b →
      j.length = (descriptor (s.fetchedByte 0)).length := fun hj => hj ▸ instrOf_length _ _ _
  rcases step_eq_next h with ⟨hs, -⟩ | ⟨-, j, hf, hexec⟩
  · cases hr.symm.trans hs
  · obtain ⟨-, -, hj⟩ := fetch_eq_ok.1 hf
    have hi := (decode_fetched hdecode).1
    have hij : i = j := by
      rw [hlen hj] at hj
      rw [hlen hi] at hi
      exact hi.trans hj.symm
    rwa [hij]

/-- The bytes the fetch of a step returned are the encoding of the instruction it ran, whatever its outcome. -/
theorem fetchedBytes_of_exec {s t : State} {i : Instr} {rest : List Byte}
    (hdecode : decode [s.fetchedByte 0, s.fetchedByte 1, s.fetchedByte 2] = .ok (i, rest))
    (hexec : exec i (s.afterFetch i.length) = .next t) :
    fetchedBytes t = encode i ∧ (encode i).head? = some (s.fetchedByte 0) := by
  obtain ⟨hi, henc⟩ := decode_fetched hdecode
  obtain ⟨es, hes, -⟩ := (exec_evolves hexec).1.bus
  have hlen : i.length = (descriptor (s.fetchedByte 0)).length := by rw [hi, instrOf_length]
  have hreads : readValues t.events = (List.range i.length).map s.fetchedByte ++ readValues es := by
    rw [hes, readValues_append, readValues_afterFetch]
  rw [henc]
  rcases descriptor_length_cases (s.fetchedByte 0) with hd | hd | hd <;>
    simp [fetchedBytes, hreads, hlen, hd, List.range_succ]

theorem traceStep_of_next {s t : State} (h : step s = .next t) : traceStep s = .next (t, traceOutcome t) := by
  simp only [traceStep, h]

theorem traceLine_of_fetchedBytes (s : State) {t : State} {bytes : List Byte} (h : fetchedBytes t = bytes) :
    traceLine s t = ⟨s.pc, bytes, s.a, s.x, s.y, s.p, s.sp⟩ := by
  simp only [traceLine, h]; rfl

/-- Settles O60: the first reads of a step are its fetch, and the outcome tells which of the three answers it gives. -/
theorem traceReturnsFetchedBytes : Obligations.TraceReturnsFetchedBytes := by
  refine ⟨fun s t i rest hr hdecode h => ?_, fun s hs => ?_⟩
  · have hexec := exec_of_decode hr hdecode h
    obtain ⟨hbytes, hhead⟩ := fetchedBytes_of_exec hdecode hexec
    have hdesc : i.descriptor = descriptor (s.fetchedByte 0) := by
      rw [Instr.descriptor, (decode_fetched hdecode).1, (form_instrOf ..).2]
    rw [traceStep_of_next h]
    refine ⟨fun hdone => ?_, ?_, ?_, ?_, traceLine_of_fetchedBytes s hbytes⟩
    · have hout : ∃ n, t.outcome = some (.ok n) := by
        unfold State.completed at hdone
        split at hdone <;> simp_all
      obtain ⟨n, hn⟩ := hout
      simp only [traceOutcome, hn, hbytes, hhead, hdesc, Option.map_some]
    · rintro b rfl
      obtain rfl := Host.Outcome.next.inj hexec
      rfl
    · rintro b rfl
      obtain rfl := Host.Outcome.next.inj hexec
      rfl
    · rcases exec_outcome hexec with ⟨n, hn⟩ | ⟨b, hb, -⟩ | ⟨b, hb, -⟩
      · exact .inl (by simp only [State.completed, hn])
      · exact .inr (.inl ⟨b, hb⟩)
      · exact .inr (.inr ⟨b, hb⟩)
  · refine ⟨_, traceStep_of_next (step_of_stopped hs), traceLine_of_fetchedBytes s rfl⟩

end Sys2Proof.Machine
end

section
/-!
PROOF. The memory family outside RAM (`20_memory.md` R51, R53, R58, R59, R66, R70), and the addressing modes that read no
pointer (`40_addressing.md` R134 to R136, R140, R141, R145), each in numbers.
-/

namespace Sys2Proof.Machine

/-! ### The decoder's ranges (R51) -/

/-- Settles O18: the decoder's tests run from the highest boundary downward, so each range ends where the next begins. -/
theorem regionsAreExclusive : Obligations.RegionsAreExclusive := by
  intro b
  have hb := b.isLt
  rw [region_eq]
  refine ⟨?_, ?_, ?_, ?_, ?_, ?_, ?_⟩ <;> split_ifs <;> simp only [false_iff, true_iff] <;> omega

/-! ### A read after a write (R53, R55, R66, R70) -/

theorem isWritable_iff (c : Word) : isWritable c = true ↔ c.toNat < 0x2000 ∨ 0x6000 ≤ c.toNat ∧ c.toNat < 0x8000 := by
  rw [isWritable, Bool.or_eq_true, isRam_iff, isPrgRam_iff]

/-- When a write reaches the byte an address reads: at every RAM mirror, and at the very address in cartridge RAM. -/
theorem writeReaches_iff (size : PrgSize) (b c : Word) :
    (isWritable c = true ∧ storageOf size b = storageOf size c) ↔
      (c.toNat < 0x2000 ∧ b.toNat < 0x2000 ∧ b.toNat % 0x800 = c.toNat % 0x800) ∨
        (0x6000 ≤ c.toNat ∧ c.toNat < 0x8000 ∧ b = c) := by
  rw [isWritable_iff, storageOf_eq, storageOf_eq, ← BitVec.toNat_inj]
  unfold ramIndex prgRamIndex
  split_ifs <;> simp <;> omega

/-- Settles O16: a write is seen exactly where it reaches the storage byte of the address. -/
theorem readAfterWrite : Obligations.ReadAfterWrite := by
  intro s c v b hb hit
  have hiff := writeReaches_iff s.prgSize b c
  refine ⟨fun t ht => ?_, if_congr hiff rfl rfl⟩
  obtain ⟨-, rfl⟩ := memWrite_eq_ok.1 ht
  rw [readByte_afterWrite s c v hb]
  exact if_congr hiff rfl rfl

/-! ### The stubs and the cartridge (R58, R59, R70) -/

/-- The diagnostic events of a write, in numbers. -/
theorem writeDiags_eq (b : Word) : writeDiags b =
    if 0x8000 ≤ b.toNat then [.diag .romWrite] else if 0x6000 ≤ b.toNat then []
    else if 0x4020 ≤ b.toNat then [.diag .expansionAccess] else [] := by
  simp only [writeDiags, nromWriteDiags, region_eq, le_8000_iff, le_6000_iff]
  split_ifs <;> first | rfl | omega

theorem isGfx_of_le_4000 {b : Word} (hb : 0x4000 ≤ b.toNat) : isGfx b = false := by
  rw [Bool.eq_false_iff, Ne, isGfx_iff]; omega

theorem isRam_of_le_4000 {b : Word} (hb : 0x4000 ≤ b.toNat) : isRam b = false := by
  rw [Bool.eq_false_iff, Ne, isRam_iff]; omega

/-- A write above the graphics registers changes cartridge RAM at most, and is recorded. -/
theorem afterWrite_of_le_4000 (s : State) {b : Word} (v : Byte) (hb : 0x4000 ≤ b.toNat) :
    s.afterWrite b v = { s.log (.write b v :: writeDiags b) with prgRam := s.nromWrite b v } := by
  simp [State.afterWrite, State.gfxAfterWrite, State.log, isGfx_of_le_4000 hb, isRam_of_le_4000 hb]

theorem nromWrite_of_prgRam (s : State) {b : Word} (v : Byte) (h : 0x6000 ≤ b.toNat ∧ b.toNat < 0x8000) :
    s.nromWrite b v = s.prgRam.write (b.toNat - 0x6000) v := if_pos ((isPrgRam_iff b).2 h)

theorem nromWrite_of_not_prgRam (s : State) {b : Word} (v : Byte) (h : ¬(0x6000 ≤ b.toNat ∧ b.toNat < 0x8000)) :
    s.nromWrite b v = s.prgRam := if_neg (mt (isPrgRam_iff b).1 h)

/-- Every byte above the graphics registers, by its number. -/
theorem readByte_of_le_4000 (s : State) {b : Word} (hb : 0x4000 ≤ b.toNat) : s.readByte b =
    if b.toNat < 0x6000 then 0x00 else if b.toNat < 0x8000 then s.prgRam.read (b.toNat - 0x6000)
    else s.prgRom.read ((b.toNat - 0x8000) % s.prgSize.bytes) := by
  rw [readByte_eq s (isGfx_of_le_4000 hb), storageOf_eq, if_neg (by omega)]
  split_ifs <;> rfl

/-- Settles O20: reads and writes above the graphics registers, range by range. -/
theorem stubsAndCartridge : Obligations.StubsAndCartridge := by
  intro s b v hm
  have hwrite := memWrite_eq_ok (v := v).2 ⟨busOk_of_nrom hm b, rfl⟩
  refine ⟨fun hlo hhi => ?_, fun hlo hhi => ?_, fun hlo => ?_, fun hlo hhi hsize => ?_⟩
  · rw [hwrite, afterWrite_of_le_4000 s v hlo, nromWrite_of_not_prgRam s v (by omega), writeDiags_eq,
      readByte_of_le_4000 s hlo, if_pos hhi, if_neg (by omega), if_neg (by omega)]
    exact ⟨rfl, rfl⟩
  · rw [hwrite, afterWrite_of_le_4000 s v (by omega), nromWrite_of_prgRam s v ⟨hlo, hhi⟩, writeDiags_eq,
      readByte_of_le_4000 s (by omega), if_neg (by omega), if_pos hhi, if_neg (by omega), if_pos hlo]
    exact ⟨rfl, rfl⟩
  · rw [hwrite, afterWrite_of_le_4000 s v (by omega), nromWrite_of_not_prgRam s v (by omega), writeDiags_eq,
      readByte_of_le_4000 s (by omega), if_neg (by omega), if_neg (by omega), if_pos hlo]
    exact ⟨rfl, rfl⟩
  · have hadd : (b + 0x4000).toNat = b.toNat + 0x4000 := by rw [BitVec.toNat_add]; simp; omega
    rw [readByte_of_le_4000 s (by omega), readByte_of_le_4000 s (by omega), hadd, hsize]
    simp only [PrgSize.bytes]
    rw [if_neg (by omega), if_neg (by omega), if_neg (by omega), if_neg (by omega)]
    exact congrArg s.prgRom.read (by omega)

/-! ### Modes that read no pointer (R134 to R136, R140, R144) -/

/-- Settles O22: the literal as it stands, or indexed. -/
theorem absoluteModes : Obligations.AbsoluteModes := by
  intro s w
  refine ⟨rfl, rfl, toNat_indexed_ea w s.x, indexed_crossed_iff w s.x, toNat_indexed_ea w s.y,
    indexed_crossed_iff w s.y, fun m hm => ?_⟩
  simp only [List.mem_cons, List.not_mem_nil, or_false] at hm
  rcases hm with rfl | rfl | rfl <;> rfl

/-- A displacement extended to 16 bits, modulo 65536. -/
theorem toNat_sext16 (i : Byte) : ((sext16 i).toNat : Int) = i.toInt % 65536 := by
  have hi := i.isLt
  rw [sext16, BitVec.toNat_signExtend, BitVec.toInt_eq_msb_cond, BitVec.toNat_setWidth]
  split <;> omega

/-- Settles O24: the target is a sum of words, its page that of the sum. -/
theorem relativeMode : Obligations.RelativeMode := by
  intro pc i
  have hsext := toNat_sext16 i
  have hnext : (pc + 2).toNat = (pc.toNat + 2) % 65536 := BitVec.toNat_add ..
  have hea : (relativeTarget pc i).ea.toNat = ((pc.toNat + 2) % 65536 + (sext16 i).toNat) % 65536 := by
    rw [← hnext]; exact BitVec.toNat_add ..
  refine ⟨by omega, ?_⟩
  rw [← hnext]
  exact pageCrossed_iff ..

/-! ### Reading an operand (R9, R141, R145) -/

/-- Settles O25: an immediate only moves PC, and a byte in memory is read once, after the pointer reads. -/
theorem operandRead : Obligations.OperandRead := by
  refine ⟨fun s v => ⟨rfl, rfl⟩, fun s m => ⟨readByte_resolved_eq s m _, rfl⟩, fun s o => ⟨fun r _ => ?_, ?_, ?_, ?_, ?_⟩⟩
  · cases r <;> simp [Reg.read]
  · simp
  · exact fun b hb => readByte_afterOperand s o hb
  · exact ⟨(Evolves.afterOperand s o).constants, (Steady.afterOperand s o).run⟩
  · simp

end Sys2Proof.Machine
end

section
/-!
PROOF. How a frame is built. A `Frame` from `s` starts at a state that bus operations have made of `s`, and grows by what
leaves the bus alone: work on registers and flags, a jump, the outcome. Each shape of instruction has one such frame.
-/

namespace Sys2Proof.Machine

/-! ### Registers and flags that are left alone -/

theorem KeepsRegs.trans {regs : List Reg} {s t u : State} (h : KeepsRegs regs s t) (k : KeepsRegs regs t u) :
    KeepsRegs regs s u := fun r hr => (k r hr).trans (h r hr)

theorem KeepsRegs.mono {regs regs' : List Reg} {s t : State} (h : KeepsRegs regs s t) (hsub : regs ⊆ regs') :
    KeepsRegs regs' s t := fun r hr => h r fun hmem => hr (hsub hmem)

/-- The four registers, one by one. -/
theorem keepsRegs_iff (regs : List Reg) (s t : State) : KeepsRegs regs s t ↔
    (.a ∉ regs → t.a = s.a) ∧ (.x ∉ regs → t.x = s.x) ∧ (.y ∉ regs → t.y = s.y) ∧ (.sp ∉ regs → t.sp = s.sp) := by
  refine ⟨fun h => ⟨h .a, h .x, h .y, h .sp⟩, fun ⟨ha, hx, hy, hsp⟩ r => ?_⟩
  cases r with
  | a => exact ha
  | x => exact hx
  | y => exact hy
  | sp => exact hsp

theorem KeepsFlags.of_p {s t : State} (h : t.p = s.p) (flags : List Flag) : KeepsFlags flags s t := fun f _ => by rw [h]

theorem KeepsFlags.trans {flags : List Flag} {s t u : State} (h : KeepsFlags flags s t) (k : KeepsFlags flags t u) :
    KeepsFlags flags s u := fun f hf => (k f hf).trans (h f hf)

theorem KeepsFlags.mono {flags flags' : List Flag} {s t : State} (h : KeepsFlags flags s t) (hsub : flags ⊆ flags') :
    KeepsFlags flags' s t := fun f hf => h f fun hmem => hf (hsub hmem)

/-! ### Work on registers and flags -/

/-- From `s` to `t` only the registers `regs` and the flags `flags` change: no memory, no bus, no PC, no outcome. -/
structure Works (regs : List Reg) (flags : List Flag) (s t : State) : Prop where
  registers : KeepsRegs regs s t
  status : KeepsFlags flags s t
  rest : { t with a := s.a, x := s.x, y := s.y, sp := s.sp, p := s.p } = s

theorem Works.pc {regs : List Reg} {flags : List Flag} {s t : State} (h : Works regs flags s t) : t.pc = s.pc :=
  (congrArg State.pc h.rest :)

theorem Works.refl (regs : List Reg) (flags : List Flag) (s : State) : Works regs flags s s :=
  ⟨fun _ _ => rfl, fun _ _ => rfl, rfl⟩

theorem Works.trans {regs : List Reg} {flags : List Flag} {s t u : State} (h : Works regs flags s t)
    (k : Works regs flags t u) : Works regs flags s u := by
  refine ⟨h.registers.trans k.registers, h.status.trans k.status, ?_⟩
  exact (congrArg (fun v : State => { v with a := s.a, x := s.x, y := s.y, sp := s.sp, p := s.p }) k.rest).trans h.rest

theorem Works.mono {regs regs' : List Reg} {flags flags' : List Flag} {s t : State} (h : Works regs flags s t)
    (hr : regs ⊆ regs') (hf : flags ⊆ flags') : Works regs' flags' s t :=
  ⟨h.registers.mono hr, h.status.mono hf, h.rest⟩

/-- A new status register, by the flags it keeps. -/
theorem Works.loadStatus (s : State) {flags : List Flag} {p : Byte} (h : ∀ f, f ∉ flags → f.read p = f.read s.p) :
    Works [] flags s (s.loadStatus p) := ⟨by simp [keepsRegs_iff], h, rfl⟩

theorem Works.setFlag (s : State) (f : Flag) (b : Bool) : Works [] [f] s (s.setFlag f b) :=
  Works.loadStatus s fun g hg => by simp_all

theorem Works.setZN (s : State) (r : Byte) : Works [] [.z, .n] s (s.loadStatus (setZN r s.p)) :=
  Works.loadStatus s fun f hf => by simp_all

theorem Works.loadA (s : State) (v : Byte) : Works [.a] [.z, .n] s (s.loadA v) :=
  ⟨by simp [keepsRegs_iff], (Works.setZN s v).status, rfl⟩

theorem Works.loadX (s : State) (v : Byte) : Works [.x] [.z, .n] s (s.loadX v) :=
  ⟨by simp [keepsRegs_iff], (Works.setZN s v).status, rfl⟩

theorem Works.loadY (s : State) (v : Byte) : Works [.y] [.z, .n] s (s.loadY v) :=
  ⟨by simp [keepsRegs_iff], (Works.setZN s v).status, rfl⟩

theorem Works.addCore (s : State) (m : Byte) : Works [.a] [.c, .z, .v, .n] s (s.addCore m) :=
  ⟨by simp [keepsRegs_iff], fun f hf => by simp_all, rfl⟩

theorem Works.compareCore (s : State) (reg m : Byte) : Works [] [.c, .z, .n] s (s.compareCore reg m) :=
  Works.loadStatus s (compareCore_keepsFlags s reg m)

theorem Works.shiftModify (core : Bool → Byte → Byte × Bool) (v : Byte) (s : State) :
    Works [] [.c, .z, .n] s (shiftModify core v s).2 := Works.loadStatus s (shiftModify_keepsFlags core v s)

theorem Works.bitFlags (s : State) (a m : Byte) : Works [] [.z, .v, .n] s (s.loadStatus (bitFlags a m s.p)) :=
  Works.loadStatus s fun f hf => by simp_all

/-- Any status register at all. -/
theorem Works.anyStatus (s : State) (p : Byte) :
    Works [] [.c, .z, .i, .d, .b, .u, .v, .n] s (s.loadStatus p) :=
  Works.loadStatus s fun f hf => by cases f <;> simp at hf

/-! ### The frame calculus -/

theorem SameBus.refl (s : State) : SameBus s s := ⟨rfl, rfl, rfl, rfl⟩

theorem KeepsMachine.refl (s : State) : KeepsMachine s s := ⟨⟨rfl, rfl, rfl, rfl, rfl⟩, rfl⟩

theorem KeepsMachine.trans {s t u : State} (h : KeepsMachine s t) (k : KeepsMachine t u) : KeepsMachine s u := by
  obtain ⟨⟨h1, h2, h3, h4, h5⟩, h6⟩ := h
  obtain ⟨⟨k1, k2, k3, k4, k5⟩, k6⟩ := k
  exact ⟨⟨k1.trans h1, k2.trans h2, k3.trans h3, k4.trans h4, k5.trans h5⟩, k6.trans h6⟩

theorem Steady.keepsMachine {s t : State} (h : Steady s t) : KeepsMachine s t := ⟨h.evolves.constants, h.run⟩

section
variable {regs : List Reg} {flags : List Flag} {ws vs : List (Word × Byte)} {s u t v w : State}

theorem Frame.refl (s : State) : Frame [] [] [] s s s :=
  ⟨fun _ _ => rfl, fun _ _ => rfl, fun _ _ => rfl, KeepsMachine.refl s, SameBus.refl s⟩

theorem Frame.mono {regs' : List Reg} {flags' : List Flag} (h : Frame regs flags ws s u t) (hr : regs ⊆ regs')
    (hf : flags ⊆ flags') : Frame regs' flags' ws s u t :=
  ⟨h.registers.mono hr, h.status.mono hf, h.memory, h.machine, h.bus⟩

/-- Bus operations after bus operations. -/
theorem Frame.trans (h : Frame regs flags ws s t t) (k : Frame regs flags vs t v w) :
    Frame regs flags (ws ++ vs) s v w :=
  ⟨h.registers.trans k.registers, h.status.trans k.status, h.memory.append h.machine.1.2.1 k.memory,
    h.machine.trans k.machine, k.bus⟩

/-- Anything that leaves memory, bus, constants and run state alone, after a frame. -/
theorem Frame.extend (h : Frame regs flags ws s u t) (hregs : KeepsRegs regs t v) (hflags : KeepsFlags flags t v)
    (hrest : { v with a := t.a, x := t.x, y := t.y, sp := t.sp, p := t.p, pc := t.pc, outcome := t.outcome } = t) :
    Frame regs flags ws s u v := by
  obtain ⟨h1, h2, h3, ⟨⟨h4, h5, h6, h7, h8⟩, h9⟩, ⟨h10, h11, h12, h13⟩⟩ := h
  have e {α : Type} (f : State → α) := congrArg f hrest
  exact ⟨h1.trans hregs, h2.trans hflags, h3.congr (e State.ram) (e State.prgRam) (e State.prgSize) (e State.prgRom),
    ⟨⟨(e State.mapper).trans h4, (e State.prgSize).trans h5, (e State.prgRom).trans h6, (e State.chrRom).trans h7,
      (e State.mirroring).trans h8⟩, (e State.run).trans h9⟩,
    ⟨(e State.events).trans h10, (e State.gfx).trans h11, (e State.vram).trans h12, (e State.palette).trans h13⟩⟩

theorem Frame.works (h : Frame regs flags ws s u t) (k : Works regs flags t v) : Frame regs flags ws s u v :=
  h.extend k.registers k.status
    (congrArg (fun q : State => { q with pc := t.pc, outcome := t.outcome }) k.rest)

theorem Frame.jump (h : Frame regs flags ws s u t) (pc : Word) : Frame regs flags ws s u (t.jump pc) :=
  h.extend (by simp [keepsRegs_iff]) (KeepsFlags.of_p rfl flags) rfl

theorem Frame.advance (h : Frame regs flags ws s u t) (n : Nat) : Frame regs flags ws s u (t.advance n) :=
  h.jump _

theorem Frame.finishOk (h : Frame regs flags ws s u t) (n : Nat) : Frame regs flags ws s u (t.finishOk n) :=
  h.extend (by simp [keepsRegs_iff]) (KeepsFlags.of_p rfl flags) rfl

end

/-! ### The frames of the bus operations -/

theorem Frame.afterRead (s : State) (c : Word) : Frame [] [] [] s (s.afterRead c) (s.afterRead c) :=
  ⟨by simp [keepsRegs_iff], KeepsFlags.of_p rfl [], fun _ hb => readByte_afterRead s c hb,
    (Steady.afterRead s c).keepsMachine, SameBus.refl _⟩

theorem Frame.afterWrite (s : State) (c : Word) (v : Byte) :
    Frame [] [] [(c, v)] s (s.afterWrite c v) (s.afterWrite c v) :=
  ⟨by simp [keepsRegs_iff], KeepsFlags.of_p rfl [], BytesAfter.afterWrite s c v, (Steady.afterWrite s c v).keepsMachine,
    SameBus.refl _⟩

theorem Frame.push (s : State) (v : Byte) : Frame [.sp] [] [(stackAddr s.sp, v)] s (s.push v) (s.push v) :=
  ⟨by simp [keepsRegs_iff], KeepsFlags.of_p rfl [], BytesAfter.push s v, (Steady.push s v).keepsMachine, SameBus.refl _⟩

theorem Frame.afterPull (s : State) : Frame [.sp] [] [] s s.afterPull s.afterPull :=
  ⟨by simp [keepsRegs_iff], KeepsFlags.of_p rfl [], BytesAfter.afterPull s, (Steady.afterPull s).keepsMachine,
    SameBus.refl _⟩

theorem Frame.resolve (s : State) (m : Mem) : Frame [] [] [] s (s.resolve m).2 (s.resolve m).2 :=
  ⟨by simp [keepsRegs_iff], KeepsFlags.of_p (by simp) [],
    fun b hb => readByte_congr (by simp) (by simp) (by simp) (by simp) hb,
    ⟨(Evolves.resolve s m).constants, by simp⟩, SameBus.refl _⟩

theorem Frame.resolved (s : State) (m : Mem) : Frame [] [] [] s (s.resolved m) (s.resolved m) := by
  obtain ⟨hregs, hflags, hmem, hmachine, -⟩ := (Frame.resolve s m).advance m.mode.length
  exact ⟨hregs, hflags, hmem, hmachine, SameBus.refl _⟩

theorem Frame.afterOperand (s : State) (o : Src) : Frame [] [] [] s (s.afterOperand o) (s.afterOperand o) := by
  cases o with
  | immediate v =>
    obtain ⟨hregs, hflags, hmem, hmachine, -⟩ := (Frame.refl s).advance 2
    exact ⟨hregs, hflags, hmem, hmachine, SameBus.refl _⟩
  | mem m => exact (Frame.resolved s m).trans (Frame.afterRead _ _)

end Sys2Proof.Machine
end

section
/-!
PROOF. The shapes of instruction that read an operand or none (`40_addressing.md` R141, `60_exceptions.md` R280), and what
they settle: loads, transfers, arithmetic, logic, compares, the flag instructions and the immediate combinations.
-/

namespace Sys2Proof.Machine

/-! ### The frame of each shape -/

theorem ReadFrame.of_works {i : Instr} {o : Src} {regs : List Reg} {flags : List Flag} {s t : State}
    (h : Works regs flags (s.afterOperand o) t) (hi : i.length = o.mode.length) :
    ReadFrame i o regs flags s (t.finishOk (cycles i (s.operandCrosses o))) := by
  have hbase := (Frame.afterOperand s o).mono (List.nil_subset regs) (List.nil_subset flags)
  exact ⟨(hbase.works h).finishOk _, by simp [h.pc, State.afterInstr, hi], rfl⟩

theorem ImpliedFrame.of_works {i : Instr} {regs : List Reg} {flags : List Flag} {s t : State}
    (h : Works regs flags (s.advance 1) t) : ImpliedFrame i regs flags s (t.finishOk (cycles i false)) := by
  have hbase := ((Frame.refl s).mono (List.nil_subset regs) (List.nil_subset flags)).advance 1
  exact ⟨(hbase.works h).finishOk _, h.pc, rfl⟩

theorem FlagsZN.of_setZN {r p : Byte} {t : State} (h : t.p = setZN r p) : FlagsZN r t := by simp [FlagsZN, h]

/-! ### Loads and transfers (R150 to R161, R257) -/

theorem Works.loadAX (s : State) (v : Byte) : Works [.a, .x] [.z, .n] s { s.loadA v with x := v } :=
  ⟨by simp [keepsRegs_iff], (Works.setZN s v).status, rfl⟩

/-- Settles O26: each load is a read whose handler writes its registers and `SetZN`. -/
theorem loadResults : Obligations.LoadResults := by
  refine ⟨fun o s ho => ?_, fun o s ho => ?_, fun o s ho => ?_, fun m s ho => ?_⟩
  · exact ⟨_, readInstr_of_ok (.lda o) (fun v u => u.loadA v) ho, rfl, FlagsZN.of_setZN rfl,
      ReadFrame.of_works (Works.loadA ..) rfl⟩
  · exact ⟨_, readInstr_of_ok (.ldx o) (fun v u => u.loadX v) ho, rfl, FlagsZN.of_setZN rfl,
      ReadFrame.of_works (Works.loadX ..) rfl⟩
  · exact ⟨_, readInstr_of_ok (.ldy o) (fun v u => u.loadY v) ho, rfl, FlagsZN.of_setZN rfl,
      ReadFrame.of_works (Works.loadY ..) rfl⟩
  · exact ⟨_, readInstr_of_ok (o := .mem m) (.lax m) (fun v u => { u.loadA v with x := v }) ho, rfl, rfl,
      FlagsZN.of_setZN rfl, ReadFrame.of_works (Works.loadAX ..) rfl⟩

theorem Works.setSp (s : State) (v : Byte) : Works [.sp] [] s { s with sp := v } :=
  ⟨by simp [keepsRegs_iff], fun _ _ => rfl, rfl⟩

/-- Settles O28: each transfer is a load of a register from another, TXS a plain move. -/
theorem transferResults : Obligations.TransferResults := by
  intro s
  refine ⟨?_, ?_, ?_, ?_, ?_, ?_⟩
  · exact ⟨_, rfl, rfl, FlagsZN.of_setZN rfl, ImpliedFrame.of_works (Works.loadX ..)⟩
  · exact ⟨_, rfl, rfl, FlagsZN.of_setZN rfl, ImpliedFrame.of_works (Works.loadY ..)⟩
  · exact ⟨_, rfl, rfl, FlagsZN.of_setZN rfl, ImpliedFrame.of_works (Works.loadA ..)⟩
  · exact ⟨_, rfl, rfl, FlagsZN.of_setZN rfl, ImpliedFrame.of_works (Works.loadA ..)⟩
  · exact ⟨_, rfl, rfl, FlagsZN.of_setZN rfl, ImpliedFrame.of_works (Works.loadX ..)⟩
  · exact ⟨_, rfl, rfl, ImpliedFrame.of_works (Works.setSp ..)⟩

/-! ### The adder in numbers (R170, R172, R173) -/

theorem toNat_addResult (a m : Byte) (c : Bool) : (addResult a m c).toNat = (a.toNat + m.toNat + carryIn c) % 256 :=
  BitVec.toNat_ofNat ..

/-- The overflow test compares signs. -/
theorem addOverflow_eq_msb (a m r : Byte) : addOverflow a m r = ((a.msb ^^ r.msb) && (m.msb ^^ r.msb)) := by
  have hmask : ∀ v : Byte, (v &&& 0x80 != 0) = v.msb := by decide +kernel
  rw [addOverflow, hmask, BitVec.msb_and, BitVec.msb_xor, BitVec.msb_xor]

/-- Overflow is a signed sum that does not fit. -/
theorem addOverflow_iff (a m : Byte) (c : Bool) :
    addOverflow a m (addResult a m c) = true ↔ ¬FitsSigned (a.toInt + m.toInt + carryIn c) := by
  have ha := a.isLt
  have hm := m.isLt
  have hr := toNat_addResult a m c
  have hc : carryIn c ≤ 1 := by cases c <;> decide
  rw [addOverflow_eq_msb, FitsSigned, BitVec.toInt_eq_toNat_cond, BitVec.toInt_eq_toNat_cond]
  simp only [BitVec.msb_eq_decide, hr, Bool.and_eq_true, bne_iff_ne, ne_eq, decide_eq_decide]
  split_ifs <;> omega

/-- `AddCore` in numbers, from a state that holds `a` and the Carry `c`. -/
theorem addCore_holdsSum {s : State} {a : Byte} {c : Bool} (ha : s.a = a) (hc : Flag.c.read s.p = c) (m : Byte) :
    HoldsSum a m c (s.addCore m) := by
  subst ha hc
  refine ⟨toNat_addResult .., ⟨by simp, by simp⟩, by simp [addSum], ?_⟩
  rw [← addOverflow_iff]
  simp

/-- A difference is the sum with the one's complement of the operand. -/
theorem HoldsSum.holdsDifference {a m : Byte} {c : Bool} {t : State} (h : HoldsSum a (~~~m) c t) :
    HoldsDifference a m c t := by
  obtain ⟨hsum, hzn, hcarry, hover⟩ := h
  have hm := m.isLt
  have hc : carryIn c ≤ 1 := by cases c <;> decide
  have hnot : (~~~m).toNat = 255 - m.toNat := BitVec.toNat_not
  have hint : (~~~m).toInt = -m.toInt - 1 := by
    rw [BitVec.toInt_eq_toNat_cond, BitVec.toInt_eq_toNat_cond, hnot]
    split_ifs <;> omega
  rw [hnot] at hsum hcarry
  rw [hint] at hover
  refine ⟨by omega, hzn, hcarry.trans (by omega), hover.trans (not_congr ?_)⟩
  rw [FitsSigned, FitsSigned]
  omega

/-- The adder on the one's complement of the operand, in numbers. -/
theorem addCore_holdsDifference {s : State} {a : Byte} {c : Bool} (ha : s.a = a) (hc : Flag.c.read s.p = c) (m : Byte) :
    HoldsDifference a m c (s.addCore (~~~m)) := (addCore_holdsSum ha hc (~~~m)).holdsDifference

theorem afterOperand_read (s : State) (o : Src) (f : Flag) : f.read (s.afterOperand o).p = f.read s.p := by
  rw [State.afterOperand_p]

/-- Settles O29: the adder on the operand or on its one's complement. -/
theorem addSubtractResults : Obligations.AddSubtractResults := by
  refine ⟨fun o s ho => ?_, fun o s ho => ?_, fun v s => ?_⟩
  · exact ⟨_, readInstr_of_ok (.adc o) (fun m u => u.addCore m) ho,
      addCore_holdsSum (State.afterOperand_a s o) (afterOperand_read s o .c) _, ReadFrame.of_works (Works.addCore ..) rfl⟩
  · exact ⟨_, readInstr_of_ok (.sbc o) (fun m u => u.addCore (~~~m)) ho,
      addCore_holdsDifference (State.afterOperand_a s o) (afterOperand_read s o .c) _,
      ReadFrame.of_works (Works.addCore ..) rfl⟩
  · exact ⟨_, rfl, addCore_holdsDifference rfl rfl v, ReadFrame.of_works (o := .immediate v) (Works.addCore ..) rfl⟩

/-- Adding and then subtracting with the complementary carry (the law of R173). -/
theorem addResult_addResult_not (a m : Byte) (c : Bool) : addResult (addResult a m c) (~~~m) (!c) = a := by
  have ha := a.isLt
  have hm := m.isLt
  have hc : carryIn c + carryIn (!c) = 1 := by cases c <;> rfl
  rw [← BitVec.toNat_inj, toNat_addResult, toNat_addResult, BitVec.toNat_not]
  omega

/-- Settles O30: both instructions leave the adder's result in A. -/
theorem addThenSubtractRestoresA : Obligations.AddThenSubtractRestoresA := by
  intro o q s t u hadc hq hsbc
  obtain ⟨-, ht⟩ := readInstr_eq_next (i := .adc o) (k := fun m u => u.addCore m) hadc
  obtain ⟨-, hu⟩ := readInstr_eq_next (i := .sbc q) (k := fun m u => u.addCore (~~~m)) hsbc
  have ha : t.a = addResult s.a (s.operand o) (Flag.c.read s.p) := by simp [ht]
  rw [hu, hq]
  simp [State.setFlag, ha, addResult_addResult_not]

/-! ### Logic, compares and BIT (R171, R174 to R180) -/

/-- Settles O31: each puts the bitwise result in A. -/
theorem logicResults : Obligations.LogicResults := by
  intro o s ho
  refine ⟨?_, ?_, ?_⟩
  · exact ⟨_, readInstr_of_ok (.and o) (fun m u => u.loadA (u.a &&& m)) ho, by simp, FlagsZN.of_setZN rfl,
      ReadFrame.of_works (Works.loadA ..) rfl⟩
  · exact ⟨_, readInstr_of_ok (.ora o) (fun m u => u.loadA (u.a ||| m)) ho, by simp, FlagsZN.of_setZN rfl,
      ReadFrame.of_works (Works.loadA ..) rfl⟩
  · exact ⟨_, readInstr_of_ok (.eor o) (fun m u => u.loadA (u.a ^^^ m)) ho, by simp, FlagsZN.of_setZN rfl,
      ReadFrame.of_works (Works.loadA ..) rfl⟩

/-- `CompareCore` of a register that holds `reg`. -/
theorem compareCore_holds (s : State) {r reg : Byte} (hr : r = reg) (m : Byte) :
    HoldsComparison reg m (s.compareCore r m) := hr ▸ compareCore_holdsComparison s r m

/-- Settles O32: each runs the comparator on its register. -/
theorem compareResults : Obligations.CompareResults := by
  intro o s ho
  refine ⟨?_, ?_, ?_⟩
  · exact ⟨_, readInstr_of_ok (.cmp o) (fun m u => u.compareCore u.a m) ho,
      compareCore_holds _ (State.afterOperand_a s o) _, ReadFrame.of_works (Works.compareCore ..) rfl⟩
  · exact ⟨_, readInstr_of_ok (.cpx o) (fun m u => u.compareCore u.x m) ho,
      compareCore_holds _ (State.afterOperand_x s o) _, ReadFrame.of_works (Works.compareCore ..) rfl⟩
  · exact ⟨_, readInstr_of_ok (.cpy o) (fun m u => u.compareCore u.y m) ho,
      compareCore_holds _ (State.afterOperand_y s o) _, ReadFrame.of_works (Works.compareCore ..) rfl⟩

/-- Settles O34: BIT writes three flags. -/
theorem bitResult : Obligations.BitResult := by
  intro m s ho
  exact ⟨_, readInstr_of_ok (o := .mem m) (.bit m) (fun v u => u.loadStatus (bitFlags u.a v u.p)) ho, by simp, by simp,
    by simp, ReadFrame.of_works (Works.bitFlags ..) rfl⟩

/-! ### One-byte steps, shifts of the accumulator, and flags (R183 to R186, R200 to R204, R240 to R246) -/

theorem toNat_byte_pred (v : Byte) : (v - 1).toNat = (v.toNat + 255) % 256 := by
  rw [toNat_byte_sub]
  have := v.isLt
  have h1 : (1 : Byte).toNat = 1 := rfl
  omega

/-- Settles O36: each steps its register and writes `SetZN`. -/
theorem registerStepResults : Obligations.RegisterStepResults := by
  intro s
  refine ⟨?_, ?_, ?_, ?_⟩
  · exact ⟨_, rfl, BitVec.toNat_add .., FlagsZN.of_setZN rfl, ImpliedFrame.of_works (Works.loadX ..)⟩
  · exact ⟨_, rfl, BitVec.toNat_add .., FlagsZN.of_setZN rfl, ImpliedFrame.of_works (Works.loadY ..)⟩
  · exact ⟨_, rfl, toNat_byte_pred _, FlagsZN.of_setZN rfl, ImpliedFrame.of_works (Works.loadX ..)⟩
  · exact ⟨_, rfl, toNat_byte_pred _, FlagsZN.of_setZN rfl, ImpliedFrame.of_works (Works.loadY ..)⟩

/-- A shift of the accumulator, whichever its core. -/
theorem accumulatorShift_result {i : Instr} {core : Bool → Byte → Byte × Bool} {s : State}
    (h : exec i s = shiftInstr i .accumulator core s) :
    ∃ t, exec i s = .next t ∧ t.a = (core (Flag.c.read s.p) s.a).1 ∧ Flag.c.read t.p = (core (Flag.c.read s.p) s.a).2 ∧
      FlagsZN t.a t ∧ ImpliedFrame i [.a] [.c, .z, .n] s t := by
  rw [h, shiftInstr]
  refine ⟨_, rfl, rfl, shiftModify_read_c core s.a s, shiftModify_flagsZN core s.a s, ImpliedFrame.of_works ?_⟩
  exact ⟨by simp [keepsRegs_iff, shiftModify], shiftModify_keepsFlags core s.a (s.advance 1), rfl⟩

/-- Settles O38: each is its core on A. -/
theorem accumulatorShiftResults : Obligations.AccumulatorShiftResults := fun _ =>
  ⟨accumulatorShift_result (core := fun _ => aslCore) rfl, accumulatorShift_result (core := fun _ => lsrCore) rfl,
    accumulatorShift_result (core := rolCore) rfl, accumulatorShift_result (core := rorCore) rfl⟩

/-- A one-byte instruction that writes one flag. -/
theorem flagInstr_result {i : Instr} {f : Flag} {b : Bool} {s : State}
    (h : exec i s = impliedInstr i (fun t => t.setFlag f b) s) :
    ∃ t, exec i s = .next t ∧ f.read t.p = b ∧ ImpliedFrame i [] [f] s t :=
  ⟨_, h, by simp [State.setFlag], ImpliedFrame.of_works (Works.setFlag ..)⟩

/-- Settles O51: the seven write one flag each. -/
theorem flagInstructionResults : Obligations.FlagInstructionResults := by
  intro s
  simp only [List.forall_mem_cons]
  exact ⟨flagInstr_result rfl, flagInstr_result rfl, flagInstr_result rfl, flagInstr_result rfl, flagInstr_result rfl,
    flagInstr_result rfl, flagInstr_result rfl, List.forall_mem_nil _⟩

/-! ### ALR, ANC, ARR and AXS (R259 to R262) -/

@[simp] theorem operand_immediate (s : State) (v : Byte) : s.operand (.immediate v) = v := rfl

theorem Works.alr (s : State) (v : Byte) :
    Works [.a] [.c, .z, .n] s { s with a := (lsrCore v).1, p := shiftFlags (lsrCore v) s.p } :=
  ⟨by simp [keepsRegs_iff], fun f hf => by simp_all, rfl⟩

theorem Works.anc (s : State) (v : Byte) : Works [.a] [.c, .z, .n] s { s with a := v, p := ancFlags v s.p } :=
  ⟨by simp [keepsRegs_iff], fun f hf => by simp_all, rfl⟩

theorem Works.arr (s : State) (v : Byte) : Works [.a] [.c, .z, .v, .n] s { s with a := v, p := arrFlags v s.p } :=
  ⟨by simp [keepsRegs_iff], fun f hf => by simp_all, rfl⟩

theorem Works.axs (s : State) (v m : Byte) : Works [.x] [.c, .z, .n] s { s.compareCore v m with x := v - m } :=
  ⟨by simp [keepsRegs_iff], compareCore_keepsFlags s v m, rfl⟩

/-- Settles O56: each works on A, X and flags with an immediate operand. -/
theorem immediateCombinationResults : Obligations.ImmediateCombinationResults := by
  intro v s ror
  refine ⟨?_, fun b => ?_, ?_, ?_⟩
  · exact ⟨_, rfl, rfl, by simp [lsrCore], by simp [lsrCore], by simp [FlagsZN],
      ReadFrame.of_works (o := .immediate v) (Works.alr ..) rfl⟩
  · exact ⟨_, rfl, rfl, by simp, by simp [FlagsZN], ReadFrame.of_works (o := .immediate v) (Works.anc ..) rfl⟩
  · exact ⟨_, rfl, rfl, by simp [FlagsZN, ror, rorCore], by simp [ror, rorCore], by simp [ror, rorCore],
      ReadFrame.of_works (o := .immediate v) (Works.arr ..) rfl⟩
  · exact ⟨_, rfl, rfl, compareCore_holdsComparison (s.advance 2) _ v,
      ReadFrame.of_works (o := .immediate v) (Works.axs ..) rfl⟩

end Sys2Proof.Machine
end

section
/-!
PROOF. The shapes of instruction that write memory (`40_addressing.md` R145, `60_exceptions.md` R280): stores,
read-modify-writes with their combinations, SHX and SHY; and the NOPs, which only resolve.
-/

namespace Sys2Proof.Machine

/-! ### Stores (R153 to R155, R258) -/

theorem storeFrame_of_ok (s : State) {i : Instr} {m : Mem} (hi : i.length = m.mode.length) (v : Byte) :
    StoreFrame i m v s (((s.resolved m).afterWrite (s.effAddr m) v).finishOk (cycles i (s.crosses m))) := by
  have hframe := (Frame.resolved s m).trans (Frame.afterWrite _ (s.effAddr m) v)
  exact ⟨hframe.finishOk _, by simp [State.afterInstr, hi], rfl⟩

/-- Settles O27: each store writes its byte at the effective address. -/
theorem storeResults : Obligations.StoreResults := by
  intro m s ho
  refine ⟨?_, ?_, ?_, ?_⟩
  · exact ⟨_, storeInstr_of_ok (.sta m) (fun u => u.a) ho, storeFrame_of_ok s rfl _⟩
  · exact ⟨_, storeInstr_of_ok (.stx m) (fun u => u.x) ho, storeFrame_of_ok s rfl _⟩
  · exact ⟨_, storeInstr_of_ok (.sty m) (fun u => u.y) ho, storeFrame_of_ok s rfl _⟩
  · exact ⟨_, storeInstr_of_ok (.sax m) (fun u => u.a &&& u.x) ho, storeFrame_of_ok s rfl _⟩

/-! ### Read-modify-writes (R63, R181, R201, R250) -/

/-- The state a read-modify-write's bus operations make: the effective address read once, and `r` written to it. -/
def State.modified (s : State) (m : Mem) (r : Byte) : State :=
  ((s.resolved m).afterRead (s.effAddr m)).afterWrite (s.effAddr m) r

@[simp] theorem State.modified_a (s : State) (m : Mem) (r : Byte) : (s.modified m r).a = s.a := State.resolved_a s m

@[simp] theorem State.modified_p (s : State) (m : Mem) (r : Byte) : (s.modified m r).p = s.p := State.resolved_p s m

@[simp] theorem State.modified_pc (s : State) (m : Mem) (r : Byte) :
    (s.modified m r).pc = s.pc + BitVec.ofNat 16 m.mode.length := State.resolved_pc s m

theorem Frame.modified (s : State) (m : Mem) (r : Byte) :
    Frame [] [] [(s.effAddr m, r)] s (s.modified m r) (s.modified m r) :=
  ((Frame.resolved s m).trans (Frame.afterRead _ _)).trans (Frame.afterWrite _ _ _)

theorem ModifyFrame.of_works {i : Instr} {m : Mem} {r : Byte} {regs : List Reg} {flags : List Flag} {s t : State}
    (h : Works regs flags (s.modified m r) t) (hi : i.length = m.mode.length) :
    ModifyFrame i m r regs flags s (t.finishOk (cycles i (s.crosses m))) := by
  have hbase := (Frame.modified s m r).mono (List.nil_subset regs) (List.nil_subset flags)
  exact ⟨(hbase.works h).finishOk _, by simp [h.pc, State.afterInstr, hi], rfl⟩

/-- A read-modify-write whose first half makes a byte `r` and a status `p`: the second half starts from the state after
the bus operations, with that status. -/
theorem modifyInstr_of_status {i : Instr} {m : Mem} {f : Byte → State → Byte × State} {k : Byte → State → State}
    {s : State} {r p : Byte} (ho : s.busOk (s.effAddr m) = true) (hf : ∀ v t, (f v t).2.mapper = t.mapper)
    (h : ∀ u, u.p = s.p → f (s.operand (.mem m)) u = (r, u.loadStatus p)) :
    modifyInstr i m f k s =
      .next ((k r ((s.modified m r).loadStatus p)).finishOk (cycles i (s.crosses m))) := by
  have hv : s.operand (.mem m) = s.readByte (s.effAddr m) := readByte_resolved_eq s m _
  have hstatus := h ((s.resolved m).afterRead (s.effAddr m)) (by simp)
  rw [modifyInstr_of_ok i f k hf ho, ← hv, hstatus]
  simp only [afterWrite_loadStatus, State.modified]

/-- A shift core on a byte in memory, and then a second half. -/
theorem modifyInstr_shift {i : Instr} {m : Mem} (core : Bool → Byte → Byte × Bool) (k : Byte → State → State) {s : State}
    (ho : s.busOk (s.effAddr m) = true) :
    let rc := core (Flag.c.read s.p) (s.operand (.mem m))
    modifyInstr i m (shiftModify core) k s =
      .next ((k rc.1 ((s.modified m rc.1).loadStatus (shiftFlags rc s.p))).finishOk (cycles i (s.crosses m))) :=
  modifyInstr_of_status ho (shiftModify_mapper core) fun u hu => by simp only [shiftModify, hu]

/-- A step of a byte in memory, and then a second half. -/
theorem modifyInstr_step {i : Instr} {m : Mem} (f : Byte → Byte) (k : Byte → State → State) {s : State}
    (ho : s.busOk (s.effAddr m) = true) :
    let r := f (s.operand (.mem m))
    modifyInstr i m (stepModify f) k s =
      .next ((k r ((s.modified m r).loadStatus (setZN r s.p))).finishOk (cycles i (s.crosses m))) :=
  modifyInstr_of_status ho (stepModify_mapper f) fun u hu => by simp only [stepModify, hu]

theorem Works.shiftFlags (s : State) (rc : Byte × Bool) (m : Mem) (r : Byte) :
    Works [] [.c, .z, .n] (s.modified m r) ((s.modified m r).loadStatus (Machine.shiftFlags rc s.p)) :=
  Works.loadStatus _ fun f hf => by simp_all

theorem Works.stepFlags (s : State) (m : Mem) (r : Byte) :
    Works [] [.z, .n] (s.modified m r) ((s.modified m r).loadStatus (Machine.setZN r s.p)) :=
  Works.loadStatus _ fun f hf => by simp_all

/-- Settles O35: both step the byte, and there is no second half. -/
theorem memoryStepResults : Obligations.MemoryStepResults := by
  intro m s ho v
  refine ⟨?_, ?_⟩
  · exact ⟨_, modifyInstr_step (i := .inc m) (· + 1) (fun _ t => t) ho, FlagsZN.of_setZN rfl,
      ModifyFrame.of_works (Works.stepFlags ..) rfl⟩
  · exact ⟨_, modifyInstr_step (i := .dec m) (· - 1) (fun _ t => t) ho, FlagsZN.of_setZN rfl,
      ModifyFrame.of_works (Works.stepFlags ..) rfl⟩

/-- A shift of a byte in memory, whichever its core. -/
theorem memoryShift_result {i : Instr} {m : Mem} (core : Bool → Byte → Byte × Bool) {s : State}
    (ho : s.busOk (s.effAddr m) = true) (hi : i.length = m.mode.length)
    (h : exec i s = shiftInstr i (.mem m) core s) :
    let rc := core (Flag.c.read s.p) (s.operand (.mem m))
    ∃ t, exec i s = .next t ∧ Flag.c.read t.p = rc.2 ∧ FlagsZN rc.1 t ∧ ModifyFrame i m rc.1 [] [.c, .z, .n] s t := by
  rw [h, shiftInstr, modifyInstr_shift core _ ho]
  exact ⟨_, rfl, by simp, FlagsZN.of_setZN rfl, ModifyFrame.of_works (Works.shiftFlags ..) hi⟩

/-- Settles O39: each is its core on the byte in memory. -/
theorem memoryShiftResults : Obligations.MemoryShiftResults := fun _ _ ho =>
  ⟨memoryShift_result (fun _ => aslCore) ho rfl rfl, memoryShift_result (fun _ => lsrCore) ho rfl rfl,
    memoryShift_result rolCore ho rfl rfl, memoryShift_result rorCore ho rfl rfl⟩

/-! ### The combinations (R251 to R256) -/

/-- A shift in memory whose byte is then loaded into A together with A. -/
theorem Works.shiftThenLoadA (s : State) (rc : Byte × Bool) (m : Mem) (r v : Byte) :
    Works [.a] [.c, .z, .n] (s.modified m r) (((s.modified m r).loadStatus (Machine.shiftFlags rc s.p)).loadA v) :=
  ((Works.shiftFlags s rc m r).mono (by simp) (by simp)).trans ((Works.loadA _ v).mono (by simp) (by simp))

/-- A shift in memory combined with A, whichever its core and the combination. -/
theorem shiftCombination_result {i : Instr} {m : Mem} (core : Bool → Byte → Byte × Bool) (f : Byte → Byte → Byte)
    {s : State} (ho : s.busOk (s.effAddr m) = true) (hi : i.length = m.mode.length)
    (h : exec i s = modifyInstr i m (shiftModify core) (fun r t => t.loadA (f t.a r)) s) :
    let rc := core (Flag.c.read s.p) (s.operand (.mem m))
    ∃ t, exec i s = .next t ∧ t.a = f s.a rc.1 ∧ Flag.c.read t.p = rc.2 ∧ FlagsZN t.a t ∧
      ModifyFrame i m rc.1 [.a] [.c, .z, .n] s t := by
  rw [h, modifyInstr_shift core _ ho]
  exact ⟨_, rfl, by simp, by simp, FlagsZN.of_setZN rfl, ModifyFrame.of_works (Works.shiftThenLoadA ..) hi⟩

/-- Settles O54: ASL with OR, ROL with AND, LSR with exclusive OR. -/
theorem shiftCombinationResults : Obligations.ShiftCombinationResults := fun _ _ ho =>
  ⟨shiftCombination_result (fun _ => aslCore) (· ||| ·) ho rfl rfl, shiftCombination_result rolCore (· &&& ·) ho rfl rfl,
    shiftCombination_result (fun _ => lsrCore) (· ^^^ ·) ho rfl rfl⟩

theorem HoldsSum.finishOk {a m : Byte} {c : Bool} {t : State} (h : HoldsSum a m c t) (n : Nat) :
    HoldsSum a m c (t.finishOk n) := h

theorem HoldsDifference.finishOk {a m : Byte} {c : Bool} {t : State} (h : HoldsDifference a m c t) (n : Nat) :
    HoldsDifference a m c (t.finishOk n) := h

theorem HoldsComparison.finishOk {reg m : Byte} {t : State} (h : HoldsComparison reg m t) (n : Nat) :
    HoldsComparison reg m (t.finishOk n) := h

/-- Settles O55: the second half is the adder or the comparator, on the status the first half left. -/
theorem arithmeticCombinationResults : Obligations.ArithmeticCombinationResults := by
  intro m s ho v ror
  refine ⟨?_, ?_, ?_⟩
  · refine ⟨_, modifyInstr_shift (i := .rra m) rorCore (fun r t => t.addCore r) ho,
      (addCore_holdsSum (by simp) (by simp [v, rorCore]) ror).finishOk _, ModifyFrame.of_works ?_ rfl⟩
    exact ((Works.shiftFlags ..).mono (by simp) (by simp)).trans (Works.addCore ..)
  · refine ⟨_, modifyInstr_step (i := .dcp m) (· - 1) (fun r t => t.compareCore t.a r) ho,
      (compareCore_holds _ (by simp) (v - 1)).finishOk _, ModifyFrame.of_works ?_ rfl⟩
    exact ((Works.stepFlags ..).mono (by simp) (by simp)).trans (Works.compareCore ..)
  · refine ⟨_, modifyInstr_step (i := .isc m) (· + 1) (fun r t => t.addCore (~~~r)) ho,
      (addCore_holdsDifference (by simp) (by simp) (v + 1)).finishOk _, ModifyFrame.of_works ?_ rfl⟩
    exact ((Works.stepFlags ..).mono (by simp) (by simp)).trans (Works.addCore ..)

/-! ### SHX and SHY (R265, R266) -/

theorem afterWrite_jump (s : State) (w b : Word) (v : Byte) : (s.jump w).afterWrite b v = (s.afterWrite b v).jump w := by
  unfold State.afterWrite State.gfxAfterWrite State.nromWrite State.jump
  split_ifs <;> rfl

/-- Where SHX and SHY store: the crossed page is the changed high byte. -/
theorem highAndAddr_indexed (w : Word) (index v : Byte) : highAndAddr (indexed w index) v =
    if hiByte (w + zext16 index) = hiByte w then w + zext16 index else word v (loByte (w + zext16 index)) := by
  by_cases h : hiByte (w + zext16 index) = hiByte w <;> simp [highAndAddr, indexed, pageCrossed, h]

/-- The store of SHX and SHY, which cost no more across a page. -/
theorem highAndStore_frame (s : State) (a : Word) (v : Byte) :
    Frame [] [] [(a, v)] s (s.afterWrite a v) (((s.advance 3).afterWrite a v).finishOk 5) ∧
      Finished (s.pc + 3) 5 (((s.advance 3).afterWrite a v).finishOk 5) := by
  refine ⟨?_, rfl, rfl⟩
  rw [advance_eq_jump, afterWrite_jump]
  exact ((Frame.afterWrite s a v).jump _).finishOk _

theorem cycles_shx (w : Word) (crossed : Bool) : cycles (.shx w) crossed = 5 := by cases crossed <;> rfl

theorem cycles_shy (w : Word) (crossed : Bool) : cycles (.shy w) crossed = 5 := by cases crossed <;> rfl

/-- Settles O57: one store, at the address the page cross decides. -/
theorem highAndStoreResults : Obligations.HighAndStoreResults := by
  refine fun w s => ⟨fun hbus => ?_, fun hbus => ?_⟩
  · rw [exec_shx, highAndAddr_indexed, cycles_shx]
    exact ⟨_, if_pos hbus, highAndStore_frame s _ _⟩
  · rw [exec_shy, highAndAddr_indexed, cycles_shy]
    exact ⟨_, if_pos hbus, highAndStore_frame s _ _⟩

/-! ### NOPs (R247, R264) -/

/-- Settles O52: the operand is resolved where there is one, and nothing else is done. -/
theorem nopResults : Obligations.NopResults := by
  refine ⟨fun s => ?_, fun b s => ?_, fun b v s => ?_, fun b m s => ?_⟩
  · exact ⟨_, rfl, ImpliedFrame.of_works (Works.refl [] [] _)⟩
  · exact ⟨_, rfl, ImpliedFrame.of_works (Works.refl [] [] _)⟩
  · exact ⟨_, rfl, ((Frame.refl s).advance 2).finishOk _, rfl, rfl⟩
  · exact ⟨_, rfl, ((Frame.resolve s m).advance _).finishOk _, by simp [State.afterInstr, Instr.length, NopOperand.mode], rfl⟩

end Sys2Proof.Machine
end

section
/-!
PROOF. The stack (`44_stack.md` R210 to R214) and control flow (`45_control_flow.md` R220 to R233): pushes and pulls in
numbers, then each instruction as its pushes, pulls and reads followed by a jump.
-/

namespace Sys2Proof.Machine

/-! ### The stack pointer in numbers -/

theorem toNat_byte_sub_two (v : Byte) : (v - 1 - 1).toNat = (v.toNat + 254) % 256 := by
  rw [toNat_byte_pred, toNat_byte_pred]; omega

theorem toNat_byte_sub_three (v : Byte) : (v - 1 - 1 - 1).toNat = (v.toNat + 253) % 256 := by
  rw [toNat_byte_pred, toNat_byte_sub_two]; omega

theorem toNat_byte_add_two (v : Byte) : (v + 1 + 1).toNat = (v.toNat + 2) % 256 := by
  rw [BitVec.add_assoc]; exact BitVec.toNat_add ..

theorem toNat_byte_add_three (v : Byte) : (v + 1 + 1 + 1).toNat = (v.toNat + 3) % 256 := by
  rw [BitVec.add_assoc, BitVec.add_assoc]; exact BitVec.toNat_add ..

/-! ### PHA, PHP, PLA and PLP (R211 to R214) -/

/-- A one-byte instruction that pushes. -/
theorem push_finished (s : State) (v : Byte) {i : Instr} (hi : cycles i false = 3) :
    Frame [.sp] [] [(stackAddr s.sp, v)] s (s.push v) (((s.advance 1).push v).finishOk (cycles i false)) ∧
      Finished (s.pc + 1) 3 (((s.advance 1).push v).finishOk (cycles i false)) := by
  refine ⟨?_, rfl, by rw [← hi]; rfl⟩
  rw [advance_eq_jump, push_jump]
  exact ((Frame.push s v).jump _).finishOk _

/-- Settles O40: each is one push. -/
theorem pushResults : Obligations.PushResults := by
  refine fun s => ⟨toNat_stackAddr s.sp, ⟨_, rfl, toNat_byte_pred s.sp, push_finished s s.a rfl⟩,
    ⟨_, rfl, toNat_byte_pred s.sp, push_finished s (s.p ||| 0x30) rfl⟩⟩

/-- The pull of a one-byte instruction, with PC past it. -/
theorem afterPull_advance (s : State) (n : Nat) : (s.advance n).afterPull = s.afterPull.advance n := afterPull_jump s _

/-- Settles O41: each is one pull and then a load. -/
theorem pullResults : Obligations.PullResults := by
  intro s v
  have hpull : Frame [.sp] [] [] s s.afterPull (s.advance 1).afterPull := by
    rw [afterPull_advance]; exact (Frame.afterPull s).advance 1
  refine ⟨⟨_, rfl, rfl, BitVec.toNat_add .., FlagsZN.of_setZN rfl, ?_, rfl, rfl⟩,
    ⟨_, rfl, rfl, BitVec.toNat_add .., ?_, rfl, rfl⟩⟩
  · exact ((hpull.mono (by simp) (by simp)).works ((Works.loadA _ v).mono (by simp) (by simp))).finishOk _
  · exact ((hpull.mono (by simp) (by simp)).works ((Works.anyStatus _ _).mono (by simp) (by simp))).finishOk _

/-! ### Stack discipline (R210) -/

theorem add_one_add_ofNat (sp : Byte) (k : Nat) : sp + 1 + BitVec.ofNat 8 k = sp + BitVec.ofNat 8 (k + 1) := by
  rw [BitVec.add_assoc, Nat.add_comm k 1, BitVec.ofNat_add]; rfl

/-- What pulls return depends on the stack pointer and the bytes above it alone. -/
theorem pulledBytes_congr {n : Nat} {s t : State} (h : SameStackTop n t s) :
    State.pulledBytes n s = State.pulledBytes n t := by
  induction n generalizing s t with
  | zero => rfl
  | succ n ih =>
    obtain ⟨hsp, hbytes⟩ := h
    have hfirst : s.pullByte = t.pullByte := by
      have h1 := hbytes 1 (by omega) (by omega)
      rw [State.pullByte, State.pullByte, hsp]; exact h1
    have hrest : SameStackTop n t.afterPull s.afterPull := by
      refine ⟨congrArg (· + 1) hsp, fun k hk hkn => ?_⟩
      have hk1 := hbytes (k + 1) (by omega) (by omega)
      rw [State.afterPull_sp, readByte_afterPull _ (isGfx_stackAddr _), readByte_afterPull _ (isGfx_stackAddr _),
        add_one_add_ofNat]
      exact hk1
    exact congrArg₂ (· :: ·) hfirst (ih hrest)

theorem afterPulls_sp (n : Nat) (s : State) : (State.afterPulls n s).sp = s.sp + BitVec.ofNat 8 n := by
  induction n generalizing s with
  | zero => exact (BitVec.add_zero _).symm
  | succ n ih => rw [State.afterPulls, ih, State.afterPull_sp, add_one_add_ofNat]

theorem pushAll_append_singleton (s : State) (vs : List Byte) (v : Byte) :
    s.pushAll (vs ++ [v]) = (s.pushAll vs).push v := List.foldl_append

theorem pullByte_push (s : State) (v : Byte) : (s.push v).pullByte = v := by
  rw [State.pullByte, State.push_sp, BitVec.sub_add_cancel, readByte_push_stack, if_pos rfl]

/-- After a push and a pull the next 255 bytes of the stack are as before. -/
theorem sameStackTop_push_afterPull (s : State) (v : Byte) {n : Nat} (hn : n < 256) :
    SameStackTop n s (s.push v).afterPull := by
  refine ⟨BitVec.sub_add_cancel _ _, fun k hk hkn => ?_⟩
  have hne : s.sp + BitVec.ofNat 8 k ≠ s.sp := by
    intro h
    have hnat := congrArg BitVec.toNat h
    rw [BitVec.toNat_add, BitVec.toNat_ofNat] at hnat
    have := s.sp.isLt
    omega
  rw [readByte_afterPull _ (isGfx_stackAddr _), readByte_push_stack, if_neg hne]

theorem pulledBytes_pushAll (s : State) (vs : List Byte) (h : vs.length ≤ 256) :
    State.pulledBytes vs.length (s.pushAll vs) = vs.reverse := by
  induction vs using List.reverseRecOn with
  | nil => rfl
  | append_singleton vs v ih =>
    rw [List.length_append, List.length_singleton] at h ⊢
    rw [pushAll_append_singleton, State.pulledBytes, pullByte_push,
      pulledBytes_congr (sameStackTop_push_afterPull _ v (by omega)), ih (by omega), List.reverse_append]
    rfl

theorem pushAll_sp (s : State) (vs : List Byte) : (s.pushAll vs).sp = s.sp - BitVec.ofNat 8 vs.length := by
  induction vs using List.reverseRecOn with
  | nil => exact (BitVec.sub_zero _).symm
  | append_singleton vs v ih =>
    rw [pushAll_append_singleton, State.push_sp, ih, List.length_append, List.length_singleton, BitVec.ofNat_add,
      BitVec.sub_sub]
    rfl

/-- Settles O42: by induction on the list from its end, the last byte pushed being the first pulled. -/
theorem stackDiscipline : Obligations.StackDiscipline := fun s vs h =>
  ⟨pulledBytes_pushAll s vs h, by rw [afterPulls_sp, pushAll_sp, BitVec.sub_add_cancel]⟩

/-! ### Branches (R220 to R228) -/

/-- A branch, whichever flag it tests. -/
theorem branch_result {i : Instr} {f : Flag} {polarity : Bool} {d : Byte} {s : State}
    (h : exec i s = branchInstr i f polarity d s) (hi : baseCycles i = 2) :
    ∃ t, exec i s = .next t ∧ Frame [] [] [] s s t ∧
      if f.read s.p = polarity then
        Finished (relativeTarget s.pc d).ea (if (relativeTarget s.pc d).crossed then 4 else 3) t
      else Finished (s.pc + 2) 2 t := by
  refine ⟨_, h, (((Frame.refl s).advance 2).jump _).finishOk _, ?_⟩
  by_cases hf : f.read s.p = polarity
  · rw [if_pos hf]
    cases hc : (relativeTarget s.pc d).crossed <;> simp [Finished, branchCycles, hf, hi]
  · rw [if_neg hf]
    simp [Finished, branchCycles, hf, hi]

/-- Settles O43: the eight branches differ in flag and polarity alone. -/
theorem branchResults : Obligations.BranchResults := by
  intro d s
  simp only [List.forall_mem_cons]
  exact ⟨branch_result rfl rfl, branch_result rfl rfl, branch_result rfl rfl, branch_result rfl rfl,
    branch_result rfl rfl, branch_result rfl rfl, branch_result rfl rfl, branch_result rfl rfl, List.forall_mem_nil _⟩

/-! ### JMP (R137, R229) -/

theorem toNat_loByte (w : Word) : (loByte w).toNat = w.toNat % 256 := by
  have h := toNat_word (hiByte w) (loByte w)
  rw [word_hiByte_loByte] at h
  have := (loByte w).isLt
  omega

/-- The second byte of JMP's pointer lies in the page of the first. -/
theorem toNat_pointerHigh (ptr : Word) :
    (pointerHigh ptr).toNat = if ptr.toNat % 256 = 255 then ptr.toNat - 255 else ptr.toNat + 1 := by
  have hsucc : (loByte ptr + 1).toNat = (ptr.toNat % 256 + 1) % 256 := by rw [BitVec.toNat_add, toNat_loByte]; rfl
  rw [pointerHigh, toNat_word, toNat_hiByte, hsucc]
  split <;> omega

/-- A page of the cartridge space is the mapper's as a whole. -/
theorem busOk_pointerHigh {s : State} {ptr : Word} (h : s.busOk ptr = true) : s.busOk (pointerHigh ptr) = true := by
  rw [busOk_iff] at h ⊢
  rw [toNat_pointerHigh]
  refine h.imp_right fun hlt => ?_
  split <;> omega

/-- Settles O44: a literal, or two reads of one page and a jump. -/
theorem jumpResults : Obligations.JumpResults := by
  refine ⟨fun w s => ⟨_, rfl, ((Frame.refl s).jump w).finishOk _, rfl, rfl⟩, fun ptr second s hsecond hbus => ?_⟩
  obtain rfl : second = pointerHigh ptr := BitVec.eq_of_toNat_eq (hsecond.trans (toNat_pointerHigh ptr).symm)
  refine ⟨_, (exec_jmp_indirect ptr s).trans (if_pos ⟨hbus, busOk_pointerHigh hbus⟩), ?_, rfl, rfl⟩
  exact (((Frame.afterRead s ptr).trans (Frame.afterRead _ _)).jump _).finishOk _

/-! ### Calls and returns (R230 to R233, R287, R288) -/

/-- Two pushes. -/
theorem Frame.push_push (s : State) (v w : Byte) : Frame [.sp] [] [(stackAddr s.sp, v), (stackAddr (s.sp - 1), w)] s
    ((s.push v).push w) ((s.push v).push w) := (Frame.push s v).trans (Frame.push (s.push v) w)

theorem exec_jsr (w : Word) (s : State) :
    exec (.jsr w) s = .next ((((s.push (hiByte (s.pc + 2))).push (loByte (s.pc + 2))).jump w).finishOk 6) := by
  have hret : (s.advance 3).pc - 1 = s.pc + 2 := by
    rw [State.advance_pc, show BitVec.ofNat 16 3 = 2 + 1 from rfl, ← BitVec.add_assoc, BitVec.add_sub_cancel]
  have h : exec (.jsr w) s = .next (((((s.advance 3).push (hiByte ((s.advance 3).pc - 1))).push
      (loByte ((s.advance 3).pc - 1))).jump w).finishOk 6) := rfl
  rw [h, hret, advance_eq_jump, push_jump, push_jump, jump_jump]

/-- Settles O45: two pushes and a jump. -/
theorem jsrResult : Obligations.JsrResult := fun w s =>
  ⟨_, exec_jsr w s, toNat_byte_sub_two s.sp, ((Frame.push_push s _ _).jump w).finishOk 6, rfl, rfl⟩

theorem exec_rts (s : State) : exec .rts s = .next ((s.afterPull.afterPull.jump
    (word (s.readByte (stackAddr (s.sp + 2))) (s.readByte (stackAddr (s.sp + 1))) + 1)).finishOk 6) := by
  rw [← pullByte_afterPull]; rfl

/-- Settles O46: two pulls and a jump. -/
theorem rtsResult : Obligations.RtsResult := fun s =>
  ⟨_, exec_rts s, toNat_byte_add_two s.sp,
    (((Frame.afterPull s).trans (Frame.afterPull _)).jump _).finishOk 6, rfl, rfl⟩

theorem exec_rti (s : State) : exec .rti s = .next
    (((s.afterPull.afterPull.afterPull.loadStatus (pulledStatus s.pullByte)).jump
      (word (s.readByte (stackAddr (s.sp + 3))) (s.readByte (stackAddr (s.sp + 2))))).finishOk 6) := by
  rw [← returnFromInterrupt_eq]; rfl

/-- Settles O47: three pulls, a new status and a jump. -/
theorem rtiResult : Obligations.RtiResult := by
  intro s
  have hpulls := ((Frame.afterPull s).trans (Frame.afterPull _)).trans (Frame.afterPull s.afterPull.afterPull)
  have hstatus := (hpulls.mono (List.Subset.refl _) (List.nil_subset _)).works
    ((Works.anyStatus _ (pulledStatus s.pullByte)).mono (List.nil_subset _) (List.Subset.refl _))
  exact ⟨_, exec_rti s, toNat_byte_add_three s.sp, rfl, (hstatus.jump _).finishOk 6, rfl, rfl⟩

/-- What BRK leaves on the stack. -/
def State.brokenAt (s : State) : State :=
  ((s.push (hiByte (s.pc + 2))).push (loByte (s.pc + 2))).push (pushedStatus s.p)

theorem saveForBreak_advance (s : State) :
    (s.advance 1).saveForBreak = (s.brokenAt.loadStatus (Flag.i.write true s.p)).jump (s.pc + 1) := by
  have hret : (s.advance 1).pc + 1 = s.pc + 2 := by rw [State.advance_pc, BitVec.add_assoc]; rfl
  rw [saveForBreak_eq, hret, advance_eq_jump]
  simp only [push_jump, loadStatus_jump]
  rfl

/-- A push leaves every byte above RAM as it is. -/
theorem readByte_push_of_le_4000 (s : State) (v : Byte) {b : Word} (hb : 0x4000 ≤ b.toNat) :
    (s.push v).readByte b = s.readByte b := by
  rw [readByte_push s v (isGfx_of_le_4000 hb), if_neg]
  rw [storageOf_stackAddr, storageOf_eq]
  split_ifs <;> simp; omega

theorem readByte_brokenAt (s : State) {b : Word} (hb : 0x4000 ≤ b.toNat) : s.brokenAt.readByte b = s.readByte b := by
  simp only [State.brokenAt, readByte_push_of_le_4000 _ _ hb]

theorem exec_brk_of_nrom {s : State} (hm : s.mapper = .nrom) : exec .brk s = .next
    (((((s.brokenAt.afterRead 0xFFFE).afterRead 0xFFFF).loadStatus (Flag.i.write true s.p)).jump
      (word (s.readByte 0xFFFF) (s.readByte 0xFFFE))).finishOk 7) := by
  have hlo : 0x4000 ≤ (brkVector : Word).toNat := by decide
  have hhi : 0x4000 ≤ (brkVector + 1 : Word).toNat := by decide
  rw [exec_brk, if_pos hm, readByte_afterRead _ _ (isGfx_of_le_4000 hhi), saveForBreak_advance]
  simp only [afterRead_jump, afterRead_loadStatus, jump_jump, readByte_jump, readByte_loadStatus,
    readByte_brokenAt _ hlo, readByte_brokenAt _ hhi]
  rfl

/-- Settles O48: three pushes, I set, two reads and a jump. -/
theorem brkResult : Obligations.BrkResult := by
  intro s hm hi lo saved
  have hpushes : Frame [.sp] [] [(stackAddr s.sp, hi), (stackAddr (s.sp - 1), lo), (stackAddr (s.sp - 2), s.p ||| 0x30)]
      s saved saved := by
    have h := (Frame.push_push s hi lo).trans (Frame.push _ (s.p ||| 0x30))
    have hsp : ((s.push hi).push lo).sp = s.sp - 2 := by
      rw [State.push_sp, State.push_sp, BitVec.sub_sub]; rfl
    rw [hsp] at h
    exact h
  have hreads := hpushes.trans
    (((Frame.afterRead saved 0xFFFE).trans (Frame.afterRead _ 0xFFFF)).mono (List.nil_subset _) (List.nil_subset _))
  have hstatus : Works [] [.i] ((saved.afterRead 0xFFFE).afterRead 0xFFFF)
      (((saved.afterRead 0xFFFE).afterRead 0xFFFF).loadStatus (Flag.i.write true s.p)) :=
    Works.loadStatus _ fun f hf => by simp_all [saved]
  refine ⟨_, exec_brk_of_nrom hm, toNat_byte_sub_three s.sp, by simp, ?_, rfl, rfl⟩
  exact (((hreads.mono (List.Subset.refl _) (List.nil_subset _)).works
    (hstatus.mono (List.nil_subset _) (List.Subset.refl _))).jump _).finishOk 7

/-! ### A return undoes its call -/

@[simp] theorem readByte_finishOk (s : State) (n : Nat) (b : Word) : (s.finishOk n).readByte b = s.readByte b := rfl

theorem SameStackTop.congr {n : Nat} {s t u : State} (h : SameStackTop n t u) (hsp : t.sp = s.sp)
    (hbytes : ∀ b, isGfx b = false → t.readByte b = s.readByte b) : SameStackTop n s u := by
  refine ⟨h.1.trans hsp, fun k hk hkn => ?_⟩
  rw [← hsp, ← hbytes _ (isGfx_stackAddr _)]
  exact h.2 k hk hkn

/-- On top of a stack as a push left it, a pull returns the byte pushed and leaves the stack as it was before the push. -/
theorem SameStackTop.pull {n : Nat} {s u : State} {v : Byte} (h : SameStackTop (n + 1) (s.push v) u) (hn : n < 256) :
    u.pullByte = v ∧ SameStackTop n s u.afterPull := by
  obtain ⟨hsp, hbytes⟩ := h
  obtain ⟨-, hbelow⟩ := sameStackTop_push_afterPull s v hn
  refine ⟨?_, ?_, fun k hk hkn => ?_⟩
  · rw [State.pullByte, hsp]
    exact (hbytes 1 (by omega) (by omega)).trans (pullByte_push s v)
  · rw [State.afterPull_sp, hsp, State.push_sp, BitVec.sub_add_cancel]
  · have hk1 := hbytes (k + 1) (by omega) (by omega)
    rw [← add_one_add_ofNat, State.push_sp, BitVec.sub_add_cancel] at hk1
    have hk2 := hbelow k hk hkn
    rw [readByte_afterPull _ (isGfx_stackAddr _)] at hk2 ⊢
    exact hk1.trans hk2

/-- Settles O49: RTS pulls the address JSR pushed. -/
theorem callReturns : Obligations.CallReturns := by
  intro w s t u v hjsr htop hrts
  rw [exec_jsr] at hjsr
  rw [exec_rts, ← pullByte_afterPull] at hrts
  rw [← Host.Outcome.next.inj hjsr] at htop
  obtain ⟨hlo, htop⟩ := (htop.congr (s := (s.push (hiByte (s.pc + 2))).push (loByte (s.pc + 2))) rfl (by simp)).pull
    (by decide)
  obtain ⟨hhi, htop⟩ := htop.pull (by decide)
  rw [← Host.Outcome.next.inj hrts]
  refine ⟨?_, htop.1⟩
  rw [State.finishOk_pc, State.jump_pc, hhi, ← State.pullByte, hlo, word_hiByte_loByte, BitVec.add_assoc]
  rfl

/-- The status BRK pushes is loaded back as it was where Unused and Break stand as R26 has them. -/
theorem pulledStatus_pushedStatus {p : Byte} (hu : Flag.u.read p = true) (hb : Flag.b.read p = false) :
    pulledStatus (pushedStatus p) = p := by
  refine Flag.ext_read fun f => ?_
  cases f <;> simp [hu, hb]

/-- BRK under the guard mapper answers no next state. -/
theorem nrom_of_exec_brk {s t : State} (h : exec .brk s = .next t) : s.mapper = .nrom := by
  rw [exec_brk] at h
  by_contra hm
  rw [if_neg hm] at h
  cases h

/-- Settles O50: RTI pulls the status and the address BRK pushed. -/
theorem breakReturns : Obligations.BreakReturns := by
  intro s t u v hs hbrk htop hrti
  obtain ⟨hu, hb⟩ := (statusOk_iff s).1 hs
  rw [exec_brk_of_nrom (nrom_of_exec_brk hbrk)] at hbrk
  rw [exec_rti, ← pullByte_afterPull_afterPull, ← pullByte_afterPull] at hrti
  rw [← Host.Outcome.next.inj hbrk] at htop
  have hbytes : ∀ b, isGfx b = false → ((s.brokenAt.afterRead 0xFFFE).afterRead 0xFFFF).readByte b = s.brokenAt.readByte b :=
    fun b hg => by rw [readByte_afterRead _ _ hg, readByte_afterRead _ _ hg]
  obtain ⟨hp, htop⟩ := (htop.congr (s := s.brokenAt) rfl fun b hg => by simpa using hbytes b hg).pull (by decide)
  obtain ⟨hlo, htop⟩ := htop.pull (by decide)
  obtain ⟨hhi, htop⟩ := htop.pull (by decide)
  rw [← Host.Outcome.next.inj hrti]
  refine ⟨?_, htop.1, ?_⟩
  · rw [State.finishOk_pc, State.jump_pc, hhi, hlo, word_hiByte_loByte]
  · rw [State.finishOk_p, State.jump_p, hp]
    exact pulledStatus_pushedStatus hu hb

end Sys2Proof.Machine
end

section
/-!
PROOF. Decimal and Interrupt-disable are inert (`42_arith_logic.md` R188, `60_exceptions.md` R285): forcing such a flag
commutes with every operation of the machine, and so with every instruction that does not write or push it.
-/

namespace Sys2Proof.Machine

/-! ### Forcing a flag commutes with the bus, the stack and the resolver -/

theorem push_loadStatus (s : State) (p v : Byte) : (s.loadStatus p).push v = (s.push v).loadStatus p := by
  unfold State.push State.afterWrite State.gfxAfterWrite State.nromWrite State.log State.loadStatus
  split_ifs <;> rfl

theorem resolve_loadStatus (s : State) (p : Byte) (m : Mem) :
    (s.loadStatus p).resolve m = ((s.resolve m).1, (s.resolve m).2.loadStatus p) := by
  cases m with
  | indirectX i | indirectY i =>
    simp only [State.resolve, State.zeroPagePointer, afterRead_loadStatus, readByte_loadStatus]
    rfl
  | _ => rfl

section
variable (s : State) (f : Flag) (b : Bool)

@[simp] theorem readByte_setFlag (c : Word) : (s.setFlag f b).readByte c = s.readByte c := rfl

@[simp] theorem busOk_setFlag (c : Word) : (s.setFlag f b).busOk c = s.busOk c := rfl

@[simp] theorem pullByte_setFlag : (s.setFlag f b).pullByte = s.pullByte := rfl

@[simp] theorem advance_setFlag (n : Nat) : (s.setFlag f b).advance n = (s.advance n).setFlag f b := rfl

@[simp] theorem jump_setFlag (w : Word) : (s.setFlag f b).jump w = (s.jump w).setFlag f b := rfl

@[simp] theorem finishOk_setFlag (n : Nat) : (s.setFlag f b).finishOk n = (s.finishOk n).setFlag f b := rfl

@[simp] theorem afterRead_setFlag (c : Word) : (s.setFlag f b).afterRead c = (s.afterRead c).setFlag f b :=
  afterRead_loadStatus s _ c

@[simp] theorem afterWrite_setFlag (c : Word) (v : Byte) :
    (s.setFlag f b).afterWrite c v = (s.afterWrite c v).setFlag f b := afterWrite_loadStatus s _ c v

@[simp] theorem push_setFlag (v : Byte) : (s.setFlag f b).push v = (s.push v).setFlag f b := push_loadStatus s _ v

@[simp] theorem afterPull_setFlag : (s.setFlag f b).afterPull = s.afterPull.setFlag f b := afterPull_loadStatus s _

theorem resolve_setFlag (m : Mem) :
    (s.setFlag f b).resolve m = ((s.resolve m).1, (s.resolve m).2.setFlag f b) := by
  rw [State.setFlag, resolve_loadStatus, State.setFlag, State.resolve_p]

@[simp] theorem effAddr_setFlag (m : Mem) : (s.setFlag f b).effAddr m = s.effAddr m := by
  simp only [State.effAddr, resolve_setFlag]

@[simp] theorem crosses_setFlag (m : Mem) : (s.setFlag f b).crosses m = s.crosses m := by
  simp only [State.crosses, resolve_setFlag]

@[simp] theorem resolved_setFlag (m : Mem) : (s.setFlag f b).resolved m = (s.resolved m).setFlag f b := by
  simp only [State.resolved, resolve_setFlag, advance_setFlag]

@[simp] theorem operand_setFlag (o : Src) : (s.setFlag f b).operand o = s.operand o := by
  cases o <;> simp [State.operand]

@[simp] theorem afterOperand_setFlag (o : Src) : (s.setFlag f b).afterOperand o = (s.afterOperand o).setFlag f b := by
  cases o <;> simp [State.afterOperand]

@[simp] theorem operandCrosses_setFlag (o : Src) : (s.setFlag f b).operandCrosses o = s.operandCrosses o := by
  cases o <;> simp [State.operandCrosses]

@[simp] theorem operandOk_setFlag (o : Src) : (s.setFlag f b).operandOk o = s.operandOk o := by
  cases o <;> simp [State.operandOk]

end

/-! ### Forcing an inert flag commutes with the register cores -/

section
variable {f : Flag} (hf : f = .d ∨ f = .i) (b : Bool)
include hf

theorem setZN_write (r p : Byte) : setZN r (f.write b p) = f.write b (setZN r p) := by
  refine Flag.ext_read fun g => ?_
  rcases hf with rfl | rfl <;> cases g <;> simp

theorem addFlags_write (a m p : Byte) : addFlags a m (f.write b p) = f.write b (addFlags a m p) := by
  refine Flag.ext_read fun g => ?_
  rcases hf with rfl | rfl <;> cases g <;> simp

theorem compareFlags_write (reg m p : Byte) : compareFlags reg m (f.write b p) = f.write b (compareFlags reg m p) := by
  refine Flag.ext_read fun g => ?_
  rcases hf with rfl | rfl <;> cases g <;> simp

theorem bitFlags_write (a m p : Byte) : bitFlags a m (f.write b p) = f.write b (bitFlags a m p) := by
  refine Flag.ext_read fun g => ?_
  rcases hf with rfl | rfl <;> cases g <;> simp

theorem shiftFlags_write (rc : Byte × Bool) (p : Byte) : shiftFlags rc (f.write b p) = f.write b (shiftFlags rc p) := by
  refine Flag.ext_read fun g => ?_
  rcases hf with rfl | rfl <;> cases g <;> simp

theorem ancFlags_write (r p : Byte) : ancFlags r (f.write b p) = f.write b (ancFlags r p) := by
  refine Flag.ext_read fun g => ?_
  rcases hf with rfl | rfl <;> cases g <;> simp

theorem arrFlags_write (r p : Byte) : arrFlags r (f.write b p) = f.write b (arrFlags r p) := by
  refine Flag.ext_read fun g => ?_
  rcases hf with rfl | rfl <;> cases g <;> simp

end

/-! ### Operations and instructions that ignore a flag -/

/-- An operation ignores `f` where forcing the flag before it is forcing it after it. -/
def Ignores (f : Flag) (b : Bool) (k : State → State) : Prop := ∀ u, k (u.setFlag f b) = (k u).setFlag f b

/-- The answer with its next state, if it has one, changed by `g`. -/
def mapNext (g : State → State) : Result → Result
  | .next t => .next (g t)
  | .fault x => .fault x
  | .refused r => .refused r

/-- An instruction's meaning ignores `f`: it answers the same, with the flag forced in its next state. -/
def Inert (f : Flag) (b : Bool) (e : State → Result) : Prop :=
  ∀ s, e (s.setFlag f b) = mapNext (·.setFlag f b) (e s)

theorem mapNext_ite (g : State → State) (c : Prop) [Decidable c] (t : State) (x : Fault) :
    mapNext g (if c then .next t else .fault x) = if c then .next (g t) else .fault x := by
  split <;> rfl

section
variable {f : Flag} {b : Bool}

theorem Ignores.id : Ignores f b fun u => u := fun _ => rfl

theorem Ignores.push {v : State → Byte} (hv : ∀ u, v (u.setFlag f b) = v u) : Ignores f b fun u => u.push (v u) :=
  fun u => by simp only [hv, push_setFlag]

theorem Ignores.setFlag {g : Flag} (hg : g ≠ f) (c : Bool) : Ignores f b fun u => u.setFlag g c := fun u => by
  have h : g.write c (f.write b u.p) = f.write b (g.write c u.p) := Flag.ext_read fun k => by
    by_cases h1 : k = g <;> by_cases h2 : k = f <;> simp_all
  simp only [State.setFlag, State.loadStatus, h]

/-! ### The shapes of instruction ignore what their parts ignore -/

theorem impliedInstr_inert {i : Instr} {k : State → State} (hk : Ignores f b k) : Inert f b (impliedInstr i k) :=
  fun s => by simp only [impliedInstr, advance_setFlag, hk _, finishOk_setFlag, mapNext]

theorem readInstr_inert {i : Instr} {o : Src} {k : Byte → State → State} (hk : ∀ v, Ignores f b (k v)) :
    Inert f b (readInstr i o k) := fun s => by
  simp only [readInstr, operandOk_setFlag, operand_setFlag, afterOperand_setFlag, hk _ _, operandCrosses_setFlag,
    finishOk_setFlag, mapNext_ite]

theorem storeInstr_inert {i : Instr} {m : Mem} {v : State → Byte} (hv : ∀ u, v (u.setFlag f b) = v u) :
    Inert f b (storeInstr i m v) := fun s => by
  cases h : s.busOk (s.effAddr m)
  · rw [storeInstr_of_not_ok i v h, storeInstr_of_not_ok i v (by simpa using h)]; rfl
  · rw [storeInstr_of_ok i v h, storeInstr_of_ok i v (by simpa using h)]
    simp [hv, mapNext]

/-- The first half of a read-modify-write makes the same byte, and ignores the flag in the state. -/
def ModifyIgnores (f : Flag) (b : Bool) (first : Byte → State → Byte × State) : Prop :=
  ∀ v u, first v (u.setFlag f b) = ((first v u).1, (first v u).2.setFlag f b)

theorem modifyInstr_inert {i : Instr} {m : Mem} {first : Byte → State → Byte × State} {k : Byte → State → State}
    (hm : ∀ v t, (first v t).2.mapper = t.mapper) (hfirst : ModifyIgnores f b first) (hk : ∀ v, Ignores f b (k v)) :
    Inert f b (modifyInstr i m first k) := fun s => by
  cases h : s.busOk (s.effAddr m)
  · rw [modifyInstr_of_not_ok i first k h, modifyInstr_of_not_ok i first k (by simpa using h)]; rfl
  · rw [modifyInstr_of_ok i first k hm h, modifyInstr_of_ok i first k hm (by simpa using h)]
    simp [hfirst _ _, hk _ _, mapNext]

theorem branchInstr_inert {i : Instr} {g : Flag} (hg : g ≠ f) (polarity : Bool) (d : Byte) :
    Inert f b (branchInstr i g polarity d) := fun s => by
  have hread : g.read (s.setFlag f b).p = g.read s.p := by simp [State.setFlag, State.loadStatus, hg]
  simp only [branchInstr, hread, advance_setFlag, jump_setFlag, finishOk_setFlag, mapNext]
  rfl

end

/-! ### What ignores Decimal and Interrupt-disable -/

section
variable {f : Flag} {b : Bool} (hf : f = .d ∨ f = .i)
include hf

theorem ne_of_inert {g : Flag} (hd : g ≠ .d) (hi : g ≠ .i) : g ≠ f := by rcases hf with rfl | rfl <;> assumption

theorem carry_setFlag (u : State) : Flag.c.read (u.setFlag f b).p = Flag.c.read u.p := by
  simp [State.setFlag, State.loadStatus, ne_of_inert hf (g := .c) (by decide) (by decide)]

theorem Ignores.loadA {v : State → Byte} (hv : ∀ u, v (u.setFlag f b) = v u) : Ignores f b fun u => u.loadA (v u) :=
  fun u => by simp only [hv]; simp only [State.loadA, State.setFlag, State.loadStatus, setZN_write hf]

theorem Ignores.loadX {v : State → Byte} (hv : ∀ u, v (u.setFlag f b) = v u) : Ignores f b fun u => u.loadX (v u) :=
  fun u => by simp only [hv]; simp only [State.loadX, State.setFlag, State.loadStatus, setZN_write hf]

theorem Ignores.loadY {v : State → Byte} (hv : ∀ u, v (u.setFlag f b) = v u) : Ignores f b fun u => u.loadY (v u) :=
  fun u => by simp only [hv]; simp only [State.loadY, State.setFlag, State.loadStatus, setZN_write hf]

theorem Ignores.addCore (m : Byte) : Ignores f b fun u => u.addCore m := fun u => by
  simp only [State.addCore, carry_setFlag hf]
  simp only [State.setFlag, State.loadStatus, addFlags_write hf]

theorem Ignores.compareCore {r : State → Byte} (hr : ∀ u, r (u.setFlag f b) = r u) (m : Byte) :
    Ignores f b fun u => u.compareCore (r u) m := fun u => by
  simp only [hr]
  simp only [State.compareCore, State.setFlag, State.loadStatus, compareFlags_write hf]

theorem Ignores.bit (v : Byte) : Ignores f b fun u => u.loadStatus (bitFlags u.a v u.p) := fun u => by
  simp only [State.setFlag, State.loadStatus, bitFlags_write hf]

theorem Ignores.lax (v : Byte) : Ignores f b fun u => { u.loadA v with x := v } := fun u => by
  simp only [State.loadA, State.setFlag, State.loadStatus, setZN_write hf]

theorem Ignores.pullA : Ignores f b fun u => u.afterPull.loadA u.pullByte := fun u => by
  simp only [afterPull_setFlag, pullByte_setFlag]
  exact Ignores.loadA hf (v := fun _ => u.pullByte) (fun _ => rfl) u.afterPull

theorem Ignores.alr (m : Byte) :
    Ignores f b fun u => let rc := lsrCore (u.a &&& m); { u with a := rc.1, p := shiftFlags rc u.p } := fun u => by
  simp only [State.setFlag, State.loadStatus, shiftFlags_write hf]

theorem Ignores.anc (m : Byte) : Ignores f b fun u => { u with a := u.a &&& m, p := ancFlags (u.a &&& m) u.p } :=
  fun u => by simp only [State.setFlag, State.loadStatus, ancFlags_write hf]

theorem Ignores.arr (m : Byte) : Ignores f b fun u =>
    let r := (rorCore (Flag.c.read u.p) (u.a &&& m)).1; { u with a := r, p := arrFlags r u.p } := fun u => by
  simp only [carry_setFlag hf]
  simp only [State.setFlag, State.loadStatus, arrFlags_write hf]

theorem Ignores.axs (m : Byte) :
    Ignores f b fun u => { u.compareCore (u.a &&& u.x) m with x := (u.a &&& u.x) - m } := fun u => by
  simp only [State.compareCore, State.setFlag, State.loadStatus, compareFlags_write hf]

theorem ModifyIgnores.shift (core : Bool → Byte → Byte × Bool) : ModifyIgnores f b (shiftModify core) := fun v u => by
  simp only [shiftModify, carry_setFlag hf]
  simp only [State.setFlag, State.loadStatus, shiftFlags_write hf]

theorem ModifyIgnores.step (g : Byte → Byte) : ModifyIgnores f b (stepModify g) := fun v u => by
  simp only [stepModify, State.setFlag, State.loadStatus, setZN_write hf]

theorem shiftInstr_inert (i : Instr) (o : Shiftee) (core : Bool → Byte → Byte × Bool) :
    Inert f b (shiftInstr i o core) := by
  cases o with
  | accumulator =>
    refine impliedInstr_inert (k := fun t => { (shiftModify core t.a t).2 with a := (shiftModify core t.a t).1 })
      fun u => ?_
    have h := ModifyIgnores.shift hf (b := b) core u.a u
    simp only [show (u.setFlag f b).a = u.a from rfl, h]
    rfl
  | mem m => exact modifyInstr_inert (shiftModify_mapper core) (ModifyIgnores.shift hf core) fun _ => Ignores.id

end

/-! ### Every instruction but those that write or push the flag -/

theorem jmp_inert (f : Flag) (b : Bool) (t : JumpTarget) : Inert f b (exec (.jmp t)) := fun s => by
  cases t with
  | absolute w => rfl
  | indirect ptr =>
    simp only [exec_jmp_indirect, busOk_setFlag, afterRead_setFlag, readByte_setFlag, jump_setFlag, finishOk_setFlag,
      mapNext_ite]

theorem jsr_inert (f : Flag) (b : Bool) (w : Word) : Inert f b (exec (.jsr w)) := fun s => by
  simp only [exec_jsr, push_setFlag, jump_setFlag, finishOk_setFlag, mapNext]
  rfl

theorem rts_inert (f : Flag) (b : Bool) : Inert f b (exec .rts) := fun s => by
  simp only [exec_rts, afterPull_setFlag, readByte_setFlag, jump_setFlag, finishOk_setFlag, mapNext]
  rfl

theorem shx_inert (f : Flag) (b : Bool) (w : Word) : Inert f b (exec (.shx w)) := fun s => by
  simp only [exec_shx, busOk_setFlag, advance_setFlag, afterWrite_setFlag, finishOk_setFlag, mapNext_ite]
  rfl

theorem shy_inert (f : Flag) (b : Bool) (w : Word) : Inert f b (exec (.shy w)) := fun s => by
  simp only [exec_shy, busOk_setFlag, advance_setFlag, afterWrite_setFlag, finishOk_setFlag, mapNext_ite]
  rfl

theorem nopDup_inert (f : Flag) (b : Bool) (c : Byte) (o : NopOperand) : Inert f b (exec (.nopDup c o)) := fun s => by
  cases o with
  | implied => rfl
  | immediate v => rfl
  | mem m => simp only [exec, execNopDup, resolved_setFlag, crosses_setFlag, finishOk_setFlag, mapNext]

/-- The instructions that write or push the flag `f`, for `f` Decimal or Interrupt-disable. -/
def touching (f : Flag) : List Instr := (if f = .d then [.sed, .cld] else [.sei, .cli]) ++ [.php, .plp, .rti, .brk]

theorem exec_inert {f : Flag} (hf : f = .d ∨ f = .i) (b : Bool) {i : Instr} (hi : i ∉ touching f) :
    Inert f b (exec i) := by
  intro s
  cases i with
  | lda o => simp only [exec]; exact readInstr_inert (fun v => Ignores.loadA hf fun _ => rfl) s
  | ldx o => simp only [exec]; exact readInstr_inert (fun v => Ignores.loadX hf fun _ => rfl) s
  | ldy o => simp only [exec]; exact readInstr_inert (fun v => Ignores.loadY hf fun _ => rfl) s
  | and o | ora o | eor o => simp only [exec]; exact readInstr_inert (fun v => Ignores.loadA hf fun _ => rfl) s
  | adc o | sbc o => simp only [exec]; exact readInstr_inert (fun v => Ignores.addCore hf _) s
  | sbcDup v => simp only [exec]; exact readInstr_inert (fun v => Ignores.addCore hf _) s
  | cmp o | cpx o | cpy o => simp only [exec]; exact readInstr_inert (fun v => Ignores.compareCore hf (fun _ => rfl) v) s
  | bit m => simp only [exec]; exact readInstr_inert (fun v => Ignores.bit hf v) s
  | lax m => simp only [exec]; exact readInstr_inert (fun v => Ignores.lax hf v) s
  | alr v => simp only [exec]; exact readInstr_inert (fun v => Ignores.alr hf v) s
  | anc c v => simp only [exec]; exact readInstr_inert (fun v => Ignores.anc hf v) s
  | arr v => simp only [exec]; exact readInstr_inert (fun v => Ignores.arr hf v) s
  | axs v => simp only [exec]; exact readInstr_inert (fun v => Ignores.axs hf v) s
  | sta m | stx m | sty m | sax m => simp only [exec]; exact storeInstr_inert (fun _ => rfl) s
  | tax | tsx | inx | dex => simp only [exec]; exact impliedInstr_inert (Ignores.loadX hf fun _ => rfl) s
  | tay | iny | dey => simp only [exec]; exact impliedInstr_inert (Ignores.loadY hf fun _ => rfl) s
  | txa | tya => simp only [exec]; exact impliedInstr_inert (Ignores.loadA hf fun _ => rfl) s
  | inc m | dec m =>
    simp only [exec]; exact modifyInstr_inert (stepModify_mapper _) (ModifyIgnores.step hf _) (fun _ => Ignores.id) s
  | dcp m =>
    simp only [exec]
    exact modifyInstr_inert (stepModify_mapper _) (ModifyIgnores.step hf _)
      (fun v => Ignores.compareCore hf (fun _ => rfl) v) s
  | isc m =>
    simp only [exec]
    exact modifyInstr_inert (stepModify_mapper _) (ModifyIgnores.step hf _) (fun v => Ignores.addCore hf _) s
  | slo m | rla m | sre m =>
    simp only [exec]
    exact modifyInstr_inert (shiftModify_mapper _) (ModifyIgnores.shift hf _) (fun v => Ignores.loadA hf fun _ => rfl) s
  | rra m =>
    simp only [exec]
    exact modifyInstr_inert (shiftModify_mapper _) (ModifyIgnores.shift hf _) (fun v => Ignores.addCore hf v) s
  | asl o | lsr o | rol o | ror o => simp only [exec]; exact shiftInstr_inert hf _ o _ s
  | pha => simp only [exec]; exact impliedInstr_inert (Ignores.push fun _ => rfl) s
  | pla => simp only [exec]; exact impliedInstr_inert (Ignores.pullA hf) s
  | bcc d | bcs d | beq d | bne d | bmi d | bpl d | bvc d | bvs d =>
    simp only [exec]; exact branchInstr_inert (ne_of_inert hf (by decide) (by decide)) _ d s
  | clc | sec | clv =>
    simp only [exec]; exact impliedInstr_inert (Ignores.setFlag (ne_of_inert hf (by decide) (by decide)) _) s
  | cli | sei =>
    simp only [exec]; exact impliedInstr_inert (Ignores.setFlag (fun h => hi (by simp [touching, ← h])) _) s
  | cld | sed =>
    simp only [exec]; exact impliedInstr_inert (Ignores.setFlag (fun h => hi (by simp [touching, ← h])) _) s
  | jmp t => exact jmp_inert f b t s
  | jsr w => exact jsr_inert f b w s
  | rts => exact rts_inert f b s
  | shx w => exact shx_inert f b w s
  | shy w => exact shy_inert f b w s
  | nopDup c o => exact nopDup_inert f b c o s
  | txs | nop | stp c | invalid c => rfl
  | php | plp | rti | brk => simp [touching] at hi

/-- Settles O53: every other instruction ignores the flag. -/
theorem decimalAndInterruptAreInert : Obligations.DecimalAndInterruptAreInert := by
  intro i f b s hi
  have hinert : Inert f b (exec i) := by
    rcases hi with ⟨rfl, hi⟩ | ⟨rfl, hi⟩
    · exact exec_inert (.inl rfl) b hi
    · exact exec_inert (.inr rfl) b hi
  constructor
  · intro t h
    rw [hinert s, h]; rfl
  · intro x h
    rw [hinert s, h]; rfl

end Sys2Proof.Machine
end

section
/-!
PROOF. The host's side: construction (`70_reset_and_hazards.md` R310, R311, R313, `20_memory.md` R73), and the
graphics-internal space (R75 to R80), in numbers.
-/

namespace Sys2Proof.Machine

/-! ### Construction (R34, R73, R310, R311, R313) -/

/-- A content cut to its array's size is canonical and within the size. -/
theorem ofBytes_take_ok (image : List Byte) (n : Nat) :
    (Memory.ofBytes (image.take n)).wf = true ∧ (Memory.ofBytes (image.take n)).within n = true :=
  ⟨Memory.wf_ofBytes _, Memory.within_ofBytes _ _ (List.length_take_le n image)⟩

/-- A content cut to its array's size reads as passed, below that size. -/
theorem read_ofBytes_take (image : List Byte) {n k : Nat} (h : k < n) :
    (Memory.ofBytes (image.take n)).read k = image.getD k 0 := by
  rw [Memory.read_ofBytes, List.getD_eq_getElem?_getD, List.getElem?_take_of_lt h, ← List.getD_eq_getElem?_getD]
  rfl

theorem prgSizeOf_eq_some {n : Nat} (h : n = 16384 ∨ n = 32768) : ∃ size, prgSizeOf n = some size ∧ size.bytes = n := by
  rcases h with rfl | rfl
  · exact ⟨.kib16, rfl, rfl⟩
  · exact ⟨.kib32, rfl, rfl⟩

theorem prgSizeOf_eq_none {n : Nat} (h16 : n ≠ 16384) (h32 : n ≠ 32768) : prgSizeOf n = none := by
  simp [prgSizeOf, h16, h32]

theorem constructed_wellFormed {q : Params} {size : PrgSize} (hprg : size.bytes = q.prgRom.length)
    (hchr : q.chrRom.length = 8192) : (constructed q size).wellFormed = true := by
  have hstatus : (constructed q size).statusOk = true := show State.reset.statusOk = true by decide
  have hrom : (Memory.ofBytes q.prgRom).within size.bytes = true := Memory.within_ofBytes _ _ hprg.ge
  have hchrRom : (Memory.ofBytes q.chrRom).within Config.chrRomSize = true := Memory.within_ofBytes _ _ hchr.le
  have hmemories : (constructed q size).memoriesOk = true := by
    simp [State.memoriesOk, constructed, ofBytes_take_ok, Memory.wf_ofBytes, hrom, hchrRom]
  have hmapper : (constructed q size).mapperOk = true := rfl
  rw [State.wellFormed, hstatus, hmemories, hmapper]; rfl

/-- The program ROM of a constructed machine, read through the bus. -/
theorem readByte_constructed {q : Params} {size : PrgSize} (hprg : size.bytes = q.prgRom.length) {k : Nat}
    (hk : k < 0x8000) :
    (constructed q size).readByte (BitVec.ofNat 16 (0x8000 + k)) = q.prgRom.getD (k % q.prgRom.length) 0 := by
  have hb : (BitVec.ofNat 16 (0x8000 + k)).toNat = 0x8000 + k := by
    rw [BitVec.toNat_ofNat, Nat.mod_eq_of_lt (by omega)]
  rw [readByte_of_le_4000 _ (by omega), hb, if_neg (by omega), if_neg (by omega), Nat.add_sub_cancel_left, ← hprg]
  exact Memory.read_ofBytes q.prgRom _

/-- Settles O58: the checks of R73 in their order, and then each field of the machine built. -/
theorem constructChecksSizes : Obligations.ConstructChecksSizes := by
  intro q
  refine ⟨fun hcode => ?_, fun hcode h16 h32 => ?_, fun hcode hprg => ⟨fun hchr => ?_, fun hchr => ?_⟩⟩
  · simp [construct, mapperOfCode, hcode]
  · simp [construct, mapperOfCode, hcode, prgSizeOf_eq_none h16 h32]
  · obtain ⟨size, hsize, -⟩ := prgSizeOf_eq_some hprg
    simp [construct, mapperOfCode, hcode, hsize, Config.chrRomSize, hchr]
  · obtain ⟨size, hsize, hbytes⟩ := prgSizeOf_eq_some hprg
    refine ⟨constructed q size, by simp [construct, mapperOfCode, hcode, hsize, Config.chrRomSize, hchr],
      constructed_wellFormed hbytes hchr, rfl, rfl, rfl, rfl, hbytes, rfl,
      fun k hk => readByte_constructed hbytes hk,
      fun k _ => Memory.read_ofBytes _ k, fun k hk => read_ofBytes_take _ hk, fun k hk => read_ofBytes_take _ hk,
      fun k hk => read_ofBytes_take _ hk, fun k hk => read_ofBytes_take _ hk, rfl⟩

/-! ### The graphics-internal space (R75 to R80) -/

theorem gfxRegion_eq (b : GfxAddr) : gfxRegion b =
    if b.toNat < 0x2000 then .pattern else if b.toNat < 0x3000 then .nameTable
    else if b.toNat < 0x3F00 then .unused else .palette := by
  simp only [gfxRegion, BitVec.le_def]
  split_ifs <;> simp_all <;> omega

/-- The video RAM after a write, in numbers. -/
theorem vramWrite_eq (m : Mirroring) (vram : Memory) (c : GfxAddr) (v : Byte) : vramWrite m vram (c, v) =
    if 0x2000 ≤ c.toNat ∧ c.toNat < 0x3000 then vram.write (vramIndex m c) v else vram := by
  simp only [vramWrite, gfxRegion_eq]
  split_ifs <;> first | rfl | omega

/-- The palette table after a write, in numbers. -/
theorem paletteWrite_eq (palette : Memory) (c : GfxAddr) (v : Byte) : paletteWrite palette (c, v) =
    if 0x3F00 ≤ c.toNat then palette.write (paletteIndex c) v else palette := by
  simp only [paletteWrite, gfxRegion_eq]
  split_ifs <;> first | rfl | omega

theorem vramIndex_eq_iff (m : Mirroring) {b c : GfxAddr} (hb : 0x2000 ≤ b.toNat ∧ b.toNat < 0x3000)
    (hc : 0x2000 ≤ c.toNat ∧ c.toNat < 0x3000) : vramIndex m b = vramIndex m c ↔
    c.toNat % 0x400 = b.toNat % 0x400 ∧ (m = .vertical → c.toNat / 0x400 % 2 = b.toNat / 0x400 % 2) ∧
      (m = .horizontal → c.toNat / 0x800 % 2 = b.toNat / 0x800 % 2) := by
  cases m <;> simp [vramIndex] <;> omega

theorem paletteIndex_eq {b : GfxAddr} (hb : 0x3F00 ≤ b.toNat) : paletteIndex b = b.toNat % 32 := by
  simp only [paletteIndex]; omega

/-! A read, range by range. -/

theorem ppuMemRead_of_lt_2000 {b : GfxAddr} {t : State} (hm : t.mapper = .nrom) (hb : b.toNat < 0x2000) :
    ppuMemRead b t = .ok (t.chrRom.read b.toNat, t) := by
  rw [ppuMemRead, gfxRegion_eq, if_pos hb, State.mapperReadGraphics, hm]; rfl

theorem ppuMemRead_of_nameTable {b : GfxAddr} (t : State) (hlo : 0x2000 ≤ b.toNat) (hhi : b.toNat < 0x3000) :
    ppuMemRead b t = .ok (t.vram.read (vramIndex t.mirroring b), t) := by
  rw [ppuMemRead, gfxRegion_eq, if_neg (by omega), if_pos hhi]

theorem ppuMemRead_of_unused {b : GfxAddr} (t : State) (hlo : 0x3000 ≤ b.toNat) (hhi : b.toNat < 0x3F00) :
    ppuMemRead b t = .ok (0x00, t.log [.diag .unusedGfxAccess]) := by
  rw [ppuMemRead, gfxRegion_eq, if_neg (by omega), if_neg (by omega), if_pos hhi]

theorem ppuMemRead_of_le_3F00 {b : GfxAddr} (t : State) (hlo : 0x3F00 ≤ b.toNat) :
    ppuMemRead b t = .ok (t.palette.read (b.toNat % 32), t) := by
  rw [ppuMemRead, gfxRegion_eq, if_neg (by omega), if_neg (by omega), if_neg (by omega), ← paletteIndex_eq hlo]

/-! A read of video RAM and palette after a write. -/

/-- A name-table byte after a write: the byte written at every address that names it. -/
theorem read_vramWrite (m : Mirroring) (vram : Memory) (c : GfxAddr) (v : Byte) {b : GfxAddr}
    (hb : 0x2000 ≤ b.toNat ∧ b.toNat < 0x3000) : (vramWrite m vram (c, v)).read (vramIndex m b) =
      if 0x2000 ≤ c.toNat ∧ c.toNat < 0x3000 ∧ c.toNat % 0x400 = b.toNat % 0x400 ∧
        (m = .vertical → c.toNat / 0x400 % 2 = b.toNat / 0x400 % 2) ∧
        (m = .horizontal → c.toNat / 0x800 % 2 = b.toNat / 0x800 % 2)
      then v else vram.read (vramIndex m b) := by
  by_cases hc : 0x2000 ≤ c.toNat ∧ c.toNat < 0x3000
  · rw [vramWrite_eq, if_pos hc, Memory.read_write]
    exact if_congr ((vramIndex_eq_iff m hb hc).trans (by tauto)) rfl rfl
  · rw [vramWrite_eq, if_neg hc, if_neg (by tauto)]

/-- A palette byte after a write: the byte written at every mirror. -/
theorem read_paletteWrite (palette : Memory) (c : GfxAddr) (v : Byte) (k : Nat) :
    (paletteWrite palette (c, v)).read k = if 0x3F00 ≤ c.toNat ∧ c.toNat % 32 = k then v else palette.read k := by
  by_cases hc : 0x3F00 ≤ c.toNat
  · rw [paletteWrite_eq, if_pos hc, Memory.read_write, paletteIndex_eq hc]
    exact if_congr (by simp [hc, eq_comm]) rfl rfl
  · rw [paletteWrite_eq, if_neg hc, if_neg (by tauto)]

/-- Settles O59: a write stores to one name-table or palette byte, a read finds it at every address that names it. -/
theorem graphicsSpaceReadsAndWrites : Obligations.GraphicsSpaceReadsAndWrites := by
  intro s c b v hm t
  have hvram : t.vram = vramWrite s.mirroring s.vram (c, v) := rfl
  have hpalette : t.palette = paletteWrite s.palette (c, v) := rfl
  have hmirroring : t.mirroring = s.mirroring := rfl
  refine ⟨ppuMemRead_of_lt_2000 hm, fun hlo hhi => ?_, fun hlo hhi => ?_, ppuMemRead_of_unused t, fun hlo => ?_,
    fun hc => ?_, fun hc => ?_, fun r _ => ?_, rfl, rfl, ?_, KeepsMachine.refl s⟩
  · constructor <;> simp only [vramIndex] <;> omega
  · rw [ppuMemRead_of_nameTable t hlo hhi, hvram, hmirroring, read_vramWrite _ _ _ _ ⟨hlo, hhi⟩]
  · rw [ppuMemRead_of_le_3F00 t hlo, hpalette, read_paletteWrite]
  · rw [hvram, vramWrite_eq, if_neg (by omega)]
  · rw [hpalette, paletteWrite_eq, if_neg (by omega)]
  · cases r <;> rfl
  · exact (BytesAfter.nil s t).2 fun b hb => readByte_congr rfl rfl rfl rfl hb

end Sys2Proof.Machine
end
